-- ==== Sys2Proof/Word.lean ====
section
/-! DEFINITION. The two word types of the hardware: every register but PC is a byte, PC and every address is a word
(00_scope R7). Arithmetic on them is that of `BitVec`, which keeps "all register values always masked to their bit width"
(00_scope R9). -/

namespace Sys2Proof

/-- An 8-bit register, memory byte or bus datum (00_scope R7, R9). -/
abbrev Byte := BitVec 8

/-- A 16-bit program counter value or address (00_scope R7, R9). -/
abbrev Word := BitVec 16

end Sys2Proof
end

