-- ==== Sys2Proof/Config.lean ====
section
/-! DEFINITION. What the spec leaves to the implementation: the parameters of 00_scope R8 that have a default, held as plain
data in `State`, so that a claim over every state is a claim over every value of them (log 6); the draws, which are constants
without a body; and what a byte of memory that nothing has written reads as (log 3). -/

namespace Sys2Proof.Config

/-- The parameters a model takes as arguments (00_scope R8). RAM_INIT and the cartridge are fields of `State`, VBLANK_INIT and
PORT_READ are the draws below. `undefLen` and `undefCycles` list the undefined opcodes for which UNDEF_LEN and UNDEF_CYCLES
differ from their defaults (45_stack_flag_misc R253, 30_encoding R111). -/
structure Params where
  /-- P_RESET, default 0x24 (decision D1). -/
  pReset : Byte
  /-- UNDEF_LEN where it is not 1 (decision D5). -/
  undefLen : List (Byte × Nat)
  /-- UNDEF_CYCLES where it is not the table of 30_encoding R111 (decision D5). -/
  undefCycles : List (Byte × Nat)
  /-- CPU_PHASE, default 0 (decision D7). -/
  cpuPhase : Fin 3
  /-- PPU_RESET_CYCLE, default 0 (decision D15). -/
  ppuResetCycle : Nat
  /-- PPU_RESET_SCANLINE, default 0 (decision D15). -/
  ppuResetScanline : Int
  deriving DecidableEq, Repr

/-- Every parameter at the default of 00_scope R8. -/
def defaultParams : Params :=
  { pReset := 0x24#8, undefLen := [], undefCycles := [], cpuPhase := 0, ppuResetCycle := 0, ppuResetScanline := 0 }

/-- PORT_READ, "none: free (a draw)" (00_scope R8, 60_exceptions R292, decision D16): the byte the `n`-th draw of a run gives
for a read of a port that is no peek, which may depend on the port and on the stub's cycle counter, scanline counter,
frame-complete flag and vertical-blank flag. No body: nothing is known of its values (log 5). -/
opaque portRead (n : Nat) (port : BitVec 3) (cycle : Nat) (scanline : Int) (frameComplete vblank : Bool) : Byte

/-- PORT_READ of a peek, which has no side effect, so that repeating it gives the same byte (20_memory R87, 60_exceptions R292): the
byte may depend on how many values the run has drawn, on the clock count at the peek, and on what `portRead` may depend on. No body:
nothing is known of its values, nor of their relation to those of `portRead` (log 5). -/
opaque portPeek (n clockCount : Nat) (port : BitVec 3) (cycle : Nat) (scanline : Int) (frameComplete vblank : Bool) : Byte

/-- VBLANK_INIT, "none: free (a draw)" (00_scope R8, 70_reset R311, decision D15): the vertical-blank flag the `n`-th draw of a
run gives at a reset. No body: nothing is known of its values (log 4). -/
opaque vblankInit (n : Nat) : Bool

/-- What a byte that a memory does not list reads as. For RAM this is the model's choice of RAM_INIT in `State.reset`
(DESIGN CHOICE, log 3); for a cartridge it only says which bytes of the image need no entry. -/
def unlistedByte : Byte := 0x00#8

end Sys2Proof.Config
end

