-- ==== Sys2Proof/Syntax/Operand.lean ====
section
/-! DEFINITION. Operand forms. `Operand` is an addressing mode with its operand bytes (30_encoding R101). The other types are
the sets of modes that the opcode map gives each group of mnemonics (30_encoding R104 and the "Opcodes:" lines of files 41
to 44), so that a mnemonic with a mode it does not have cannot be written. -/

namespace Sys2Proof

/-- An addressing mode and its operand bytes (30_encoding R101). -/
inductive Operand where
  | imp
  | acc
  | imm (i : Byte)
  | zp0 (z : Byte)
  | zpx (z : Byte)
  | zpy (z : Byte)
  | rel (d : Byte)
  | abs (w : Word)
  | abx (w : Word)
  | aby (w : Word)
  | ind (w : Word)
  | izx (z : Byte)
  | izy (z : Byte)
  deriving DecidableEq, Repr

/-- The eight modes of LDA, ADC, SBC, AND, ORA, EOR and CMP (rules R161, R181 to R185, R187). -/
inductive AccOperand where
  | imm (i : Byte)
  | zp0 (z : Byte)
  | zpx (z : Byte)
  | abs (w : Word)
  | abx (w : Word)
  | aby (w : Word)
  | izx (z : Byte)
  | izy (z : Byte)
  deriving DecidableEq, Repr

/-- The seven modes of STA (rule R164). -/
inductive StaOperand where
  | zp0 (z : Byte)
  | zpx (z : Byte)
  | abs (w : Word)
  | abx (w : Word)
  | aby (w : Word)
  | izx (z : Byte)
  | izy (z : Byte)
  deriving DecidableEq, Repr

/-- The five modes of LDX (rule R162). -/
inductive LdxOperand where
  | imm (i : Byte)
  | zp0 (z : Byte)
  | zpy (z : Byte)
  | abs (w : Word)
  | aby (w : Word)
  deriving DecidableEq, Repr

/-- The five modes of LDY (rule R163). -/
inductive LdyOperand where
  | imm (i : Byte)
  | zp0 (z : Byte)
  | zpx (z : Byte)
  | abs (w : Word)
  | abx (w : Word)
  deriving DecidableEq, Repr

/-- The three modes of STX (rule R165). -/
inductive StxOperand where
  | zp0 (z : Byte)
  | zpy (z : Byte)
  | abs (w : Word)
  deriving DecidableEq, Repr

/-- The three modes of STY (rule R166). -/
inductive StyOperand where
  | zp0 (z : Byte)
  | zpx (z : Byte)
  | abs (w : Word)
  deriving DecidableEq, Repr

/-- The three modes of CPX and CPY (rules R188, R189). -/
inductive CpOperand where
  | imm (i : Byte)
  | zp0 (z : Byte)
  | abs (w : Word)
  deriving DecidableEq, Repr

/-- The two modes of BIT (rule R186). -/
inductive BitOperand where
  | zp0 (z : Byte)
  | abs (w : Word)
  deriving DecidableEq, Repr

/-- The four modes of INC and DEC (rules R190, R191). -/
inductive IncOperand where
  | zp0 (z : Byte)
  | zpx (z : Byte)
  | abs (w : Word)
  | abx (w : Word)
  deriving DecidableEq, Repr

/-- The five modes of ASL, LSR, ROL and ROR (rules R211 to R214). -/
inductive ShiftOperand where
  | acc
  | zp0 (z : Byte)
  | zpx (z : Byte)
  | abs (w : Word)
  | abx (w : Word)
  deriving DecidableEq, Repr

/-- The two modes of JMP (rule R229). -/
inductive JmpOperand where
  | abs (w : Word)
  | ind (w : Word)
  deriving DecidableEq, Repr

end Sys2Proof
end

