-- ==== Sys2Proof/Machine/Cycles.lean ====
section
/-! DEFINITION. Base cycle counts (30_encoding R104 and the "Opcodes:" lines of files 41 to 44) and the length and cycle count
of an undefined opcode (30_encoding R111, 45_stack_flag_misc R253). -/

namespace Sys2Proof

/-- LDA, ADC, SBC, AND, ORA, EOR, CMP. -/
def AccOperand.cycles : AccOperand → Nat
  | .imm _ => 2
  | .zp0 _ => 3
  | .zpx _ => 4
  | .abs _ => 4
  | .abx _ => 4
  | .aby _ => 4
  | .izx _ => 6
  | .izy _ => 5

/-- STA: the indexed cycle is in the base count (40_dispatch R135). -/
def StaOperand.cycles : StaOperand → Nat
  | .zp0 _ => 3
  | .zpx _ => 4
  | .abs _ => 4
  | .abx _ => 5
  | .aby _ => 5
  | .izx _ => 6
  | .izy _ => 6

def LdxOperand.cycles : LdxOperand → Nat
  | .imm _ => 2
  | .zp0 _ => 3
  | .zpy _ => 4
  | .abs _ => 4
  | .aby _ => 4

def LdyOperand.cycles : LdyOperand → Nat
  | .imm _ => 2
  | .zp0 _ => 3
  | .zpx _ => 4
  | .abs _ => 4
  | .abx _ => 4

def StxOperand.cycles : StxOperand → Nat
  | .zp0 _ => 3
  | .zpy _ => 4
  | .abs _ => 4

def StyOperand.cycles : StyOperand → Nat
  | .zp0 _ => 3
  | .zpx _ => 4
  | .abs _ => 4

/-- CPX and CPY. -/
def CpOperand.cycles : CpOperand → Nat
  | .imm _ => 2
  | .zp0 _ => 3
  | .abs _ => 4

def BitOperand.cycles : BitOperand → Nat
  | .zp0 _ => 3
  | .abs _ => 4

/-- INC and DEC. -/
def IncOperand.cycles : IncOperand → Nat
  | .zp0 _ => 5
  | .zpx _ => 6
  | .abs _ => 6
  | .abx _ => 7

/-- ASL, LSR, ROL and ROR. -/
def ShiftOperand.cycles : ShiftOperand → Nat
  | .acc => 2
  | .zp0 _ => 5
  | .zpx _ => 6
  | .abs _ => 6
  | .abx _ => 7

def JmpOperand.cycles : JmpOperand → Nat
  | .abs _ => 3
  | .ind _ => 5

end Sys2Proof

namespace Sys2Proof.Machine

open Sys2Proof

/-- The default UNDEF_CYCLES, row by row (30_encoding R111); its first row, of 2 cycles, stands last. -/
def defaultUndefCycles (op : Byte) : Nat :=
  if op ∈ ([0x04, 0x44, 0x64, 0x87, 0xA7] : List Byte) then 3
  else if op ∈ ([0x0C, 0x14, 0x1C, 0x34, 0x3C, 0x54, 0x5C, 0x74, 0x7C, 0x8F, 0x97, 0xAF, 0xB7, 0xBB, 0xBF, 0xD4, 0xDC, 0xF4,
      0xFC] : List Byte) then 4
  else if op ∈ ([0x07, 0x27, 0x47, 0x67, 0x9B, 0x9C, 0x9E, 0x9F, 0xB3, 0xC7, 0xE7] : List Byte) then 5
  else if op ∈ ([0x0F, 0x17, 0x2F, 0x37, 0x4F, 0x57, 0x6F, 0x77, 0x83, 0x93, 0xA3, 0xCF, 0xD7, 0xEF, 0xF7] : List Byte) then 6
  else if op ∈ ([0x1B, 0x1F, 0x3B, 0x3F, 0x5B, 0x5F, 0x7B, 0x7F, 0xDB, 0xDF, 0xFB, 0xFF] : List Byte) then 7
  else if op ∈ ([0x03, 0x13, 0x23, 0x33, 0x43, 0x53, 0x63, 0x73, 0xC3, 0xD3, 0xE3, 0xF3] : List Byte) then 8
  else 2

/-- The first entry of a parameter list for an opcode, or the default. -/
def lookupParam (op : Byte) (default : Nat) : List (Byte × Nat) → Nat
  | [] => default
  | (o, n) :: rest => if o = op then n else lookupParam op default rest

/-- `UNDEF_LEN(op)` (45_stack_flag_misc R253): 1 unless the parameter says otherwise. -/
def undefLen (params : Config.Params) (op : Byte) : Nat := lookupParam op 1 params.undefLen

/-- `UNDEF_CYCLES(op)` (30_encoding R111): the default table unless the parameter says otherwise. -/
def undefCycles (params : Config.Params) (op : Byte) : Nat := lookupParam op (defaultUndefCycles op) params.undefCycles

/-- The parameters lie in the ranges the spec gives them: UNDEF_LEN in 1..3, UNDEF_CYCLES at least 1 (00_scope R8, 70_reset
R321), and the stub's reset counters in the ranges of 10_state R42 (70_reset R311). -/
def paramsLegal (params : Config.Params) : Bool :=
  params.undefLen.all (fun e => decide (1 ≤ e.2) && decide (e.2 ≤ 3)) && params.undefCycles.all (fun e => decide (1 ≤ e.2)) &&
    decide (params.ppuResetCycle ≤ 340) && decide (-1 ≤ params.ppuResetScanline) && decide (params.ppuResetScanline ≤ 260)

end Sys2Proof.Machine
end

