-- ==== Sys2Proof/Machine/Bits.lean ====
section
/-! DEFINITION. Byte order, sign extension and page helpers of 00_scope R9 and R14. -/

namespace Sys2Proof.Machine

/-- `hi(w) = w[15:8]` (00_scope R9). -/
def hiByte (w : Word) : Byte := w.extractLsb' 8 8

/-- `lo(w) = w[7:0]` (00_scope R9). -/
def loByte (w : Word) : Byte := w.extractLsb' 0 8

/-- `h || l`, the word `(h << 8) | l` (00_scope R9; little-endian pairs, 20_memory R85). -/
def joinBytes (h l : Byte) : Word := (h.setWidth 16 <<< 8) ||| l.setWidth 16

/-- `zext_16(b)` (00_scope R9). -/
def zext16 (b : Byte) : Word := b.setWidth 16

/-- `sext_16(b)`: `b | 0xFF00` if `b[7] = 1`, else `b` (00_scope R9). -/
def sext16 (b : Byte) : Word := if b.msb then zext16 b ||| 0xFF00#16 else zext16 b

/-- `page(w) = w & 0xFF00` (00_scope R9, R14). -/
def pageOf (w : Word) : Word := w &&& 0xFF00#16

end Sys2Proof.Machine
end

