-- ==== Sys2Proof/Machine/State.lean ====
section
/-! DEFINITION. The state of the machine as plain data (10_state), the reasons it can stop, the state after reset, and one
setter per field. -/

namespace Sys2Proof.Machine

open Sys2Proof

/-- A byte memory: the bytes that differ from `Config.unlistedByte`, at strictly rising offsets (`Memory.wf`). -/
abbrev Memory := List Host.Cell

/-- The cartridge's nametable mirroring property (10_state R40, 20_memory R73). -/
inductive Mirroring where
  | horizontal
  | vertical
  deriving DecidableEq, Repr

/-- A cartridge (10_state R40). -/
structure Cartridge where
  valid : Bool
  prgBanks : Byte
  chrBanks : Byte
  mapperId : Byte
  mirroring : Mirroring
  trainer : Bool
  prg : Memory
  chr : Memory
  deriving DecidableEq, Repr

/-- The state of the hardware (10_state R20 to R44). -/
structure State where
  /-- The accumulator (10_state R20). -/
  a : Byte
  /-- The index register X (10_state R21). -/
  x : Byte
  /-- The index register Y (10_state R22). -/
  y : Byte
  /-- The stack pointer, an index into page 1 (10_state R24). -/
  sp : Byte
  /-- The program counter (10_state R25). -/
  pc : Word
  /-- The status register, bits NV-BDIZC from 7 to 0 (10_state R26). -/
  p : Byte
  /-- The countdown, "remaining cycles for the in-flight instruction" (10_state R29, decision D24). -/
  cyc : Nat
  /-- "currently decoded opcode" (10_state R29). -/
  opcode : Byte
  /-- "resolved operand address" (10_state R29). -/
  ea : Word
  /-- "global cycle counter (monotonic, used for diagnostics only)" (10_state R29). -/
  clockCount : Nat
  /-- System RAM, 2048 bytes at offsets 0 to 2047 (10_state R31). -/
  ram : Memory
  /-- The bus ratio counter (10_state R32). -/
  busCtr : Fin 3
  /-- The cartridge slot (10_state R33). -/
  cart : Option Cartridge
  /-- The stub's cycle counter, 0..340 (10_state R42). -/
  ppuCycle : Nat
  /-- The stub's scanline counter, -1..260 (10_state R42). -/
  ppuScanline : Int
  /-- The stub's frame-complete flag (10_state R42). -/
  frameComplete : Bool
  /-- The stub's vertical-blank flag (10_state R42). -/
  vblank : Bool
  /-- The parameters of 00_scope R8 that have a default; nothing writes them (log 6). -/
  params : Config.Params
  /-- The MODEL's field: a first bus reset has happened, before which 70_reset R313 refuses the clocks and interrupts (log 8). -/
  hasReset : Bool
  /-- The MODEL's field: how many free values the run has drawn, those of peeks apart; the next draw has this number (log 5). -/
  draws : Nat
  deriving DecidableEq, Repr

/-- Why the machine faults: never. "There is no fatal error path inside the processor"; the hardware raises no exception and
never stops ticking (60_exceptions R270, R303), so no fault reason exists. -/
inductive Fault where
  deriving DecidableEq, Repr

/-- Why the model refuses. Apart from `notModelled`, each is a launch or host action that the spec itself refuses; no
instruction is refused. -/
inductive Refusal where
  /-- Raised by `exec` for an instruction that has no meaning yet; safe. No arm raises it now. -/
  | notModelled (mnemonic : String)
  /-- Raised by `step` and the host's clock and interrupt actions before the first bus reset: "A model refuses `bus.clock()`,
  `interrupt_request` and `nonmaskable_interrupt_request` before the first reset" (70_reset R313); safe. -/
  | beforeFirstReset
  /-- Raised by the host action that inserts a cartridge with `valid = false` (20_memory R83, decision D13); safe. -/
  | invalidCartridge
  /-- Raised by the host action that inserts a cartridge whose mapper is not the baseline one (20_memory R82, decision D13);
  safe. -/
  | unsupportedMapper (mapperId : Byte)
  /-- Raised by the bus reset under a parameter outside the range the spec gives it (70_reset R311, R321; 00_scope R8); safe. -/
  | illegalParameter
  deriving DecidableEq, Repr

/-- The state right after `bus.reset()` (10_state R44), with every parameter at its default, no cartridge in the slot, so that
the reset vector reads 0 (20_memory R65; log 2), and no byte of RAM listed (log 3). The vertical-blank flag is the first draw
(log 4). -/
def State.reset : State :=
  { a := 0x00#8, x := 0x00#8, y := 0x00#8, sp := 0xFD#8, pc := 0x0000#16, p := 0x24#8, cyc := 8, opcode := 0x00#8, ea := 0x0000#16,
    clockCount := 0, ram := [], busCtr := 0, cart := none, ppuCycle := 0, ppuScanline := 0, frameComplete := false,
    vblank := Config.vblankInit 0, params := Config.defaultParams, hasReset := true, draws := 1 }

/-! One setter per field; `params` has none. -/

def State.setA (s : State) (v : Byte) : State := { s with a := v }
def State.setX (s : State) (v : Byte) : State := { s with x := v }
def State.setY (s : State) (v : Byte) : State := { s with y := v }
def State.setSp (s : State) (v : Byte) : State := { s with sp := v }
def State.setPc (s : State) (v : Word) : State := { s with pc := v }
def State.setP (s : State) (v : Byte) : State := { s with p := v }
def State.setCyc (s : State) (v : Nat) : State := { s with cyc := v }
def State.setOpcode (s : State) (v : Byte) : State := { s with opcode := v }
def State.setEa (s : State) (v : Word) : State := { s with ea := v }
def State.setClockCount (s : State) (v : Nat) : State := { s with clockCount := v }
def State.setRam (s : State) (v : Memory) : State := { s with ram := v }
def State.setBusCtr (s : State) (v : Fin 3) : State := { s with busCtr := v }
def State.setCart (s : State) (v : Option Cartridge) : State := { s with cart := v }
def State.setPpuCycle (s : State) (v : Nat) : State := { s with ppuCycle := v }
def State.setPpuScanline (s : State) (v : Int) : State := { s with ppuScanline := v }
def State.setFrameComplete (s : State) (v : Bool) : State := { s with frameComplete := v }
def State.setVblank (s : State) (v : Bool) : State := { s with vblank := v }
def State.setHasReset (s : State) (v : Bool) : State := { s with hasReset := v }
def State.setDraws (s : State) (v : Nat) : State := { s with draws := v }

end Sys2Proof.Machine
end

