-- ==== Sys2Proof/Machine/Memory.lean ====
section
/-! DEFINITION. A byte memory as a list in canonical form: reading, writing, the form itself, and the memory that holds given
bytes. RAM, program memory and pattern memory are memories (10_state R31, R40). -/

namespace Sys2Proof.Machine

open Sys2Proof

/-- The byte at an offset. -/
def Memory.read : Memory → Nat → Byte
  | [], _ => Config.unlistedByte
  | (k, v) :: rest, i => if k = i then v else Memory.read rest i

/-- Put one byte at an offset; the result is canonical if the memory was. -/
def Memory.write : Memory → Nat → Byte → Memory
  | [], i, b => if b = Config.unlistedByte then [] else [(i, b)]
  | (k, v) :: rest, i, b =>
    if i < k then (if b = Config.unlistedByte then (k, v) :: rest else (i, b) :: (k, v) :: rest)
    else if i = k then (if b = Config.unlistedByte then rest else (i, b) :: rest)
    else (k, v) :: Memory.write rest i b

/-- The canonical form from an offset on: offsets rise strictly, lie below `size`, and no listed byte is the unlisted one. -/
def Memory.wfFrom (size : Nat) : Nat → Memory → Bool
  | _, [] => true
  | lo, (k, v) :: rest => decide (lo ≤ k) && decide (k < size) && decide (v ≠ Config.unlistedByte) && Memory.wfFrom size (k + 1) rest

/-- A memory of `size` bytes is in canonical form. -/
def Memory.wf (size : Nat) (m : Memory) : Bool := Memory.wfFrom size 0 m

/-- The memory that holds the given bytes at `i`, `i + 1` and so on. -/
def Memory.ofBytesAt : Nat → List Byte → Memory
  | _, [] => []
  | i, b :: rest => if b = Config.unlistedByte then Memory.ofBytesAt (i + 1) rest else (i, b) :: Memory.ofBytesAt (i + 1) rest

/-- The memory that holds the given bytes from offset 0 on. -/
def Memory.ofBytes (bytes : List Byte) : Memory := Memory.ofBytesAt 0 bytes

end Sys2Proof.Machine
end

