-- ==== Sys2Proof/Machine/Cartridge.lean ====
section
/-! DEFINITION. The cartridge: the header parser, the baseline mapper, and the four accesses (20_memory R70 to R84). -/

namespace Sys2Proof.Machine

open Sys2Proof

/-- `len(prg)` (10_state R40). -/
def Cartridge.prgSize (c : Cartridge) : Nat := c.prgBanks.toNat * 16384

/-- `len(chr)` (10_state R40). -/
def Cartridge.chrSize (c : Cartridge) : Nat := c.chrBanks.toNat * 8192

/-- `MapCpu`: the program-memory offset of a processor-side address, `none` for UNMAPPED (20_memory R70). -/
def Cartridge.mapCpu (c : Cartridge) (addr : Word) : Option Nat :=
  if 0x8000#16 ≤ addr then some (addr &&& (if c.prgBanks = 1#8 then 0x3FFF#16 else 0x7FFF#16)).toNat else none

/-- `MapPpu`: the pattern-memory offset of a picture-unit-side address, `none` for UNMAPPED (20_memory R70). -/
def Cartridge.mapPpu (_ : Cartridge) (addr : Word) : Option Nat :=
  if addr ≤ 0x1FFF#16 then some addr.toNat else none

/-- `CartCpuRead` (20_memory R71; decision D12 for an offset beyond the memory's length). -/
def Cartridge.cpuRead (c : Cartridge) (addr : Word) : Byte :=
  match c.mapCpu addr with
  | none => 0x00#8
  | some o => if c.prgSize ≤ o then 0x00#8 else c.prg.read o

/-- `CartCpuWrite` (20_memory R71): program memory is writable through the bus. -/
def Cartridge.cpuWrite (c : Cartridge) (addr : Word) (v : Byte) : Cartridge :=
  match c.mapCpu addr with
  | none => c
  | some o => if c.prgSize ≤ o then c else { c with prg := c.prg.write o v }

/-- `CartPpuRead` (20_memory R71, R72). No in-scope rule issues this access (decision D28; log 17). -/
def Cartridge.ppuRead (c : Cartridge) (addr : Word) : Byte :=
  match c.mapPpu addr with
  | none => 0x00#8
  | some o => if c.chrSize ≤ o then 0x00#8 else c.chr.read o

/-- `CartPpuWrite` (20_memory R71, R72). No in-scope rule issues this access (decision D28; log 17). -/
def Cartridge.ppuWrite (c : Cartridge) (addr : Word) (v : Byte) : Cartridge :=
  match c.mapPpu addr with
  | none => c
  | some o => if c.chrSize ≤ o then c else { c with chr := c.chr.write o v }

/-- A cartridge whose file could not be opened or read, or is too short: `valid = false` is all that is said of it (20_memory
R80, decision D13; log 9). -/
def Cartridge.invalid : Cartridge :=
  { valid := false, prgBanks := 0, chrBanks := 0, mapperId := 0, mirroring := .horizontal, trainer := false, prg := [], chr := [] }

/-- The record of a 16-byte header's bytes 4 to 7, and the bytes after the header (20_memory R80, R81). A trainer is skipped, not
stored; a file too short for what it declares is a load failure (decision D13). -/
def Cartridge.ofHeader (prgBanks chrBanks flags1 flags2 : Byte) (afterHeader : List Byte) : Cartridge :=
  let trainer := flags1.getLsbD 2
  let body := if trainer then afterHeader.drop 512 else afterHeader
  let prgLength := prgBanks.toNat * 16384
  let chrLength := chrBanks.toNat * 8192
  if afterHeader.length < (if trainer then 512 else 0) + prgLength + chrLength then Cartridge.invalid
  else
    { valid := true
      prgBanks := prgBanks
      chrBanks := chrBanks
      mapperId := (flags2 &&& 0xF0#8) ||| (flags1 >>> 4)
      mirroring := if flags1.getLsbD 0 then .vertical else .horizontal
      trainer := trainer
      prg := Memory.ofBytes (body.take prgLength)
      chr := Memory.ofBytes ((body.drop prgLength).take chrLength) }

/-- Construction of a cartridge from a file image, `none` for a file that cannot be opened or read (20_memory R80, R81). The
magic bytes 0 to 3 and bytes 8 to 15 are not looked at (decision D23). -/
def Cartridge.ofFile : Option (List Byte) → Cartridge
  | none => Cartridge.invalid
  | some f =>
    if f.length < 16 then Cartridge.invalid
    else Cartridge.ofHeader (f.getD 4 0) (f.getD 5 0) (f.getD 6 0) (f.getD 7 0) (f.drop 16)

end Sys2Proof.Machine
end

