-- ==== Sys2Proof/Machine/Flags.lean ====
section
/-! DEFINITION. The status register's flags, and every flag computation of the spec as a function of bytes (10_state R26 to R28;
42_arith_logic R180, R186, R187; 43_shift_rotate R210 to R214). -/

namespace Sys2Proof.Machine

open Sys2Proof

/-- The eight bits of P by their letters (10_state R26). -/
inductive Flag where
  | C | Z | I | D | B | U | V | N
  deriving DecidableEq, Repr

/-- "named bit constants over a single unsigned byte" (10_state R26). -/
def Flag.mask : Flag → Byte
  | .C => 0x01#8
  | .Z => 0x02#8
  | .I => 0x04#8
  | .D => 0x08#8
  | .B => 0x10#8
  | .U => 0x20#8
  | .V => 0x40#8
  | .N => 0x80#8

/-- Read a flag of a status byte by its mask. -/
def getFlag (f : Flag) (p : Byte) : Bool := p &&& f.mask != 0#8

/-- Write a flag of a status byte by its mask; every other bit is left as it is. -/
def putFlag (f : Flag) (b : Bool) (p : Byte) : Byte := if b then p ||| f.mask else p &&& ~~~f.mask

/-- `setZN(v)`: `P.Z <- (v == 0); P.N <- v[7]` (00_scope R10). -/
def setZN (v p : Byte) : Byte := putFlag .N v.msb (putFlag .Z (v == 0#8) p)

/-- `AddWithCarry(m)` on the accumulator and status: the sum, and C, V, Z and N (42_arith_logic R180). P.D is not read (decision
D3). -/
def addWithCarry (a m p : Byte) : Byte × Byte :=
  let t := a.toNat + m.toNat + (getFlag .C p).toNat
  let r := BitVec.ofNat 8 t
  let overflow := (~~~(a ^^^ m) &&& (a ^^^ r) &&& 0x80#8) != 0
  (r, setZN r (putFlag .V overflow (putFlag .C (decide (255 < t)) p)))

/-- The flags of a compare of `reg` with `m`: C, Z and N of the unsigned subtraction (42_arith_logic R187). -/
def compareFlags (reg m p : Byte) : Byte :=
  putFlag .N (reg - m).msb (putFlag .Z (reg == m) (putFlag .C (decide (m ≤ reg)) p))

/-- The flags of BIT: Z from `A & m`, N and V from bits 7 and 6 of `m` (42_arith_logic R186). -/
def bitFlags (a m p : Byte) : Byte :=
  putFlag .V (m.getLsbD 6) (putFlag .N m.msb (putFlag .Z (a &&& m == 0#8) p))

/-- ASL: the result and the status with C (43_shift_rotate R211). -/
def aslByte (v p : Byte) : Byte × Byte := (v <<< 1, putFlag .C v.msb p)

/-- LSR: the result and the status with C (43_shift_rotate R212). -/
def lsrByte (v p : Byte) : Byte × Byte := (v >>> 1, putFlag .C (v.getLsbD 0) p)

/-- ROL: the old C enters bit 0 (43_shift_rotate R213). -/
def rolByte (v p : Byte) : Byte × Byte :=
  ((v <<< 1) ||| (if getFlag .C p then 0x01#8 else 0x00#8), putFlag .C v.msb p)

/-- ROR: the old C enters bit 7 (43_shift_rotate R214). -/
def rorByte (v p : Byte) : Byte × Byte :=
  ((v >>> 1) ||| (if getFlag .C p then 0x80#8 else 0x00#8), putFlag .C (v.getLsbD 0) p)

/-- The byte that PHP and BRK push: B = 1 and U = 1 (45_stack_flag_misc R241, 44_control R230, decision D2). -/
def pushedStatus (p : Byte) : Byte := p ||| 0x30#8

/-- What PLP and RTI load for a pulled byte: B = 0 and U = 1 (10_state R28, decision D2). -/
def pulledStatus (v : Byte) : Byte := (v &&& 0xCF#8) ||| 0x20#8

/-- What an interrupt entry makes of P, and pushes: B = 0, U = 1, I = 1 (60_exceptions R272, decision D31). -/
def interruptStatus (p : Byte) : Byte := putFlag .I true (putFlag .U true (putFlag .B false p))

end Sys2Proof.Machine
end

