-- ==== Sys2Proof/Machine/Ops.lean ====
section
/-! DEFINITION. The operations every instruction is written from: bus reads and writes (20_memory R60, R61), the picture-unit
ports (60_exceptions R292, R293), the stack (00_scope R11), taking a trap and returning from one (44_control R230, R233;
60_exceptions R272, R273), and running an operation between its base cycle count and its page-cross cycle (40_dispatch R130). -/

namespace Sys2Proof.Machine

open Sys2Proof

/-! The bus. -/

/-- `PortRead(p, ro)`: the byte is a draw, which may depend on `vblank` before it is cleared. A peek changes nothing, so that it is
idempotent (20_memory R87); any other read draws a fresh value (log 5) and at port 2 clears `vblank` (60_exceptions R292). -/
def portRead (port : BitVec 3) (ro : Bool) (s : State) : Byte × State :=
  if ro then (Config.portPeek s.draws s.clockCount port s.ppuCycle s.ppuScanline s.frameComplete s.vblank, s)
  else
    let t := s.setDraws (s.draws + 1)
    (Config.portRead s.draws port s.ppuCycle s.ppuScanline s.frameComplete s.vblank, if port = 2#3 then t.setVblank false else t)

/-- `PortWrite(p, v)` changes no in-scope state (60_exceptions R293, decision D16; log 7). -/
def portWrite (_port : BitVec 3) (_v : Byte) (s : State) : State := s

/-- `BusRead(addr, ro)` (20_memory R60). -/
def busRead (addr : Word) (ro : Bool) (s : State) : Byte × State :=
  if addr ≤ 0x1FFF#16 then (s.ram.read (addr &&& 0x07FF#16).toNat, s)
  else if addr ≤ 0x3FFF#16 then portRead ((addr &&& 0x0007#16).setWidth 3) ro s
  else
    match s.cart with
    | some c => (c.cpuRead addr, s)
    | none => (0x00#8, s)

/-- `BusWrite(addr, v)` (20_memory R61). -/
def busWrite (addr : Word) (v : Byte) (s : State) : State :=
  if addr ≤ 0x1FFF#16 then s.setRam (s.ram.write (addr &&& 0x07FF#16).toNat v)
  else if addr ≤ 0x3FFF#16 then portWrite ((addr &&& 0x0007#16).setWidth 3) v s
  else
    match s.cart with
    | some c => s.setCart (some (c.cpuWrite addr v))
    | none => s

/-- `MemRead(addr, 1)`: a processor read, never a peek (00_scope R11, decision D10). -/
def memRead (addr : Word) (s : State) : Byte × State := busRead addr false s

/-- Two one-byte reads, the low byte at `low` first, joined to a word (20_memory R86). -/
def memReadPair (low high : Word) (s : State) : Word × State :=
  let l := memRead low s
  let h := memRead high l.2
  (joinBytes h.1 l.1, h.2)

/-- `MemRead16(addr)` (00_scope R11). -/
def memRead16 (addr : Word) (s : State) : Word × State := memReadPair addr (addr + 1#16) s

/-! The stack. -/

/-- The address of the stack byte that a stack pointer designates (10_state R24). -/
def stackAddr (sp : Byte) : Word := 0x0100#16 + zext16 sp

/-- `push(v)` (00_scope R11). -/
def push (v : Byte) (s : State) : State :=
  let t := busWrite (stackAddr s.sp) v s
  t.setSp (t.sp - 1#8)

/-- `pull()` (00_scope R11). -/
def pull (s : State) : Byte × State :=
  let t := s.setSp (s.sp + 1#8)
  memRead (stackAddr t.sp) t

/-- `push(hi(w)); push(lo(w))`: a word on the stack, high byte first (20_memory R85). -/
def pushWord (w : Word) (s : State) : State := push (loByte w) (push (hiByte w) s)

/-- `l <- pull(); h <- pull()` joined to a word. -/
def pullWord (s : State) : Word × State :=
  let l := pull s
  let h := pull l.2
  (joinBytes h.1 l.1, h.2)

/-! Traps. -/

/-- `P <- f(P)` for a flag computation `f`. -/
def State.mapP (f : Byte → Byte) (s : State) : State := s.setP (f s.p)

/-- Taking a trap: push the return address, high byte first, then a status byte; P becomes `newP`; PC becomes the word at the
vector. Shared by BRK and the two interrupt entries (44_control R230; 60_exceptions R272, R273). -/
def enterTrap (returnAddr : Word) (pushedP newP : Byte) (vector : Word) (s : State) : State :=
  let t := (push pushedP (pushWord returnAddr s)).setP newP
  let target := memRead16 vector t
  target.2.setPc target.1

/-- Returning from a trap: pull P with B forced to 0 and U to 1, then PC, with no increment (44_control R233). -/
def returnFromTrap (s : State) : State :=
  let status := pull s
  let target := pullWord (status.2.setP (pulledStatus status.1))
  target.2.setPc target.1

/-- The three vectors (20_memory R67). -/
def nmiVector : Word := 0xFFFA#16
def resetVector : Word := 0xFFFC#16
def irqVector : Word := 0xFFFE#16

/-- An interrupt entry: P gets B = 0, U = 1, I = 1 and is pushed so; the countdown is overwritten (60_exceptions R272 to R274). -/
def interruptEntry (vector : Word) (countdown : Nat) (s : State) : State :=
  (enterTrap s.pc (interruptStatus s.p) (interruptStatus s.p) vector s).setCyc countdown

/-- `IrqRequest()`: nothing happens while P.I = 1 (60_exceptions R272). -/
def irqRequest (s : State) : State := if getFlag .I s.p then s else interruptEntry irqVector 7 s

/-- `NmiRequest()`: taken whatever P.I is (60_exceptions R273). -/
def nmiRequest (s : State) : State := interruptEntry nmiVector 8 s

/-! Loads and transfers. -/

/-- Put a byte into a register and set Z and N from it (41_load_store R160). -/
def putZN (put : State → Byte → State) (v : Byte) (s : State) : State := (put s v).mapP (setZN v)

end Sys2Proof.Machine
end

