-- ==== Sys2Proof/Machine/Operands.lean ====
section
/-! DEFINITION. The addressing-mode resolvers (40_dispatch R137 to R149), the operand helpers `ReadOperand` and `WriteBack`
(R136), and running an operation in its fetching clock (R130). The instruction's bytes have been read by the fetch when a
resolver runs, and PC is the address after the last of them (log 10). -/

namespace Sys2Proof

def AccOperand.operand : AccOperand → Operand
  | .imm i => .imm i
  | .zp0 z => .zp0 z
  | .zpx z => .zpx z
  | .abs w => .abs w
  | .abx w => .abx w
  | .aby w => .aby w
  | .izx z => .izx z
  | .izy z => .izy z

def StaOperand.operand : StaOperand → Operand
  | .zp0 z => .zp0 z
  | .zpx z => .zpx z
  | .abs w => .abs w
  | .abx w => .abx w
  | .aby w => .aby w
  | .izx z => .izx z
  | .izy z => .izy z

def LdxOperand.operand : LdxOperand → Operand
  | .imm i => .imm i
  | .zp0 z => .zp0 z
  | .zpy z => .zpy z
  | .abs w => .abs w
  | .aby w => .aby w

def LdyOperand.operand : LdyOperand → Operand
  | .imm i => .imm i
  | .zp0 z => .zp0 z
  | .zpx z => .zpx z
  | .abs w => .abs w
  | .abx w => .abx w

def StxOperand.operand : StxOperand → Operand
  | .zp0 z => .zp0 z
  | .zpy z => .zpy z
  | .abs w => .abs w

def StyOperand.operand : StyOperand → Operand
  | .zp0 z => .zp0 z
  | .zpx z => .zpx z
  | .abs w => .abs w

def CpOperand.operand : CpOperand → Operand
  | .imm i => .imm i
  | .zp0 z => .zp0 z
  | .abs w => .abs w

def BitOperand.operand : BitOperand → Operand
  | .zp0 z => .zp0 z
  | .abs w => .abs w

def IncOperand.operand : IncOperand → Operand
  | .zp0 z => .zp0 z
  | .zpx z => .zpx z
  | .abs w => .abs w
  | .abx w => .abx w

def ShiftOperand.operand : ShiftOperand → Operand
  | .acc => .acc
  | .zp0 z => .zp0 z
  | .zpx z => .zpx z
  | .abs w => .abs w
  | .abx w => .abx w

def JmpOperand.operand : JmpOperand → Operand
  | .abs w => .abs w
  | .ind w => .ind w

end Sys2Proof

namespace Sys2Proof.Machine

open Sys2Proof

/-- Index a base address and say whether that crosses a page (40_dispatch R145, R146, R149). -/
def indexed (base : Word) (index : Byte) (s : State) : Bool × State :=
  let ea := base + zext16 index
  (pageOf ea != pageOf base, s.setEa ea)

/-- The pointer read of the zero-page indirect modes: both bytes lie in page 0 (40_dispatch R148, R149; decision D20). -/
def zeroPagePointer (z : Byte) (s : State) : Word × State := memReadPair (zext16 z) (zext16 (z + 1#8)) s

/-- The address the indirect jump reads its high byte from: "a pointer ending in 0xFF reads its high byte from the *start* of the
same page" (40_dispatch R147). -/
def samePageNext (ptr : Word) : Word := (ptr &&& 0xFF00#16) ||| ((ptr + 1#16) &&& 0x00FF#16)

/-- `Resolve(mode)`: the page-cross signal, and the state with `ea` written and the pointer reads made (40_dispatch R137 to
R149). -/
def resolve : Operand → State → Bool × State
  | .imp, s => (false, s)
  | .acc, s => (false, s)
  | .imm _, s => (false, s.setEa (s.pc - 1#16))
  | .zp0 z, s => (false, s.setEa (zext16 z))
  | .zpx z, s => (false, s.setEa (zext16 (z + s.x)))
  | .zpy z, s => (false, s.setEa (zext16 (z + s.y)))
  | .rel d, s => (false, s.setEa (s.pc + sext16 d))
  | .abs w, s => (false, s.setEa w)
  | .abx w, s => indexed w s.x s
  | .aby w, s => indexed w s.y s
  | .ind ptr, s =>
    let target := memReadPair ptr (samePageNext ptr) s
    (false, target.2.setEa target.1)
  | .izx z, s =>
    let pointer := zeroPagePointer (z + s.x) s
    (false, pointer.2.setEa pointer.1)
  | .izy z, s =>
    let pointer := zeroPagePointer z s
    indexed pointer.1 pointer.2.y pointer.2

/-- `ReadOperand()` (40_dispatch R136). An immediate byte is the one the fetch read at `ea` (log 10). -/
def readOperand : Operand → State → Byte × State
  | .acc, s => (s.a, s)
  | .imm i, s => (i, s)
  | .imp, s | .zp0 _, s | .zpx _, s | .zpy _, s | .rel _, s | .abs _, s | .abx _, s | .aby _, s | .ind _, s
  | .izx _, s | .izy _, s => memRead s.ea s

/-- `WriteBack(v)` (40_dispatch R136). -/
def writeBack : Operand → Byte → State → State
  | .acc, v, s => s.setA v
  | .imp, v, s | .imm _, v, s | .zp0 _, v, s | .zpx _, v, s | .zpy _, v, s | .rel _, v, s | .abs _, v, s | .abx _, v, s
  | .aby _, v, s | .ind _, v, s | .izx _, v, s | .izy _, v, s => busWrite s.ea v s

/-- One instruction in its fetching clock, after its bytes are read: the countdown is the base count, the mode is resolved, the
operation has its effect, and the countdown grows by the AND of the two signals (40_dispatch R130, R134). `pageCross` is the
operation's extra-cycle signal `s2` (R135). -/
def runOp (base : Nat) (mode : Operand) (pageCross : Bool) (effect : State → State) (s : State) :
    Host.Outcome State Fault Refusal :=
  let r := resolve mode (s.setCyc base)
  let t := effect r.2
  .next (t.setCyc (t.cyc + (r.1 && pageCross).toNat))

/-- An operation that reads its operand and goes on with the byte read. -/
def withOperand (mode : Operand) (f : Byte → State → State) (s : State) : State :=
  let r := readOperand mode s
  f r.1 r.2

/-- A read-modify-write: one read, one write of the result at the same place, and Z and N from it. `f` gives the result and the
status with whatever other flag it writes (40_dispatch R133; 42_arith_logic R190; 43_shift_rotate R210). -/
def modifyOperand (mode : Operand) (f : Byte → Byte → Byte × Byte) (s : State) : State :=
  withOperand mode (fun v t =>
    let r := f v t.p
    (writeBack mode r.1 (t.setP r.2)).mapP (setZN r.1)) s

end Sys2Proof.Machine
end

