-- ==== Sys2Proof/Machine/ArithLogic.lean ====
section
/-! DEFINITION. Arithmetic, logic, compare, increment and decrement (42_arith_logic R180 to R196). -/

namespace Sys2Proof.Machine

open Sys2Proof

/-- The shared adder on the state: A and P from `AddWithCarry(m)` (rule R180). -/
def addToA (m : Byte) (s : State) : State :=
  let r := addWithCarry s.a m s.p
  (s.setP r.2).setA r.1

/-- ADC (rule R181). -/
def execAdc (m : AccOperand) (s : State) : Host.Outcome State Fault Refusal :=
  runOp m.cycles m.operand true (withOperand m.operand addToA) s

/-- SBC: the adder on the one's complement of the operand (rule R182). -/
def execSbc (m : AccOperand) (s : State) : Host.Outcome State Fault Refusal :=
  runOp m.cycles m.operand true (withOperand m.operand (fun v => addToA (v ^^^ 0xFF#8))) s

/-- AND (rule R183). -/
def execAnd (m : AccOperand) (s : State) : Host.Outcome State Fault Refusal :=
  runOp m.cycles m.operand true (withOperand m.operand (fun v t => putZN State.setA (t.a &&& v) t)) s

/-- ORA (rule R184). -/
def execOra (m : AccOperand) (s : State) : Host.Outcome State Fault Refusal :=
  runOp m.cycles m.operand true (withOperand m.operand (fun v t => putZN State.setA (t.a ||| v) t)) s

/-- EOR (rule R185). -/
def execEor (m : AccOperand) (s : State) : Host.Outcome State Fault Refusal :=
  runOp m.cycles m.operand true (withOperand m.operand (fun v t => putZN State.setA (t.a ^^^ v) t)) s

/-- BIT: A is not written (rule R186). -/
def execBit (m : BitOperand) (s : State) : Host.Outcome State Fault Refusal :=
  runOp m.cycles m.operand false (withOperand m.operand (fun v t => t.mapP (bitFlags t.a v))) s

/-- CMP (rule R187). -/
def execCmp (m : AccOperand) (s : State) : Host.Outcome State Fault Refusal :=
  runOp m.cycles m.operand true (withOperand m.operand (fun v t => t.mapP (compareFlags t.a v))) s

/-- CPX (rule R188). -/
def execCpx (m : CpOperand) (s : State) : Host.Outcome State Fault Refusal :=
  runOp m.cycles m.operand false (withOperand m.operand (fun v t => t.mapP (compareFlags t.x v))) s

/-- CPY (rule R189). -/
def execCpy (m : CpOperand) (s : State) : Host.Outcome State Fault Refusal :=
  runOp m.cycles m.operand false (withOperand m.operand (fun v t => t.mapP (compareFlags t.y v))) s

/-- INC (rule R190). -/
def execInc (m : IncOperand) (s : State) : Host.Outcome State Fault Refusal :=
  runOp m.cycles m.operand false (modifyOperand m.operand (fun v p => (v + 1#8, p))) s

/-- DEC (rule R191). -/
def execDec (m : IncOperand) (s : State) : Host.Outcome State Fault Refusal :=
  runOp m.cycles m.operand false (modifyOperand m.operand (fun v p => (v - 1#8, p))) s

/-- INX (rule R192). -/
def execInx (s : State) : Host.Outcome State Fault Refusal :=
  runOp 2 .imp false (fun t => putZN State.setX (t.x + 1#8) t) s

/-- INY (rule R193). -/
def execIny (s : State) : Host.Outcome State Fault Refusal :=
  runOp 2 .imp false (fun t => putZN State.setY (t.y + 1#8) t) s

/-- DEX (rule R194). -/
def execDex (s : State) : Host.Outcome State Fault Refusal :=
  runOp 2 .imp false (fun t => putZN State.setX (t.x - 1#8) t) s

/-- DEY (rule R195). -/
def execDey (s : State) : Host.Outcome State Fault Refusal :=
  runOp 2 .imp false (fun t => putZN State.setY (t.y - 1#8) t) s

end Sys2Proof.Machine
end

