-- ==== Sys2Proof/Machine/Control.lean ====
section
/-! DEFINITION. Branches, jumps, subroutines, BRK and RTI (44_control R220 to R234). -/

namespace Sys2Proof.Machine

open Sys2Proof

/-- `Branch(cond)`: a taken branch adds its cycles to the countdown itself, one more when the target's page is not that of the
address after the branch (rule R220, decision D4). -/
def branchIf (cond : Bool) (s : State) : State :=
  if cond then
    (s.setCyc (s.cyc + 1 + (pageOf s.ea != pageOf s.pc).toNat)).setPc s.ea
  else s

/-- BPL: taken when P.N = 0 (rule R221). -/
def execBpl (d : Byte) (s : State) : Host.Outcome State Fault Refusal :=
  runOp 2 (.rel d) false (fun t => branchIf (!getFlag .N t.p) t) s

/-- BMI: taken when P.N = 1 (rule R222). -/
def execBmi (d : Byte) (s : State) : Host.Outcome State Fault Refusal :=
  runOp 2 (.rel d) false (fun t => branchIf (getFlag .N t.p) t) s

/-- BVC: taken when P.V = 0 (rule R223). -/
def execBvc (d : Byte) (s : State) : Host.Outcome State Fault Refusal :=
  runOp 2 (.rel d) false (fun t => branchIf (!getFlag .V t.p) t) s

/-- BVS: taken when P.V = 1 (rule R224). -/
def execBvs (d : Byte) (s : State) : Host.Outcome State Fault Refusal :=
  runOp 2 (.rel d) false (fun t => branchIf (getFlag .V t.p) t) s

/-- BCC: taken when P.C = 0 (rule R225). -/
def execBcc (d : Byte) (s : State) : Host.Outcome State Fault Refusal :=
  runOp 2 (.rel d) false (fun t => branchIf (!getFlag .C t.p) t) s

/-- BCS: taken when P.C = 1 (rule R226). -/
def execBcs (d : Byte) (s : State) : Host.Outcome State Fault Refusal :=
  runOp 2 (.rel d) false (fun t => branchIf (getFlag .C t.p) t) s

/-- BNE: taken when P.Z = 0 (rule R227). -/
def execBne (d : Byte) (s : State) : Host.Outcome State Fault Refusal :=
  runOp 2 (.rel d) false (fun t => branchIf (!getFlag .Z t.p) t) s

/-- BEQ: taken when P.Z = 1 (rule R228). -/
def execBeq (d : Byte) (s : State) : Host.Outcome State Fault Refusal :=
  runOp 2 (.rel d) false (fun t => branchIf (getFlag .Z t.p) t) s

/-- JMP (rule R229). -/
def execJmp (m : JmpOperand) (s : State) : Host.Outcome State Fault Refusal :=
  runOp m.cycles m.operand false (fun t => t.setPc t.ea) s

/-- BRK: the padding byte is skipped unread; the pushed status has B = 1, U = 1 and the I from before; then I is 1 and PC is the
word at the IRQ/BRK vector (rule R230, decision D6). -/
def execBrk (s : State) : Host.Outcome State Fault Refusal :=
  runOp 7 .imp false (fun t => enterTrap (t.pc + 1#16) (pushedStatus t.p) (putFlag .I true t.p) irqVector t) s

/-- JSR: the pushed word is the address of its last byte (rule R231). -/
def execJsr (target : Word) (s : State) : Host.Outcome State Fault Refusal :=
  runOp 6 (.abs target) false (fun t => (pushWord (t.pc - 1#16) t).setPc t.ea) s

/-- RTS (rule R232). -/
def execRts (s : State) : Host.Outcome State Fault Refusal :=
  runOp 6 .imp false (fun t => let r := pullWord t; r.2.setPc (r.1 + 1#16)) s

/-- RTI (rule R233). -/
def execRti (s : State) : Host.Outcome State Fault Refusal :=
  runOp 6 .imp false returnFromTrap s

end Sys2Proof.Machine
end

