-- ==== Sys2Proof/Machine/LoadStore.lean ====
section
/-! DEFINITION. Loads, stores and register transfers (41_load_store R160 to R172). -/

namespace Sys2Proof.Machine

open Sys2Proof

/-- LDA (rule R161). -/
def execLda (m : AccOperand) (s : State) : Host.Outcome State Fault Refusal :=
  runOp m.cycles m.operand true (withOperand m.operand (putZN State.setA)) s

/-- LDX (rule R162). -/
def execLdx (m : LdxOperand) (s : State) : Host.Outcome State Fault Refusal :=
  runOp m.cycles m.operand true (withOperand m.operand (putZN State.setX)) s

/-- LDY (rule R163). -/
def execLdy (m : LdyOperand) (s : State) : Host.Outcome State Fault Refusal :=
  runOp m.cycles m.operand true (withOperand m.operand (putZN State.setY)) s

/-- STA: no data read and no flag (rule R164, decision D18). -/
def execSta (m : StaOperand) (s : State) : Host.Outcome State Fault Refusal :=
  runOp m.cycles m.operand false (fun t => busWrite t.ea t.a t) s

/-- STX (rule R165). -/
def execStx (m : StxOperand) (s : State) : Host.Outcome State Fault Refusal :=
  runOp m.cycles m.operand false (fun t => busWrite t.ea t.x t) s

/-- STY (rule R166). -/
def execSty (m : StyOperand) (s : State) : Host.Outcome State Fault Refusal :=
  runOp m.cycles m.operand false (fun t => busWrite t.ea t.y t) s

/-- TAX (rule R167). -/
def execTax (s : State) : Host.Outcome State Fault Refusal :=
  runOp 2 .imp false (fun t => putZN State.setX t.a t) s

/-- TAY (rule R168). -/
def execTay (s : State) : Host.Outcome State Fault Refusal :=
  runOp 2 .imp false (fun t => putZN State.setY t.a t) s

/-- TXA (rule R169). -/
def execTxa (s : State) : Host.Outcome State Fault Refusal :=
  runOp 2 .imp false (fun t => putZN State.setA t.x t) s

/-- TYA (rule R170). -/
def execTya (s : State) : Host.Outcome State Fault Refusal :=
  runOp 2 .imp false (fun t => putZN State.setA t.y t) s

/-- TSX (rule R171). -/
def execTsx (s : State) : Host.Outcome State Fault Refusal :=
  runOp 2 .imp false (fun t => putZN State.setX t.sp t) s

/-- TXS: no flag (rule R172, decision D18). -/
def execTxs (s : State) : Host.Outcome State Fault Refusal :=
  runOp 2 .imp false (fun t => t.setSp t.x) s

end Sys2Proof.Machine
end

