-- ==== Sys2Proof/Machine/ShiftRotate.lean ====
section
/-! DEFINITION. Shifts and rotates, on the accumulator or on memory (43_shift_rotate R210 to R214). -/

namespace Sys2Proof.Machine

open Sys2Proof

/-- ASL (rule R211). -/
def execAsl (m : ShiftOperand) (s : State) : Host.Outcome State Fault Refusal :=
  runOp m.cycles m.operand false (modifyOperand m.operand aslByte) s

/-- LSR (rule R212). -/
def execLsr (m : ShiftOperand) (s : State) : Host.Outcome State Fault Refusal :=
  runOp m.cycles m.operand false (modifyOperand m.operand lsrByte) s

/-- ROL (rule R213). -/
def execRol (m : ShiftOperand) (s : State) : Host.Outcome State Fault Refusal :=
  runOp m.cycles m.operand false (modifyOperand m.operand rolByte) s

/-- ROR (rule R214). -/
def execRor (m : ShiftOperand) (s : State) : Host.Outcome State Fault Refusal :=
  runOp m.cycles m.operand false (modifyOperand m.operand rorByte) s

end Sys2Proof.Machine
end

