-- ==== Sys2Proof/Machine/StackFlagMisc.lean ====
section
/-! DEFINITION. Stack, flag and miscellaneous instructions, and the undefined-opcode placeholder (45_stack_flag_misc R240 to R253). -/

namespace Sys2Proof.Machine

open Sys2Proof

/-- PHA (rule R240). -/
def execPha (s : State) : Host.Outcome State Fault Refusal :=
  runOp 3 .imp false (fun t => push t.a t) s

/-- PHP: the pushed copy has B = 1 and U = 1, the stored P is unchanged (rule R241). -/
def execPhp (s : State) : Host.Outcome State Fault Refusal :=
  runOp 3 .imp false (fun t => push (pushedStatus t.p) t) s

/-- PLA (rule R242). -/
def execPla (s : State) : Host.Outcome State Fault Refusal :=
  runOp 4 .imp false (fun t => let r := pull t; putZN State.setA r.1 r.2) s

/-- PLP: B is forced to 0 and U to 1 (rule R243). -/
def execPlp (s : State) : Host.Outcome State Fault Refusal :=
  runOp 4 .imp false (fun t => let r := pull t; r.2.setP (pulledStatus r.1)) s

/-- CLC (rule R244). -/
def execClc (s : State) : Host.Outcome State Fault Refusal :=
  runOp 2 .imp false (State.mapP (putFlag .C false)) s

/-- SEC (rule R245). -/
def execSec (s : State) : Host.Outcome State Fault Refusal :=
  runOp 2 .imp false (State.mapP (putFlag .C true)) s

/-- CLI (rule R246). -/
def execCli (s : State) : Host.Outcome State Fault Refusal :=
  runOp 2 .imp false (State.mapP (putFlag .I false)) s

/-- SEI (rule R247). -/
def execSei (s : State) : Host.Outcome State Fault Refusal :=
  runOp 2 .imp false (State.mapP (putFlag .I true)) s

/-- CLV (rule R248). -/
def execClv (s : State) : Host.Outcome State Fault Refusal :=
  runOp 2 .imp false (State.mapP (putFlag .V false)) s

/-- CLD (rule R249). -/
def execCld (s : State) : Host.Outcome State Fault Refusal :=
  runOp 2 .imp false (State.mapP (putFlag .D false)) s

/-- SED (rule R250). -/
def execSed (s : State) : Host.Outcome State Fault Refusal :=
  runOp 2 .imp false (State.mapP (putFlag .D true)) s

/-- NOP (rule R251). -/
def execNop (s : State) : Host.Outcome State Fault Refusal :=
  runOp 2 .imp false id s

/-- The placeholder of an undefined opcode: it takes UNDEF_CYCLES and skips the bytes of UNDEF_LEN after the opcode, unread (rule
R253, decision D5). -/
def execUndef (op : Byte) (s : State) : Host.Outcome State Fault Refusal :=
  runOp (undefCycles s.params op) .imp false (fun t => t.setPc (t.pc + BitVec.ofNat 16 (undefLen t.params op - 1))) s

end Sys2Proof.Machine
end

