-- ==== Sys2Proof/Syntax.lean ====
section
/-! DEFINITION. The instruction set: one constructor for each of the 57 mnemonics of spec/opcode_table.json (30_encoding R105 and
the placeholder UNDEF). A row of the table is a constructor at one operand form; an `undef` carries its opcode byte, so that
the 105 rows of UNDEF are 105 terms (log 11). -/

namespace Sys2Proof

inductive Instr where
  -- 41_load_store: loads, stores, transfers
  | lda (m : AccOperand)
  | ldx (m : LdxOperand)
  | ldy (m : LdyOperand)
  | sta (m : StaOperand)
  | stx (m : StxOperand)
  | sty (m : StyOperand)
  | tax
  | tay
  | txa
  | tya
  | tsx
  | txs
  -- 42_arith_logic
  | adc (m : AccOperand)
  | sbc (m : AccOperand)
  | and (m : AccOperand)
  | ora (m : AccOperand)
  | eor (m : AccOperand)
  | bit (m : BitOperand)
  | cmp (m : AccOperand)
  | cpx (m : CpOperand)
  | cpy (m : CpOperand)
  | inc (m : IncOperand)
  | dec (m : IncOperand)
  | inx
  | iny
  | dex
  | dey
  -- 43_shift_rotate
  | asl (m : ShiftOperand)
  | lsr (m : ShiftOperand)
  | rol (m : ShiftOperand)
  | ror (m : ShiftOperand)
  -- 44_control: the eight branches carry their displacement, JSR its target
  | bpl (d : Byte)
  | bmi (d : Byte)
  | bvc (d : Byte)
  | bvs (d : Byte)
  | bcc (d : Byte)
  | bcs (d : Byte)
  | bne (d : Byte)
  | beq (d : Byte)
  | jmp (m : JmpOperand)
  | brk
  | jsr (target : Word)
  | rts
  | rti
  -- 45_stack_flag_misc
  | pha
  | php
  | pla
  | plp
  | clc
  | sec
  | cli
  | sei
  | clv
  | cld
  | sed
  | nop
  | undef (op : Byte)
  deriving DecidableEq, Repr

end Sys2Proof
end

