-- ==== Sys2Proof/WellFormed.lean ====
section
/-! DEFINITION. Which terms of `Instr` some opcode byte stands for. The operand types of Syntax/Operand.lean leave one check: an
`undef` carries an undefined opcode byte. -/

namespace Sys2Proof

/-- The 105 undefined opcodes, in the order of the rows of 30_encoding R111. -/
def undefinedOpcodes : List Byte :=
  [0x02, 0x0B, 0x12, 0x1A, 0x22, 0x2B, 0x32, 0x3A, 0x42, 0x4B, 0x52, 0x5A, 0x62, 0x6B, 0x72, 0x7A] ++
  [0x80, 0x82, 0x89, 0x8B, 0x92, 0xAB, 0xB2, 0xC2, 0xCB, 0xD2, 0xDA, 0xE2, 0xEB, 0xF2, 0xFA] ++
  [0x04, 0x44, 0x64, 0x87, 0xA7] ++
  [0x0C, 0x14, 0x1C, 0x34, 0x3C, 0x54, 0x5C, 0x74, 0x7C, 0x8F, 0x97, 0xAF, 0xB7, 0xBB, 0xBF, 0xD4, 0xDC, 0xF4, 0xFC] ++
  [0x07, 0x27, 0x47, 0x67, 0x9B, 0x9C, 0x9E, 0x9F, 0xB3, 0xC7, 0xE7] ++
  [0x0F, 0x17, 0x2F, 0x37, 0x4F, 0x57, 0x6F, 0x77, 0x83, 0x93, 0xA3, 0xCF, 0xD7, 0xEF, 0xF7] ++
  [0x1B, 0x1F, 0x3B, 0x3F, 0x5B, 0x5F, 0x7B, 0x7F, 0xDB, 0xDF, 0xFB, 0xFF] ++
  [0x03, 0x13, 0x23, 0x33, 0x43, 0x53, 0x63, 0x73, 0xC3, 0xD3, 0xE3, 0xF3]

/-- An instruction is well formed when the opcode map has a cell for it (30_encoding R104, R107). -/
def Instr.wf : Instr → Bool
  | .lda _ | .ldx _ | .ldy _ | .sta _ | .stx _ | .sty _ => true
  | .tax | .tay | .txa | .tya | .tsx | .txs => true
  | .adc _ | .sbc _ | .and _ | .ora _ | .eor _ | .bit _ | .cmp _ | .cpx _ | .cpy _ | .inc _ | .dec _ => true
  | .inx | .iny | .dex | .dey => true
  | .asl _ | .lsr _ | .rol _ | .ror _ => true
  | .bpl _ | .bmi _ | .bvc _ | .bvs _ | .bcc _ | .bcs _ | .bne _ | .beq _ => true
  | .jmp _ | .brk | .jsr _ | .rts | .rti => true
  | .pha | .php | .pla | .plp | .clc | .sec | .cli | .sei | .clv | .cld | .sed | .nop => true
  | .undef op => undefinedOpcodes.contains op

end Sys2Proof
end

