-- ==== Sys2Proof/Decode.lean ====
section
/-! DEFINITION. The decoder, from the opcode map of 30_encoding R104, and the encoder, from the "Opcodes:" lines of the rules of
files 41 to 45 and the byte orders of 30_encoding R101. Decoding looks at the opcode byte alone (30_encoding R100, R109) and
then at the operand bytes the processor reads: BRK's padding byte and the skipped bytes of an undefined opcode are not read
(44_control R230, 45_stack_flag_misc R253; log 13, log 14). -/

namespace Sys2Proof

open Sys2Proof.Machine (joinBytes hiByte loByte)

/-- What an opcode byte says of the rest of the instruction: no operand byte, one, or two with the low byte first, or a cell
marked `--` in the opcode map (30_encoding R101, R104). -/
inductive Form where
  | implied (i : Instr)
  | byte (f : Byte → Instr)
  | word (f : Word → Instr)
  | undefined

/-- Why a list of bytes is not an instruction: it ends too early. No opcode byte is rejected (30_encoding R107). -/
inductive DecodeError where
  | noOpcode
  | missingOperand (opcode : Byte)
  deriving DecidableEq, Repr

/-- Row 0x of the opcode map. -/
def opcodeRow0 : List Form :=
  [ .implied .brk, .byte (.ora <| .izx ·), .undefined, .undefined,
    .undefined, .byte (.ora <| .zp0 ·), .byte (.asl <| .zp0 ·), .undefined,
    .implied .php, .byte (.ora <| .imm ·), .implied (.asl .acc), .undefined,
    .undefined, .word (.ora <| .abs ·), .word (.asl <| .abs ·), .undefined ]

/-- Row 1x of the opcode map. -/
def opcodeRow1 : List Form :=
  [ .byte .bpl, .byte (.ora <| .izy ·), .undefined, .undefined,
    .undefined, .byte (.ora <| .zpx ·), .byte (.asl <| .zpx ·), .undefined,
    .implied .clc, .word (.ora <| .aby ·), .undefined, .undefined,
    .undefined, .word (.ora <| .abx ·), .word (.asl <| .abx ·), .undefined ]

/-- Row 2x of the opcode map. -/
def opcodeRow2 : List Form :=
  [ .word .jsr, .byte (.and <| .izx ·), .undefined, .undefined,
    .byte (.bit <| .zp0 ·), .byte (.and <| .zp0 ·), .byte (.rol <| .zp0 ·), .undefined,
    .implied .plp, .byte (.and <| .imm ·), .implied (.rol .acc), .undefined,
    .word (.bit <| .abs ·), .word (.and <| .abs ·), .word (.rol <| .abs ·), .undefined ]

/-- Row 3x of the opcode map. -/
def opcodeRow3 : List Form :=
  [ .byte .bmi, .byte (.and <| .izy ·), .undefined, .undefined,
    .undefined, .byte (.and <| .zpx ·), .byte (.rol <| .zpx ·), .undefined,
    .implied .sec, .word (.and <| .aby ·), .undefined, .undefined,
    .undefined, .word (.and <| .abx ·), .word (.rol <| .abx ·), .undefined ]

/-- Row 4x of the opcode map. -/
def opcodeRow4 : List Form :=
  [ .implied .rti, .byte (.eor <| .izx ·), .undefined, .undefined,
    .undefined, .byte (.eor <| .zp0 ·), .byte (.lsr <| .zp0 ·), .undefined,
    .implied .pha, .byte (.eor <| .imm ·), .implied (.lsr .acc), .undefined,
    .word (.jmp <| .abs ·), .word (.eor <| .abs ·), .word (.lsr <| .abs ·), .undefined ]

/-- Row 5x of the opcode map. -/
def opcodeRow5 : List Form :=
  [ .byte .bvc, .byte (.eor <| .izy ·), .undefined, .undefined,
    .undefined, .byte (.eor <| .zpx ·), .byte (.lsr <| .zpx ·), .undefined,
    .implied .cli, .word (.eor <| .aby ·), .undefined, .undefined,
    .undefined, .word (.eor <| .abx ·), .word (.lsr <| .abx ·), .undefined ]

/-- Row 6x of the opcode map. -/
def opcodeRow6 : List Form :=
  [ .implied .rts, .byte (.adc <| .izx ·), .undefined, .undefined,
    .undefined, .byte (.adc <| .zp0 ·), .byte (.ror <| .zp0 ·), .undefined,
    .implied .pla, .byte (.adc <| .imm ·), .implied (.ror .acc), .undefined,
    .word (.jmp <| .ind ·), .word (.adc <| .abs ·), .word (.ror <| .abs ·), .undefined ]

/-- Row 7x of the opcode map. -/
def opcodeRow7 : List Form :=
  [ .byte .bvs, .byte (.adc <| .izy ·), .undefined, .undefined,
    .undefined, .byte (.adc <| .zpx ·), .byte (.ror <| .zpx ·), .undefined,
    .implied .sei, .word (.adc <| .aby ·), .undefined, .undefined,
    .undefined, .word (.adc <| .abx ·), .word (.ror <| .abx ·), .undefined ]

/-- Row 8x of the opcode map. -/
def opcodeRow8 : List Form :=
  [ .undefined, .byte (.sta <| .izx ·), .undefined, .undefined,
    .byte (.sty <| .zp0 ·), .byte (.sta <| .zp0 ·), .byte (.stx <| .zp0 ·), .undefined,
    .implied .dey, .undefined, .implied .txa, .undefined,
    .word (.sty <| .abs ·), .word (.sta <| .abs ·), .word (.stx <| .abs ·), .undefined ]

/-- Row 9x of the opcode map. -/
def opcodeRow9 : List Form :=
  [ .byte .bcc, .byte (.sta <| .izy ·), .undefined, .undefined,
    .byte (.sty <| .zpx ·), .byte (.sta <| .zpx ·), .byte (.stx <| .zpy ·), .undefined,
    .implied .tya, .word (.sta <| .aby ·), .implied .txs, .undefined,
    .undefined, .word (.sta <| .abx ·), .undefined, .undefined ]

/-- Row Ax of the opcode map. -/
def opcodeRowA : List Form :=
  [ .byte (.ldy <| .imm ·), .byte (.lda <| .izx ·), .byte (.ldx <| .imm ·), .undefined,
    .byte (.ldy <| .zp0 ·), .byte (.lda <| .zp0 ·), .byte (.ldx <| .zp0 ·), .undefined,
    .implied .tay, .byte (.lda <| .imm ·), .implied .tax, .undefined,
    .word (.ldy <| .abs ·), .word (.lda <| .abs ·), .word (.ldx <| .abs ·), .undefined ]

/-- Row Bx of the opcode map. -/
def opcodeRowB : List Form :=
  [ .byte .bcs, .byte (.lda <| .izy ·), .undefined, .undefined,
    .byte (.ldy <| .zpx ·), .byte (.lda <| .zpx ·), .byte (.ldx <| .zpy ·), .undefined,
    .implied .clv, .word (.lda <| .aby ·), .implied .tsx, .undefined,
    .word (.ldy <| .abx ·), .word (.lda <| .abx ·), .word (.ldx <| .aby ·), .undefined ]

/-- Row Cx of the opcode map. -/
def opcodeRowC : List Form :=
  [ .byte (.cpy <| .imm ·), .byte (.cmp <| .izx ·), .undefined, .undefined,
    .byte (.cpy <| .zp0 ·), .byte (.cmp <| .zp0 ·), .byte (.dec <| .zp0 ·), .undefined,
    .implied .iny, .byte (.cmp <| .imm ·), .implied .dex, .undefined,
    .word (.cpy <| .abs ·), .word (.cmp <| .abs ·), .word (.dec <| .abs ·), .undefined ]

/-- Row Dx of the opcode map. -/
def opcodeRowD : List Form :=
  [ .byte .bne, .byte (.cmp <| .izy ·), .undefined, .undefined,
    .undefined, .byte (.cmp <| .zpx ·), .byte (.dec <| .zpx ·), .undefined,
    .implied .cld, .word (.cmp <| .aby ·), .undefined, .undefined,
    .undefined, .word (.cmp <| .abx ·), .word (.dec <| .abx ·), .undefined ]

/-- Row Ex of the opcode map. -/
def opcodeRowE : List Form :=
  [ .byte (.cpx <| .imm ·), .byte (.sbc <| .izx ·), .undefined, .undefined,
    .byte (.cpx <| .zp0 ·), .byte (.sbc <| .zp0 ·), .byte (.inc <| .zp0 ·), .undefined,
    .implied .inx, .byte (.sbc <| .imm ·), .implied .nop, .undefined,
    .word (.cpx <| .abs ·), .word (.sbc <| .abs ·), .word (.inc <| .abs ·), .undefined ]

/-- Row Fx of the opcode map. -/
def opcodeRowF : List Form :=
  [ .byte .beq, .byte (.sbc <| .izy ·), .undefined, .undefined,
    .undefined, .byte (.sbc <| .zpx ·), .byte (.inc <| .zpx ·), .undefined,
    .implied .sed, .word (.sbc <| .aby ·), .undefined, .undefined,
    .undefined, .word (.sbc <| .abx ·), .word (.inc <| .abx ·), .undefined ]

/-- The opcode map, row after row (30_encoding R104): "fully total — every byte value 0x00–0xFF maps to *some* entry". -/
def opcodeMap : List Form :=
  opcodeRow0 ++ opcodeRow1 ++ opcodeRow2 ++ opcodeRow3 ++ opcodeRow4 ++ opcodeRow5 ++ opcodeRow6 ++ opcodeRow7 ++
  opcodeRow8 ++ opcodeRow9 ++ opcodeRowA ++ opcodeRowB ++ opcodeRowC ++ opcodeRowD ++ opcodeRowE ++ opcodeRowF

/-- The cell of the opcode map for an opcode byte (30_encoding R104). -/
def formOf (op : Byte) : Form := opcodeMap.getD op.toNat .undefined

/-- How many operand bytes the processor reads after the opcode byte (30_encoding R100, R101). -/
def operandBytes (op : Byte) : Nat :=
  match formOf op with
  | .implied _ => 0
  | .byte _ => 1
  | .word _ => 2
  | .undefined => 0

/-- The instruction that begins a list of bytes; what follows it in the list is ignored. -/
def decode : List Byte → Except DecodeError Instr
  | [] => .error .noOpcode
  | op :: rest =>
    match formOf op, rest with
    | .implied i, _ => .ok i
    | .undefined, _ => .ok (.undef op)
    | .byte f, b :: _ => .ok (f b)
    | .byte _, [] => .error (.missingOperand op)
    | .word f, l :: h :: _ => .ok (f (joinBytes h l))
    | .word _, _ => .error (.missingOperand op)

/-- The three bytes of a table word in the order of their addresses: an instruction's first byte is bits 7..0 of `w`, and the
bits above `nbits` are 0. No instruction has more than three bytes (30_encoding R101). -/
def tableBytes (nbits w : Nat) : List Byte :=
  let v := w % 2 ^ nbits
  [BitVec.ofNat 8 v, BitVec.ofNat 8 (v / 256), BitVec.ofNat 8 (v / 65536)]

/-- The instruction the decoder reads from a row's word as spec/opcode_table.json numbers its bits. -/
def decodeTableWord (nbits w : Nat) : Option Instr :=
  match decode (tableBytes nbits w) with
  | .ok i => some i
  | .error _ => none

/-- An opcode byte and a word operand, low byte first (30_encoding R101). -/
def wordForm (op : Byte) (w : Word) : List Byte := [op, loByte w, hiByte w]

def AccOperand.encode (op_imm op_zp0 op_zpx op_abs op_abx op_aby op_izx op_izy : Byte) : AccOperand → List Byte
  | .imm i => [op_imm, i]
  | .zp0 z => [op_zp0, z]
  | .zpx z => [op_zpx, z]
  | .abs w => wordForm op_abs w
  | .abx w => wordForm op_abx w
  | .aby w => wordForm op_aby w
  | .izx z => [op_izx, z]
  | .izy z => [op_izy, z]

def StaOperand.encode (op_zp0 op_zpx op_abs op_abx op_aby op_izx op_izy : Byte) : StaOperand → List Byte
  | .zp0 z => [op_zp0, z]
  | .zpx z => [op_zpx, z]
  | .abs w => wordForm op_abs w
  | .abx w => wordForm op_abx w
  | .aby w => wordForm op_aby w
  | .izx z => [op_izx, z]
  | .izy z => [op_izy, z]

def LdxOperand.encode (op_imm op_zp0 op_zpy op_abs op_aby : Byte) : LdxOperand → List Byte
  | .imm i => [op_imm, i]
  | .zp0 z => [op_zp0, z]
  | .zpy z => [op_zpy, z]
  | .abs w => wordForm op_abs w
  | .aby w => wordForm op_aby w

def LdyOperand.encode (op_imm op_zp0 op_zpx op_abs op_abx : Byte) : LdyOperand → List Byte
  | .imm i => [op_imm, i]
  | .zp0 z => [op_zp0, z]
  | .zpx z => [op_zpx, z]
  | .abs w => wordForm op_abs w
  | .abx w => wordForm op_abx w

def StxOperand.encode (op_zp0 op_zpy op_abs : Byte) : StxOperand → List Byte
  | .zp0 z => [op_zp0, z]
  | .zpy z => [op_zpy, z]
  | .abs w => wordForm op_abs w

def StyOperand.encode (op_zp0 op_zpx op_abs : Byte) : StyOperand → List Byte
  | .zp0 z => [op_zp0, z]
  | .zpx z => [op_zpx, z]
  | .abs w => wordForm op_abs w

def CpOperand.encode (op_imm op_zp0 op_abs : Byte) : CpOperand → List Byte
  | .imm i => [op_imm, i]
  | .zp0 z => [op_zp0, z]
  | .abs w => wordForm op_abs w

def BitOperand.encode (op_zp0 op_abs : Byte) : BitOperand → List Byte
  | .zp0 z => [op_zp0, z]
  | .abs w => wordForm op_abs w

def IncOperand.encode (op_zp0 op_zpx op_abs op_abx : Byte) : IncOperand → List Byte
  | .zp0 z => [op_zp0, z]
  | .zpx z => [op_zpx, z]
  | .abs w => wordForm op_abs w
  | .abx w => wordForm op_abx w

def ShiftOperand.encode (op_acc op_zp0 op_zpx op_abs op_abx : Byte) : ShiftOperand → List Byte
  | .acc => [op_acc]
  | .zp0 z => [op_zp0, z]
  | .zpx z => [op_zpx, z]
  | .abs w => wordForm op_abs w
  | .abx w => wordForm op_abx w

def JmpOperand.encode (op_abs op_ind : Byte) : JmpOperand → List Byte
  | .abs w => wordForm op_abs w
  | .ind w => wordForm op_ind w

/-- The bytes of an instruction, with the opcode bytes of the "Opcodes:" line of its rule. BRK is written with the padding byte
0x00 of 30_encoding R110 (log 13); an undefined opcode is written as its opcode byte (log 14). -/
def encode : Instr → List Byte
  | .lda m => m.encode 0xA9 0xA5 0xB5 0xAD 0xBD 0xB9 0xA1 0xB1
  | .ldx m => m.encode 0xA2 0xA6 0xB6 0xAE 0xBE
  | .ldy m => m.encode 0xA0 0xA4 0xB4 0xAC 0xBC
  | .sta m => m.encode 0x85 0x95 0x8D 0x9D 0x99 0x81 0x91
  | .stx m => m.encode 0x86 0x96 0x8E
  | .sty m => m.encode 0x84 0x94 0x8C
  | .tax => [0xAA]
  | .tay => [0xA8]
  | .txa => [0x8A]
  | .tya => [0x98]
  | .tsx => [0xBA]
  | .txs => [0x9A]
  | .adc m => m.encode 0x69 0x65 0x75 0x6D 0x7D 0x79 0x61 0x71
  | .sbc m => m.encode 0xE9 0xE5 0xF5 0xED 0xFD 0xF9 0xE1 0xF1
  | .and m => m.encode 0x29 0x25 0x35 0x2D 0x3D 0x39 0x21 0x31
  | .ora m => m.encode 0x09 0x05 0x15 0x0D 0x1D 0x19 0x01 0x11
  | .eor m => m.encode 0x49 0x45 0x55 0x4D 0x5D 0x59 0x41 0x51
  | .bit m => m.encode 0x24 0x2C
  | .cmp m => m.encode 0xC9 0xC5 0xD5 0xCD 0xDD 0xD9 0xC1 0xD1
  | .cpx m => m.encode 0xE0 0xE4 0xEC
  | .cpy m => m.encode 0xC0 0xC4 0xCC
  | .inc m => m.encode 0xE6 0xF6 0xEE 0xFE
  | .dec m => m.encode 0xC6 0xD6 0xCE 0xDE
  | .inx => [0xE8]
  | .iny => [0xC8]
  | .dex => [0xCA]
  | .dey => [0x88]
  | .asl m => m.encode 0x0A 0x06 0x16 0x0E 0x1E
  | .lsr m => m.encode 0x4A 0x46 0x56 0x4E 0x5E
  | .rol m => m.encode 0x2A 0x26 0x36 0x2E 0x3E
  | .ror m => m.encode 0x6A 0x66 0x76 0x6E 0x7E
  | .bpl d => [0x10, d]
  | .bmi d => [0x30, d]
  | .bvc d => [0x50, d]
  | .bvs d => [0x70, d]
  | .bcc d => [0x90, d]
  | .bcs d => [0xB0, d]
  | .bne d => [0xD0, d]
  | .beq d => [0xF0, d]
  | .jmp m => m.encode 0x4C 0x6C
  | .brk => [0x00, 0x00]
  | .jsr target => wordForm 0x20 target
  | .rts => [0x60]
  | .rti => [0x40]
  | .pha => [0x48]
  | .php => [0x08]
  | .pla => [0x68]
  | .plp => [0x28]
  | .clc => [0x18]
  | .sec => [0x38]
  | .cli => [0x58]
  | .sei => [0x78]
  | .clv => [0xB8]
  | .cld => [0xD8]
  | .sed => [0xF8]
  | .nop => [0xEA]
  | .undef op => [op]

end Sys2Proof
end

