-- ==== Sys2Proof/Machine/Fetch.lean ====
section
/-! DEFINITION. Fetching an instruction: its bytes are ordinary processor reads at PC, each advancing PC (40_dispatch R130, R133;
20_memory R93). The operand bytes are read right after the opcode, which is the order of R133; the byte of an immediate is read
here too, since nothing comes between the opcode read and it (log 10). -/

namespace Sys2Proof.Machine

open Sys2Proof

/-- `MemRead(PC, 1); PC <- PC + 1`. -/
def fetchByte (s : State) : Byte × State :=
  let r := memRead s.pc s
  (r.1, r.2.setPc (r.2.pc + 1#16))

/-- The instruction at PC, and the state after its bytes are read: `opcode` holds its first byte and PC is past the last byte
read. -/
def fetch (s : State) : Instr × State :=
  let op := fetchByte s
  let t := op.2.setOpcode op.1
  match formOf op.1 with
  | .implied i => (i, t)
  | .undefined => (.undef op.1, t)
  | .byte f =>
    let b := fetchByte t
    (f b.1, b.2)
  | .word f =>
    let l := fetchByte t
    let h := fetchByte l.2
    (f (joinBytes h.1 l.1), h.2)

/-- The byte that storage holds at an address, without a bus transaction: RAM, program memory, or the 0 of an unmapped address;
`none` for a picture-unit port (20_memory R66). -/
def State.byteAt (s : State) (addr : Word) : Option Byte :=
  if addr ≤ 0x1FFF#16 then some (s.ram.read (addr &&& 0x07FF#16).toNat)
  else if addr ≤ 0x3FFF#16 then none
  else
    match s.cart with
    | some c => some (c.cpuRead addr)
    | none => some 0x00#8

/-- Whether a byte written at an address is kept there: RAM, or program memory within its length (20_memory R61, R71). -/
def State.keepsByte (s : State) (addr : Word) : Bool :=
  if addr ≤ 0x1FFF#16 then true
  else if addr ≤ 0x3FFF#16 then false
  else
    match s.cart with
    | none => false
    | some c =>
      match c.mapCpu addr with
      | none => false
      | some o => decide (o < c.prgSize)

/-- Store bytes at an address and the addresses after it. -/
def storeBytes : Word → List Byte → State → State
  | _, [], s => s
  | addr, b :: rest, s => storeBytes (addr + 1#16) rest (busWrite addr b s)

end Sys2Proof.Machine
end

