-- ==== Sys2Proof/Machine/Clock.lean ====
section
/-! DEFINITION. The processor clock, the picture-unit clock and the bus clock that interleaves them (40_dispatch R130; 60_exceptions
R280, R290). -/

namespace Sys2Proof.Machine

open Sys2Proof

/-- Go on after a next state; a fault or a refusal stays. -/
def onNext (f : State → State) : Host.Outcome State Fault Refusal → Host.Outcome State Fault Refusal
  | .next s => .next (f s)
  | .fault r => .fault r
  | .refused r => .refused r

/-- `cyc <- cyc - 1; clock_count <- clock_count + 1`, "every call, whether or not a fetch happened" (40_dispatch R130). -/
def countDown (s : State) : State := (s.setCyc (s.cyc - 1)).setClockCount (s.clockCount + 1)

/-- `CpuClock()` (40_dispatch R130). -/
def cpuClock (s : State) : Host.Outcome State Fault Refusal :=
  if s.cyc = 0 then
    let f := fetch s
    onNext countDown (exec f.1 f.2)
  else .next (countDown s)

/-- `PpuClock()` (60_exceptions R290, decision D26). -/
def ppuClock (s : State) : State :=
  if s.ppuCycle + 1 = 341 then
    let t := s.setPpuCycle 0
    if s.ppuScanline + 1 = 261 then (t.setPpuScanline (-1)).setFrameComplete true
    else t.setPpuScanline (s.ppuScanline + 1)
  else s.setPpuCycle (s.ppuCycle + 1)

/-- `bus_ctr <- (bus_ctr + 1) mod 3`. -/
def advanceBusCtr (s : State) : State := s.setBusCtr (s.busCtr + 1)

/-- `BusClock()`: the picture unit ticks first; the processor ticks when the ratio counter is at CPU_PHASE (60_exceptions R280,
R281). -/
def busClock (s : State) : Host.Outcome State Fault Refusal :=
  let t := ppuClock s
  onNext advanceBusCtr (if t.busCtr = t.params.cpuPhase then cpuClock t else .next t)

/-- `CpuReset()` (70_reset R310). -/
def cpuReset (s : State) : State :=
  let vector := memRead16 resetVector s
  { vector.2 with
    pc := vector.1, a := 0x00#8, x := 0x00#8, y := 0x00#8, sp := 0xFD#8, p := s.params.pReset, opcode := 0x00#8, ea := 0x0000#16,
    clockCount := 0, cyc := 8 }

/-- `PpuReset()`: the vertical-blank flag is a draw (70_reset R311; log 4). -/
def ppuReset (s : State) : State :=
  { s with
    ppuCycle := s.params.ppuResetCycle, ppuScanline := s.params.ppuResetScanline, frameComplete := false,
    vblank := Config.vblankInit s.draws, draws := s.draws + 1 }

/-- `bus.reset()`: both resets and a zero ratio counter (70_reset R312). -/
def busReset (s : State) : State := ((ppuReset (cpuReset s)).setBusCtr 0).setHasReset true

end Sys2Proof.Machine
end

