-- ==== Sys2Proof/Machine/Step.lean ====
section
/-! DEFINITION. One step of the machine is one bus clock, the unit of time of the spec (00_scope R3; log 1), refused before the first
bus reset (70_reset R313; log 8). -/

namespace Sys2Proof.Machine

open Sys2Proof

def step (s : State) : Host.Outcome State Fault Refusal :=
  if s.hasReset then busClock s else .refused .beforeFirstReset

/-- `s` with an instruction where the next step fetches and runs it: an instruction boundary (`cyc` 0) at a bus clock that ticks
the processor, and the instruction's three bytes stored at PC. Where the bytes at PC are not all storage (ports, unmapped
addresses, no cartridge), PC is moved to 0x0000, which is RAM (log 2). -/
def State.withFetchWord (s : State) (nbits w : Nat) : State :=
  let t := ((s.setCyc 0).setBusCtr s.params.cpuPhase).setHasReset true
  let stored := t.keepsByte t.pc && t.keepsByte (t.pc + 1#16) && t.keepsByte (t.pc + 2#16)
  let u := if stored then t else t.setPc 0x0000#16
  storeBytes u.pc (tableBytes nbits w) u

end Sys2Proof.Machine
end

