-- ==== Sys2Proof/Machine/HostActions.lean ====
section
/-! DEFINITION. What the host can do between two bus clocks (00_scope R15; 60_exceptions R300, R301). A run of the system is a list of
host actions, of which `busClock` is a step (log 16). -/

namespace Sys2Proof.Machine

open Sys2Proof

/-- The rows of the table of 60_exceptions R300. -/
inductive HostAction where
  | insertCartridge (c : Cartridge)
  | busReset
  | busClock
  | irq
  | nmi
  | busRead (addr : Word) (ro : Bool)
  | busWrite (addr : Word) (v : Byte)
  | clearFrameComplete
  | cpuReset
  | cpuClock
  deriving DecidableEq, Repr

/-- `insert_cartridge(c)`: `c` must be valid with mapper 0 (20_memory R82 to R84, decision D13). -/
def insertCartridge (c : Cartridge) (s : State) : Host.Outcome State Fault Refusal :=
  if c.valid = false then .refused .invalidCartridge
  else if c.mapperId ≠ 0#8 then .refused (.unsupportedMapper c.mapperId)
  else .next (s.setCart (some c))

/-- An action that needs the first bus reset behind it (70_reset R313). -/
def afterReset (s : State) (o : Host.Outcome State Fault Refusal) : Host.Outcome State Fault Refusal :=
  if s.hasReset then o else .refused .beforeFirstReset

/-- The effect of a host action on the state (60_exceptions R300). The byte a `busRead` returns is `(busRead addr ro s).1`. -/
def hostAction (action : HostAction) (s : State) : Host.Outcome State Fault Refusal :=
  match action with
  | .insertCartridge c => insertCartridge c s
  | .busReset => if paramsLegal s.params then .next (busReset s) else .refused .illegalParameter
  | .busClock => step s
  | .irq => afterReset s (.next (irqRequest s))
  | .nmi => afterReset s (.next (nmiRequest s))
  | .busRead addr ro => .next (busRead addr ro s).2
  | .busWrite addr v => .next (busWrite addr v s)
  | .clearFrameComplete => .next (s.setFrameComplete false)
  | .cpuReset => .next (cpuReset s)
  | .cpuClock => afterReset s (cpuClock s)

/-- A list of host actions in call order (60_exceptions R275, decision D21), up to the first that is refused. -/
def runActions : List HostAction → State → Host.Outcome State Fault Refusal
  | [], s => .next s
  | action :: rest, s =>
    match hostAction action s with
    | .next t => runActions rest t
    | .fault r => .fault r
    | .refused r => .refused r

end Sys2Proof.Machine
end

