-- ==== Sys2Proof/Safety.lean ====
section
/-! DEFINITION. The terms the claims are stated in: the physical location of an address, which flags a status change keeps, what
an operand reads, and the invariants of a run. -/

namespace Sys2Proof.Machine

open Sys2Proof

/-- The physical location behind an address: "the RAM byte, the `prg` or `chr` byte, or the port" (20_memory R90), or nothing. -/
inductive Place where
  | ram (offset : Nat)
  | port (number : BitVec 3)
  | prg (offset : Nat)
  | unmapped
  deriving DecidableEq, Repr

/-- The physical location of a processor-side address (20_memory R66). -/
def State.place (s : State) (addr : Word) : Place :=
  if addr < 0x2000#16 then .ram (addr.toNat % 2048)
  else if addr < 0x4000#16 then .port (BitVec.ofNat 3 addr.toNat)
  else
    match s.cart with
    | none => .unmapped
    | some c =>
      let offset := if c.prgBanks = 1#8 then addr.toNat % 16384 else addr.toNat % 32768
      if addr < 0x8000#16 then .unmapped else if offset < c.prgBanks.toNat * 16384 then .prg offset else .unmapped

/-- A location that keeps a byte written to it. -/
def Place.keeps : Place → Bool
  | .ram _ | .prg _ => true
  | .port _ | .unmapped => false

/-- An address in the picture-unit port window (20_memory R64). -/
def isPort (addr : Word) : Bool := decide (0x2000#16 ≤ addr) && decide (addr ≤ 0x3FFF#16)

/-- Every flag outside `written` has the same value in both status bytes (10_state R27). -/
def FlagsKept (written : List Flag) (before after : Byte) : Prop :=
  ∀ f, f ∉ written → getFlag f after = getFlag f before

/-- Z and N as `setZN` leaves them for a result (00_scope R10). -/
def ZNOf (v p : Byte) : Prop := getFlag .Z p = decide (v = 0#8) ∧ getFlag .N p = v.msb

/-- The effective address of a mode (40_dispatch R137 to R149). -/
def operandAddr (mode : Operand) (s : State) : Word := (resolve mode s).2.ea

/-- The page-cross signal of a mode (40_dispatch R134). -/
def pageCrossed (mode : Operand) (s : State) : Bool := (resolve mode s).1

/-- The byte an operation reads as its operand, and the state after the mode's pointer reads and that read (40_dispatch R136). -/
def operandRead (mode : Operand) (s : State) : Byte × State := readOperand mode (resolve mode s).2

/-- The state of an instruction that has read its operand and done nothing else: `ea` holds the effective address, and the traces of
port reads are those of the mode's pointer reads and the operand read; every other field is as before. -/
def State.afterRead (s : State) (mode : Operand) : State :=
  { s with
    ea := operandAddr mode s, vblank := (operandRead mode s).2.vblank, draws := (operandRead mode s).2.draws }

/-- A cartridge the host may insert, with its memories in canonical form (20_memory R82, R83). -/
def Cartridge.wf (c : Cartridge) : Bool :=
  c.valid && decide (c.mapperId = 0#8) && Memory.wf c.prgSize c.prg && Memory.wf c.chrSize c.chr

/-- RAM, and the cartridge's memories if there is one, are in canonical form. -/
def State.memoriesWf (s : State) : Bool := Memory.wf 2048 s.ram && s.cart.all Cartridge.wf

/-- Every byte of storage reads as before. -/
def KeepsMemory (s t : State) : Prop := ∀ b, t.byteAt b = s.byteAt b

/-- From `s` to `t` the byte `v` was stored at `ea`, in the location of that address if it keeps bytes, and every byte of storage at
another location reads as before. The memories of `s` are taken to be canonical, which every step keeps. -/
def StoresOnly (ea : Word) (v : Byte) (s t : State) : Prop :=
  s.memoriesWf = true →
    (∀ b, s.place b = s.place ea → (s.place ea).keeps = true → t.byteAt b = some v) ∧
    (∀ b, s.place b ≠ s.place ea → t.byteAt b = s.byteAt b) ∧
    ((s.place ea).keeps = false → ∀ b, t.byteAt b = s.byteAt b)

/-- The RAM offset of the stack byte that a stack pointer designates (20_memory R68). -/
def stackOffset (sp : Byte) : Nat := 256 + sp.toNat

/-- From `s` to `t`, every byte of storage reads as before except the RAM bytes at the given offsets. -/
def KeepsMemoryBut (offsets : List Nat) (s t : State) : Prop :=
  s.memoriesWf = true → ∀ b, (∀ o ∈ offsets, s.place b ≠ .ram o) → t.byteAt b = s.byteAt b

/-- The base cycle counts of the opcode map, row by row, with the default UNDEF_CYCLES (30_encoding R104). -/
def baseCycleTable : List Nat :=
  [7, 6, 2, 8, 3, 3, 5, 5, 3, 2, 2, 2, 4, 4, 6, 6] ++
  [2, 5, 2, 8, 4, 4, 6, 6, 2, 4, 2, 7, 4, 4, 7, 7] ++
  [6, 6, 2, 8, 3, 3, 5, 5, 4, 2, 2, 2, 4, 4, 6, 6] ++
  [2, 5, 2, 8, 4, 4, 6, 6, 2, 4, 2, 7, 4, 4, 7, 7] ++
  [6, 6, 2, 8, 3, 3, 5, 5, 3, 2, 2, 2, 3, 4, 6, 6] ++
  [2, 5, 2, 8, 4, 4, 6, 6, 2, 4, 2, 7, 4, 4, 7, 7] ++
  [6, 6, 2, 8, 3, 3, 5, 5, 4, 2, 2, 2, 5, 4, 6, 6] ++
  [2, 5, 2, 8, 4, 4, 6, 6, 2, 4, 2, 7, 4, 4, 7, 7] ++
  [2, 6, 2, 6, 3, 3, 3, 3, 2, 2, 2, 2, 4, 4, 4, 4] ++
  [2, 6, 2, 6, 4, 4, 4, 4, 2, 5, 2, 5, 5, 5, 5, 5] ++
  [2, 6, 2, 6, 3, 3, 3, 3, 2, 2, 2, 2, 4, 4, 4, 4] ++
  [2, 5, 2, 5, 4, 4, 4, 4, 2, 4, 2, 4, 4, 4, 4, 4] ++
  [2, 6, 2, 8, 3, 3, 5, 5, 2, 2, 2, 2, 4, 4, 6, 6] ++
  [2, 5, 2, 8, 4, 4, 6, 6, 2, 4, 2, 7, 4, 4, 7, 7] ++
  [2, 6, 2, 8, 3, 3, 5, 5, 2, 2, 2, 2, 4, 4, 6, 6] ++
  [2, 5, 2, 8, 4, 4, 6, 6, 2, 4, 2, 7, 4, 4, 7, 7]

/-- The most cycles an opcode can take beyond its base count: 1 for the cells marked `*`, 2 for those marked `b` (30_encoding R104;
40_dispatch R134). -/
def extraCycleTable : List Nat :=
  [0, 0, 0, 0, 0, 0, 0, 0, 0, 0, 0, 0, 0, 0, 0, 0] ++
  [2, 1, 0, 0, 0, 0, 0, 0, 0, 1, 0, 0, 0, 1, 0, 0] ++
  [0, 0, 0, 0, 0, 0, 0, 0, 0, 0, 0, 0, 0, 0, 0, 0] ++
  [2, 1, 0, 0, 0, 0, 0, 0, 0, 1, 0, 0, 0, 1, 0, 0] ++
  [0, 0, 0, 0, 0, 0, 0, 0, 0, 0, 0, 0, 0, 0, 0, 0] ++
  [2, 1, 0, 0, 0, 0, 0, 0, 0, 1, 0, 0, 0, 1, 0, 0] ++
  [0, 0, 0, 0, 0, 0, 0, 0, 0, 0, 0, 0, 0, 0, 0, 0] ++
  [2, 1, 0, 0, 0, 0, 0, 0, 0, 1, 0, 0, 0, 1, 0, 0] ++
  [0, 0, 0, 0, 0, 0, 0, 0, 0, 0, 0, 0, 0, 0, 0, 0] ++
  [2, 0, 0, 0, 0, 0, 0, 0, 0, 0, 0, 0, 0, 0, 0, 0] ++
  [0, 0, 0, 0, 0, 0, 0, 0, 0, 0, 0, 0, 0, 0, 0, 0] ++
  [2, 1, 0, 0, 0, 0, 0, 0, 0, 1, 0, 0, 1, 1, 1, 0] ++
  [0, 0, 0, 0, 0, 0, 0, 0, 0, 0, 0, 0, 0, 0, 0, 0] ++
  [2, 1, 0, 0, 0, 0, 0, 0, 0, 1, 0, 0, 0, 1, 0, 0] ++
  [0, 0, 0, 0, 0, 0, 0, 0, 0, 0, 0, 0, 0, 0, 0, 0] ++
  [2, 1, 0, 0, 0, 0, 0, 0, 0, 1, 0, 0, 0, 1, 0, 0]

/-- Two states that differ at most in the traces of port reads: the vertical-blank flag and the count of draws. -/
def PortOnly (s t : State) : Prop := t = { s with vblank := t.vblank, draws := t.draws }

/-- Two states that differ at most in the traces of port reads and in `ea`. -/
def EaPortOnly (s t : State) : Prop := t = { s with ea := t.ea, vblank := t.vblank, draws := t.draws }

/-- Two states that differ at most in the contents of RAM and of the cartridge. -/
def MemOnly (s t : State) : Prop := t = { s with ram := t.ram, cart := t.cart }

/-- The stub's counters are in range (10_state R42). -/
def State.stubInRange (s : State) : Bool :=
  decide (s.ppuCycle ≤ 340) && decide (-1 ≤ s.ppuScanline) && decide (s.ppuScanline ≤ 260)

/-- The stored B is 0 and the stored U is 1 (10_state R28, decision D2). -/
def State.statusHeld (s : State) : Bool := decide (s.p &&& 0x30#8 = 0x20#8)

/-- The invariant of a run: the machine has been reset, its parameters are legal, its memories are canonical and its stub is in
range. -/
structure State.Inv (s : State) : Prop where
  started : s.hasReset = true
  legal : paramsLegal s.params = true
  memories : s.memoriesWf = true
  stub : s.stubInRange = true

/-- A run is safe when its state keeps the invariant; no state of a run is a fault or a refusal. -/
def SafeRun (steps : Nat) (s : State) : Prop := ∃ t, Host.Core.run Sys2Proof.core steps s = .next t ∧ t.Inv

end Sys2Proof.Machine
end

