-- ==== Sys2Proof/Certificates/Slice0/Obligations.lean ====
section
/-! DEFINITION. The statements about the model, in the order of the spec's files: encoding, memory and cartridge, addressing modes,
the instructions family by family, the clocks, interrupts, reset, and the invariants of a run. -/

open Sys2Proof Sys2Proof.Machine

/-! Encoding. -/

/-- Words written out from the encodings of 30_encoding R101 and R104 decode to the instructions they stand for. -/
def Obligations.SampleWordsDecode : Prop :=
  decode [0xA9, 0x00] = .ok (.lda (.imm 0x00)) ∧ decode [0xB9, 0xFF, 0x44] = .ok (.lda (.aby 0x44FF)) ∧
  decode [0x96, 0xFF] = .ok (.stx (.zpy 0xFF)) ∧ decode [0x71, 0x20] = .ok (.adc (.izy 0x20)) ∧
  decode [0x6A] = .ok (.ror .acc) ∧ decode [0x6C, 0xFF, 0x02] = .ok (.jmp (.ind 0x02FF)) ∧
  decode [0xD0, 0xF9] = .ok (.bne 0xF9) ∧ decode [0x00, 0xEA] = .ok .brk ∧ decode [0x02] = .ok (.undef 0x02)

/-- Decoding the bytes of a well-formed instruction gives the instruction back, whatever follows them (30_encoding R100, R101,
R104). -/
def Obligations.DecodeOfEncodeIsIdentity : Prop :=
  ∀ (i : Instr) (rest : List Byte), i.wf = true → decode (encode i ++ rest) = .ok i

/-- Every opcode byte decodes with two bytes after it, to a well-formed instruction with that opcode byte, whatever the bytes are; and
bytes that decode are the bytes the decoded instruction encodes to, except that BRK's padding byte may be anything (30_encoding
R100, R104, R107, R108; the model's own encoding of BRK, log 13). -/
def Obligations.DecodeIsTotalAndExact : Prop :=
  (∀ op b c : Byte, operandBytes op ≤ 2 ∧ ∃ i, decode [op, b, c] = .ok i) ∧
  ∀ (op : Byte) (rest : List Byte) (i : Instr), decode (op :: rest) = .ok i →
    i.wf = true ∧ (encode i).head? = some op ∧ (i ≠ .brk → encode i <+: op :: rest)

/-! The bus, RAM, the ports and the cartridge. -/

/-- 20_memory R63: the physical RAM byte of an address is its low 11 bits, and a written byte reads back at every mirror. The memories
are taken to be canonical, which every step keeps. -/
def Obligations.RamIsMirrored : Prop :=
  ∀ (s : State) (a : Word) (ro : Bool), a ≤ 0x1FFF#16 →
    busRead a ro s = (s.ram.read (a &&& 0x07FF#16).toNat, s) ∧
    (s.memoriesWf = true → ∀ (v : Byte),
      (∀ b, b ≤ 0x1FFF#16 → b &&& 0x07FF#16 = a &&& 0x07FF#16 → (busRead b ro (busWrite a v s)).1 = v) ∧
      (∀ k ∈ [0x0000#16, 0x0800#16, 0x1000#16, 0x1800#16], (busRead (a ^^^ k) ro (busWrite a v s)).1 = v))

/-- 20_memory R64: an address of the window selects the port of its low three bits, for reads and for writes. -/
def Obligations.PortWindowSelectsPort : Prop :=
  (∀ (s : State) (a : Word) (ro : Bool) (v : Byte), 0x2000#16 ≤ a → a ≤ 0x3FFF#16 →
    busRead a ro s = portRead (BitVec.ofNat 3 (a.toNat % 8)) ro s ∧
    busWrite a v s = portWrite (BitVec.ofNat 3 (a.toNat % 8)) v s) ∧
  (∀ a ∈ [0x2002#16, 0x200A#16, 0x3FFA#16], ∀ (s : State) (ro : Bool), busRead a ro s = portRead 2#3 ro s)

/-- Everything a bus transaction does beside its byte (20_memory R87; 60_exceptions R292, R293, decision D16): a read changes nothing,
but that a read of a port that is no peek draws a value (the model's counter, log 5), and at port 2 clears `vblank`; so every read but
a non-peek read of a port is idempotent: repeated, it gives the same byte and state; a write
changes at most the bytes of RAM or the program bytes of the cartridge, no register, no flag and nothing of the stub, and a write to a
port changes nothing. -/
def Obligations.BusSideEffects : Prop :=
  ∀ (s : State) (a : Word),
    (∀ ro, (busRead a ro s).2 =
      { s with
        vblank := if isPort a = true ∧ a &&& 0x0007#16 = 0x0002#16 ∧ ro = false then false else s.vblank
        draws := if isPort a = true ∧ ro = false then s.draws + 1 else s.draws }) ∧
    (∀ ro, (isPort a = false ∨ ro = true) →
      (busRead a ro s).2 = s ∧ busRead a ro (busRead a ro s).2 = busRead a ro s) ∧
    (∀ v, MemOnly s (busWrite a v s) ∧ (∃ prg, (busWrite a v s).cart = s.cart.map (fun c => { c with prg := prg })) ∧
      (0x1FFF#16 < a → (busWrite a v s).ram = s.ram) ∧ (a < 0x8000#16 → (busWrite a v s).cart = s.cart)) ∧
    (∀ v, isPort a = true → busWrite a v s = s)

/-- 20_memory R90: a read gives the value of the most recent write to the same physical location, and a write leaves every other
location alone; where the location keeps nothing, a write changes nothing. -/
def Obligations.ReadGivesMostRecentWrite : Prop :=
  ∀ (s : State) (a b : Word) (v : Byte), s.memoriesWf = true →
    (s.place b = s.place a → (s.place a).keeps = true → (memRead b (busWrite a v s)).1 = v) ∧
    (s.place b ≠ s.place a → (busWrite a v s).byteAt b = s.byteAt b) ∧
    ((s.place a).keeps = false → busWrite a v s = s) ∧
    (busWrite a v s).memoriesWf = true

/-- 20_memory R62, R65: 0x4000-0x7FFF, and with no cartridge 0x4000-0xFFFF, reads 0 and discards writes. -/
def Obligations.UnmappedReadsZeroAndDiscards : Prop :=
  ∀ (s : State) (a : Word) (v : Byte) (ro : Bool), 0x4000#16 ≤ a → (a ≤ 0x7FFF#16 ∨ s.cart = none) →
    busRead a ro s = (0x00#8, s) ∧ busWrite a v s = s

/-- 20_memory R70: the offsets of the baseline mapper on both sides, for every bank count; it ignores the pattern-bank count. -/
def Obligations.BaselineMapperOffsets : Prop :=
  ∀ (c : Cartridge) (a : Word),
    c.mapCpu a =
      (if 0x8000 ≤ a.toNat then some (if c.prgBanks = 1#8 then a.toNat % 0x4000 else a.toNat % 0x8000) else none) ∧
    c.mapPpu a = (if a.toNat < 0x2000 then some a.toNat else none) ∧
    ∀ n, ({ c with chrBanks := n } : Cartridge).mapCpu a = c.mapCpu a ∧ ({ c with chrBanks := n } : Cartridge).mapPpu a = c.mapPpu a

/-- 20_memory R71 (decision D12): on each side, a mapped offset within the memory's length is read and written there, and any other
access reads 0 or is discarded; a write touches one byte of one memory. -/
def Obligations.CartridgeAccesses : Prop :=
  ∀ (c : Cartridge) (a b : Word) (v : Byte), c.wf = true →
    (∀ o, c.mapCpu a = some o → o < c.prgSize → c.cpuRead a = c.prg.read o ∧ (c.cpuWrite a v).cpuRead a = v ∧
      (c.mapCpu b ≠ some o → (c.cpuWrite a v).cpuRead b = c.cpuRead b)) ∧
    ((∀ o, c.mapCpu a = some o → c.prgSize ≤ o) → c.cpuRead a = 0x00#8 ∧ c.cpuWrite a v = c) ∧
    (∀ o, c.mapPpu a = some o → o < c.chrSize → c.ppuRead a = c.chr.read o ∧ (c.ppuWrite a v).ppuRead a = v ∧
      (c.mapPpu b ≠ some o → (c.ppuWrite a v).ppuRead b = c.ppuRead b)) ∧
    ((∀ o, c.mapPpu a = some o → c.chrSize ≤ o) → c.ppuRead a = 0x00#8 ∧ c.ppuWrite a v = c) ∧
    c.cpuWrite a v = { c with prg := (c.cpuWrite a v).prg } ∧ c.ppuWrite a v = { c with chr := (c.ppuWrite a v).chr }

/-- 20_memory R80, R81 (decisions D13, D23): a file with a full header and all it declares is valid, its fields come from header bytes
4 to 7 alone, its memories are the bytes after the header and the trainer; any other file, and a file that cannot be opened or read, has
`valid = false`, and nothing is said of its other fields. -/
def Obligations.CartridgeParser : Prop :=
  (Cartridge.ofFile none).valid = false ∧
  ∀ f : List Byte,
    let trainerBytes := if (f.getD 6 0#8).getLsbD 2 then 512 else 0
    let prgBytes := (f.getD 4 0#8).toNat * 16384
    let chrBytes := (f.getD 5 0#8).toNat * 8192
    let c := Cartridge.ofFile (some f)
    (c.valid = true ↔ 16 + trainerBytes + prgBytes + chrBytes ≤ f.length) ∧
    (c.valid = true →
      c.prgBanks = f.getD 4 0#8 ∧ c.chrBanks = f.getD 5 0#8 ∧
      c.mapperId = (f.getD 7 0#8 &&& 0xF0#8) ||| (f.getD 6 0#8 >>> 4) ∧
      (c.mirroring = .vertical ↔ (f.getD 6 0#8).getLsbD 0 = true) ∧
      c.trainer = (f.getD 6 0#8).getLsbD 2 ∧
      (∀ o, o < prgBytes → c.prg.read o = f.getD (16 + trainerBytes + o) 0#8) ∧
      (∀ o, o < chrBytes → c.chr.read o = f.getD (16 + trainerBytes + prgBytes + o) 0#8) ∧
      Memory.wf c.prgSize c.prg = true ∧ Memory.wf c.chrSize c.chr = true)

/-- 20_memory R82, R83, R84; 70_reset R313, R321 (decisions D13, D14, D24): the slot is filled by a valid cartridge with mapper 0, and
nothing else changes; an invalid cartridge and any other mapper are refused, and so are the bus clock and the two interrupt calls
before the first bus reset. The model's own: the processor clock alone is refused there too (log 8), and an illegal parameter is
refused at the bus reset, exactly where an entry of UNDEF_CYCLES is 0 or of UNDEF_LEN not 1, 2 or 3, or a reset counter of the stub is out of
its range (log 17). -/
def Obligations.InsertCartridgeAndRefusals : Prop :=
  (∀ (c : Cartridge) (s : State),
    (c.valid = true → c.mapperId = 0#8 → hostAction (.insertCartridge c) s = .next { s with cart := some c }) ∧
    (c.valid = false → hostAction (.insertCartridge c) s = .refused .invalidCartridge) ∧
    (c.valid = true → c.mapperId ≠ 0#8 → hostAction (.insertCartridge c) s = .refused (.unsupportedMapper c.mapperId))) ∧
  (∀ s : State, s.hasReset = false →
    step s = .refused .beforeFirstReset ∧
    ∀ act ∈ [HostAction.busClock, .irq, .nmi, .cpuClock], hostAction act s = .refused .beforeFirstReset) ∧
  (∀ s : State, hostAction .busReset s = .refused .illegalParameter ↔
    (∃ op, (op, 0) ∈ s.params.undefCycles) ∨ (∃ op n, (op, n) ∈ s.params.undefLen ∧ n ∉ [1, 2, 3]) ∨
    340 < s.params.ppuResetCycle ∨ s.params.ppuResetScanline < -1 ∨ 260 < s.params.ppuResetScanline)

/-! Addressing modes. PC is the address after the instruction's bytes, as after the fetch (log 10). -/

/-- 40_dispatch R137 to R146: the effective address and page-cross signal of every mode that reads no pointer; such a mode writes `ea`
and nothing else. The page cross is that of the high bytes. -/
def Obligations.DirectModeAddresses : Prop :=
  ∀ (s : State) (z d i : Byte) (w : Word),
    resolve .imp s = (false, s) ∧ resolve .acc s = (false, s) ∧
    resolve (.imm i) s = (false, { s with ea := s.pc - 1#16 }) ∧
    resolve (.zp0 z) s = (false, { s with ea := BitVec.ofNat 16 z.toNat }) ∧
    resolve (.zpx z) s = (false, { s with ea := BitVec.ofNat 16 ((z.toNat + s.x.toNat) % 256) }) ∧
    resolve (.zpy z) s = (false, { s with ea := BitVec.ofNat 16 ((z.toNat + s.y.toNat) % 256) }) ∧
    resolve (.rel d) s = (false, { s with ea := BitVec.ofInt 16 (s.pc.toNat + d.toInt) }) ∧
    resolve (.abs w) s = (false, { s with ea := w }) ∧
    resolve (.abx w) s =
      (decide (hiByte w ≠ hiByte (BitVec.ofNat 16 (w.toNat + s.x.toNat))), { s with ea := BitVec.ofNat 16 (w.toNat + s.x.toNat) }) ∧
    resolve (.aby w) s =
      (decide (hiByte w ≠ hiByte (BitVec.ofNat 16 (w.toNat + s.y.toNat))), { s with ea := BitVec.ofNat 16 (w.toNat + s.y.toNat) })

/-- 40_dispatch R148, R149 (decision D20): the zero-page pointer modes read both pointer bytes in page 0, the second with wrap, and write
`ea` and nothing else. -/
def Obligations.ZeroPagePointerModes : Prop :=
  ∀ (s : State) (z : Byte),
    let at0 (n : Nat) : Byte := s.ram.read (n % 256)
    let px := joinBytes (at0 (z.toNat + s.x.toNat + 1)) (at0 (z.toNat + s.x.toNat))
    let py := joinBytes (at0 (z.toNat + 1)) (at0 z.toNat)
    resolve (.izx z) s = (false, { s with ea := px }) ∧
    resolve (.izy z) s = (decide (pageOf (py + zext16 s.y) ≠ pageOf py), { s with ea := py + zext16 s.y })

/-- 40_dispatch R136: the operand of the accumulator mode is A; an immediate is the byte of the instruction that `ea` points at, read by
the fetch (log 10); every other operand is one processor read at the effective address, after the mode's pointer reads, and where that
address is storage it is the byte there before the instruction. Resolving a mode and reading its operand change no storage. -/
def Obligations.OperandIsTheByteAtTheAddress : Prop :=
  ∀ s : State,
    operandRead .acc s = (s.a, s) ∧ (∀ i, operandRead (.imm i) s = (i, { s with ea := s.pc - 1#16 })) ∧
    ∀ mode : Operand, KeepsMemory s (operandRead mode s).2 ∧
      (mode ≠ .acc → (∀ i, mode ≠ .imm i) →
        operandRead mode s = memRead (operandAddr mode s) (resolve mode s).2 ∧
        ∀ v, s.byteAt (operandAddr mode s) = some v → operandRead mode s = (v, (resolve mode s).2))

/-- 40_dispatch R147, 44_control R229: the indirect jump takes its low byte from the pointer and its high byte from the next address of
the same page; JMP ($02FF) reads 0x02FF and 0x0200. The absolute jump goes to its operand word. Nothing else changes. -/
def Obligations.JumpTargets : Prop :=
  (∀ (s : State) (w : Word), exec (.jmp (.abs w)) s = .next { s with pc := w, ea := w, cyc := 3 }) ∧
  (∀ (s : State) (ptr : Word) (l h : Byte),
    s.byteAt ptr = some l → s.byteAt (joinBytes (hiByte ptr) (loByte ptr + 1#8)) = some h →
      exec (.jmp (.ind ptr)) s = .next { s with pc := joinBytes h l, ea := joinBytes h l, cyc := 5 }) ∧
  (∀ (s : State) (w : Word), ∃ t, exec (.jmp (.ind w)) s = .next t ∧ t.cyc = 5 ∧ t.pc = t.ea ∧ KeepsMemory s t ∧
    t = { s with pc := t.pc, ea := t.ea, cyc := t.cyc, vblank := t.vblank, draws := t.draws })

/-! 41_load_store. -/

/-- 41_load_store R160 to R163; 40_dispatch R134, R135: LDA, LDX and LDY put the byte their mode reads into the register, set Z and N
from it, take the page-cross cycle, and change nothing else but `ea` and the traces of port reads. -/
def Obligations.LoadsPutOperandInRegister : Prop :=
  (∀ (m : AccOperand) (s : State), ∃ q,
    let v := (operandRead m.operand s).1
    ZNOf v q ∧ FlagsKept [.Z, .N] s.p q ∧ KeepsMemory s (s.afterRead m.operand) ∧
    exec (.lda m) s =
      .next { s.afterRead m.operand with a := v, p := q, cyc := m.cycles + (pageCrossed m.operand s).toNat }) ∧
  (∀ (m : LdxOperand) (s : State), ∃ q,
    let v := (operandRead m.operand s).1
    ZNOf v q ∧ FlagsKept [.Z, .N] s.p q ∧ KeepsMemory s (s.afterRead m.operand) ∧
    exec (.ldx m) s =
      .next { s.afterRead m.operand with x := v, p := q, cyc := m.cycles + (pageCrossed m.operand s).toNat }) ∧
  (∀ (m : LdyOperand) (s : State), ∃ q,
    let v := (operandRead m.operand s).1
    ZNOf v q ∧ FlagsKept [.Z, .N] s.p q ∧ KeepsMemory s (s.afterRead m.operand) ∧
    exec (.ldy m) s =
      .next { s.afterRead m.operand with y := v, p := q, cyc := m.cycles + (pageCrossed m.operand s).toNat })

/-- 41_load_store R164 to R166 (decision D18): STA, STX and STY store the register at the mode's address, read no operand, write no
flag, and take no page-cross cycle; every other byte of storage reads as before. -/
def Obligations.StoresWriteRegister : Prop :=
  (∀ (m : StaOperand) (s : State), ∃ t, exec (.sta m) s = .next t ∧
    t = { busWrite (operandAddr m.operand s) s.a s with ea := operandAddr m.operand s, cyc := m.cycles } ∧
    StoresOnly (operandAddr m.operand s) s.a s t) ∧
  (∀ (m : StxOperand) (s : State), ∃ t, exec (.stx m) s = .next t ∧
    t = { busWrite (operandAddr m.operand s) s.x s with ea := operandAddr m.operand s, cyc := m.cycles } ∧
    StoresOnly (operandAddr m.operand s) s.x s t) ∧
  (∀ (m : StyOperand) (s : State), ∃ t, exec (.sty m) s = .next t ∧
    t = { busWrite (operandAddr m.operand s) s.y s with ea := operandAddr m.operand s, cyc := m.cycles } ∧
    StoresOnly (operandAddr m.operand s) s.y s t)

/-- 41_load_store R167 to R171: TAX, TAY, TXA, TYA and TSX by their opcode bytes: the destination is the source, Z and N are those of
it, two cycles, and nothing else changes. -/
def Obligations.TransfersCopyAndSetZN : Prop :=
  decode [0xAA] = .ok .tax ∧ decode [0xA8] = .ok .tay ∧ decode [0x8A] = .ok .txa ∧ decode [0x98] = .ok .tya ∧
  decode [0xBA] = .ok .tsx ∧
  ∀ s : State,
    (∃ q, ZNOf s.a q ∧ FlagsKept [.Z, .N] s.p q ∧ exec .tax s = .next { s with x := s.a, p := q, cyc := 2 }) ∧
    (∃ q, ZNOf s.a q ∧ FlagsKept [.Z, .N] s.p q ∧ exec .tay s = .next { s with y := s.a, p := q, cyc := 2 }) ∧
    (∃ q, ZNOf s.x q ∧ FlagsKept [.Z, .N] s.p q ∧ exec .txa s = .next { s with a := s.x, p := q, cyc := 2 }) ∧
    (∃ q, ZNOf s.y q ∧ FlagsKept [.Z, .N] s.p q ∧ exec .tya s = .next { s with a := s.y, p := q, cyc := 2 }) ∧
    (∃ q, ZNOf s.sp q ∧ FlagsKept [.Z, .N] s.p q ∧ exec .tsx s = .next { s with x := s.sp, p := q, cyc := 2 })

/-- 41_load_store R172 (decision D18), 45_stack_flag_misc R251: TXS copies X to SP and writes no flag; NOP changes nothing; two cycles
each. -/
def Obligations.TxsAndNopWriteNoFlag : Prop :=
  ∀ s : State, exec .txs s = .next { s with sp := s.x, cyc := 2 } ∧ exec .nop s = .next { s with cyc := 2 }

/-! 42_arith_logic. -/

/-- 42_arith_logic R180, R181, R196 (decision D3): ADC adds the operand and the carry in binary whatever P.D is: C is the unsigned carry,
V says that the signed sum does not fit, Z and N are those of the result; nothing else changes. -/
def Obligations.AdcAddsInBinary : Prop :=
  ∀ (m : AccOperand) (s : State), ∃ q r,
    let v := (operandRead m.operand s).1
    let carry := getFlag .C s.p
    r.toNat = (s.a.toNat + v.toNat + carry.toNat) % 256 ∧
    getFlag .C q = decide (256 ≤ s.a.toNat + v.toNat + carry.toNat) ∧
    getFlag .V q = decide (s.a.toInt + v.toInt + carry.toInt ≠ r.toInt) ∧
    ZNOf r q ∧ FlagsKept [.C, .Z, .V, .N] s.p q ∧ KeepsMemory s (s.afterRead m.operand) ∧
    exec (.adc m) s =
      .next { s.afterRead m.operand with a := r, p := q, cyc := m.cycles + (pageCrossed m.operand s).toNat }

/-- 42_arith_logic R180, R182, R196 (decision D3): SBC is A - m - (1 - C): C says that no borrow occurred, V that the signed difference
does not fit. -/
def Obligations.SbcSubtractsInBinary : Prop :=
  ∀ (m : AccOperand) (s : State), ∃ q r,
    let v := (operandRead m.operand s).1
    let borrow := !getFlag .C s.p
    (r.toNat : Int) = ((s.a.toNat : Int) - v.toNat - borrow.toNat) % 256 ∧
    getFlag .C q = decide (v.toNat + borrow.toNat ≤ s.a.toNat) ∧
    getFlag .V q = decide (s.a.toInt - v.toInt - borrow.toInt ≠ r.toInt) ∧
    ZNOf r q ∧ FlagsKept [.C, .Z, .V, .N] s.p q ∧ KeepsMemory s (s.afterRead m.operand) ∧
    exec (.sbc m) s =
      .next { s.afterRead m.operand with a := r, p := q, cyc := m.cycles + (pageCrossed m.operand s).toNat }

/-- 42_arith_logic R183 to R185: AND, ORA and EOR of A with the operand, and Z and N of the result. -/
def Obligations.LogicalOperations : Prop :=
  ∀ (m : AccOperand) (s : State),
    let v := (operandRead m.operand s).1
    let n := m.cycles + (pageCrossed m.operand s).toNat
    KeepsMemory s (s.afterRead m.operand) ∧
    (∃ q, ZNOf (s.a &&& v) q ∧ FlagsKept [.Z, .N] s.p q ∧
      exec (.and m) s = .next { s.afterRead m.operand with a := s.a &&& v, p := q, cyc := n }) ∧
    (∃ q, ZNOf (s.a ||| v) q ∧ FlagsKept [.Z, .N] s.p q ∧
      exec (.ora m) s = .next { s.afterRead m.operand with a := s.a ||| v, p := q, cyc := n }) ∧
    (∃ q, ZNOf (s.a ^^^ v) q ∧ FlagsKept [.Z, .N] s.p q ∧
      exec (.eor m) s = .next { s.afterRead m.operand with a := s.a ^^^ v, p := q, cyc := n })

/-- 42_arith_logic R186: BIT writes Z from A AND the operand, N and V from bits 7 and 6 of the operand, and no register. -/
def Obligations.BitTestsOperand : Prop :=
  ∀ (m : BitOperand) (s : State), ∃ q,
    let v := (operandRead m.operand s).1
    getFlag .Z q = decide (s.a &&& v = 0#8) ∧ getFlag .N q = v.getLsbD 7 ∧ getFlag .V q = v.getLsbD 6 ∧
    FlagsKept [.Z, .N, .V] s.p q ∧ KeepsMemory s (s.afterRead m.operand) ∧
    exec (.bit m) s = .next { s.afterRead m.operand with p := q, cyc := m.cycles }

/-- 42_arith_logic R187 to R189: a compare writes C = (register >= operand, unsigned), Z = equal, N = bit 7 of the difference; V and the
register are unchanged. CMP takes the page-cross cycle. -/
def Obligations.ComparesWriteCZN : Prop :=
  (∀ (m : AccOperand) (s : State), ∃ q,
    let v := (operandRead m.operand s).1
    getFlag .C q = decide (v.toNat ≤ s.a.toNat) ∧ getFlag .Z q = decide (s.a = v) ∧ getFlag .N q = (s.a - v).msb ∧
    FlagsKept [.C, .Z, .N] s.p q ∧ KeepsMemory s (s.afterRead m.operand) ∧
    exec (.cmp m) s = .next { s.afterRead m.operand with p := q, cyc := m.cycles + (pageCrossed m.operand s).toNat }) ∧
  (∀ (m : CpOperand) (s : State), ∃ q,
    let v := (operandRead m.operand s).1
    getFlag .C q = decide (v.toNat ≤ s.x.toNat) ∧ getFlag .Z q = decide (s.x = v) ∧ getFlag .N q = (s.x - v).msb ∧
    FlagsKept [.C, .Z, .N] s.p q ∧ KeepsMemory s (s.afterRead m.operand) ∧
    exec (.cpx m) s = .next { s.afterRead m.operand with p := q, cyc := m.cycles }) ∧
  (∀ (m : CpOperand) (s : State), ∃ q,
    let v := (operandRead m.operand s).1
    getFlag .C q = decide (v.toNat ≤ s.y.toNat) ∧ getFlag .Z q = decide (s.y = v) ∧ getFlag .N q = (s.y - v).msb ∧
    FlagsKept [.C, .Z, .N] s.p q ∧ KeepsMemory s (s.afterRead m.operand) ∧
    exec (.cpy m) s = .next { s.afterRead m.operand with p := q, cyc := m.cycles })

/-- 42_arith_logic R190, R191: INC and DEC read the byte at the mode's address once, store it plus or minus one there, and set Z and N
from it; every other byte of storage reads as before. -/
def Obligations.IncDecModifyMemory : Prop :=
  ∀ (m : IncOperand) (s : State),
    let v := (operandRead m.operand s).1
    let ea := operandAddr m.operand s
    (∃ q t, ZNOf (v + 1#8) q ∧ FlagsKept [.Z, .N] s.p q ∧ exec (.inc m) s = .next t ∧
      t = { busWrite ea (v + 1#8) (s.afterRead m.operand) with p := q, cyc := m.cycles } ∧ StoresOnly ea (v + 1#8) s t) ∧
    (∃ q t, ZNOf (v - 1#8) q ∧ FlagsKept [.Z, .N] s.p q ∧ exec (.dec m) s = .next t ∧
      t = { busWrite ea (v - 1#8) (s.afterRead m.operand) with p := q, cyc := m.cycles } ∧ StoresOnly ea (v - 1#8) s t)

/-- 42_arith_logic R192 to R195: INX, INY, DEX and DEY by their opcode bytes: the register plus or minus one mod 256, Z and N of it, two
cycles, and nothing else changes. -/
def Obligations.IndexIncrementDecrement : Prop :=
  decode [0xE8] = .ok .inx ∧ decode [0xC8] = .ok .iny ∧ decode [0xCA] = .ok .dex ∧ decode [0x88] = .ok .dey ∧
  ∀ s : State,
    (∃ q r, r.toNat = (s.x.toNat + 1) % 256 ∧ ZNOf r q ∧ FlagsKept [.Z, .N] s.p q ∧
      exec .inx s = .next { s with x := r, p := q, cyc := 2 }) ∧
    (∃ q r, r.toNat = (s.y.toNat + 1) % 256 ∧ ZNOf r q ∧ FlagsKept [.Z, .N] s.p q ∧
      exec .iny s = .next { s with y := r, p := q, cyc := 2 }) ∧
    (∃ q r, r.toNat = (s.x.toNat + 255) % 256 ∧ ZNOf r q ∧ FlagsKept [.Z, .N] s.p q ∧
      exec .dex s = .next { s with x := r, p := q, cyc := 2 }) ∧
    (∃ q r, r.toNat = (s.y.toNat + 255) % 256 ∧ ZNOf r q ∧ FlagsKept [.Z, .N] s.p q ∧
      exec .dey s = .next { s with y := r, p := q, cyc := 2 })

/-! 43_shift_rotate. -/

/-- 43_shift_rotate R210 to R214, accumulator form: each bit of the result by the bit of A or the carry it comes from, C the bit shifted
out; A and P are all that changes, in two cycles. -/
def Obligations.ShiftsOfTheAccumulator : Prop :=
  ∀ s : State,
    let c := getFlag .C s.p
    (∃ q r, (∀ i, i < 8 → r.getLsbD i = (decide (1 ≤ i) && s.a.getLsbD (i - 1))) ∧ getFlag .C q = s.a.getLsbD 7 ∧
      ZNOf r q ∧ FlagsKept [.C, .Z, .N] s.p q ∧ exec (.asl .acc) s = .next { s with a := r, p := q, cyc := 2 }) ∧
    (∃ q r, (∀ i, i < 8 → r.getLsbD i = (decide (i < 7) && s.a.getLsbD (i + 1))) ∧ getFlag .C q = s.a.getLsbD 0 ∧
      ZNOf r q ∧ FlagsKept [.C, .Z, .N] s.p q ∧ exec (.lsr .acc) s = .next { s with a := r, p := q, cyc := 2 }) ∧
    (∃ q r, (∀ i, i < 8 → r.getLsbD i = (if i = 0 then c else s.a.getLsbD (i - 1))) ∧ getFlag .C q = s.a.getLsbD 7 ∧
      ZNOf r q ∧ FlagsKept [.C, .Z, .N] s.p q ∧ exec (.rol .acc) s = .next { s with a := r, p := q, cyc := 2 }) ∧
    (∃ q r, (∀ i, i < 8 → r.getLsbD i = (if i = 7 then c else s.a.getLsbD (i + 1))) ∧ getFlag .C q = s.a.getLsbD 0 ∧
      ZNOf r q ∧ FlagsKept [.C, .Z, .N] s.p q ∧ exec (.ror .acc) s = .next { s with a := r, p := q, cyc := 2 })

/-- 43_shift_rotate R210 to R214, memory forms: one read and one write at the mode's address, with the result and flags of the same
shift; A is unchanged and every other byte of storage reads as before. -/
def Obligations.ShiftsOfMemory : Prop :=
  ∀ (m : ShiftOperand) (s : State), m ≠ .acc →
    let v := (operandRead m.operand s).1
    let ea := operandAddr m.operand s
    let c := getFlag .C s.p
    (∃ q t, getFlag .C q = v.getLsbD 7 ∧ ZNOf (v <<< 1) q ∧ FlagsKept [.C, .Z, .N] s.p q ∧ exec (.asl m) s = .next t ∧
      t = { busWrite ea (v <<< 1) (s.afterRead m.operand) with p := q, cyc := m.cycles } ∧ StoresOnly ea (v <<< 1) s t) ∧
    (∃ q t, getFlag .C q = v.getLsbD 0 ∧ ZNOf (v >>> 1) q ∧ FlagsKept [.C, .Z, .N] s.p q ∧ exec (.lsr m) s = .next t ∧
      t = { busWrite ea (v >>> 1) (s.afterRead m.operand) with p := q, cyc := m.cycles } ∧ StoresOnly ea (v >>> 1) s t) ∧
    (∃ q r t, r = (v <<< 1) + BitVec.ofNat 8 c.toNat ∧ getFlag .C q = v.getLsbD 7 ∧ ZNOf r q ∧
      FlagsKept [.C, .Z, .N] s.p q ∧ exec (.rol m) s = .next t ∧
      t = { busWrite ea r (s.afterRead m.operand) with p := q, cyc := m.cycles } ∧ StoresOnly ea r s t) ∧
    (∃ q r t, r = (v >>> 1) + BitVec.ofNat 8 (128 * c.toNat) ∧ getFlag .C q = v.getLsbD 0 ∧ ZNOf r q ∧
      FlagsKept [.C, .Z, .N] s.p q ∧ exec (.ror m) s = .next t ∧
      t = { busWrite ea r (s.afterRead m.operand) with p := q, cyc := m.cycles } ∧ StoresOnly ea r s t)

/-! 44_control. -/

/-- 44_control R220 to R228 (decision D4): each branch by its condition: taken, PC is the target and the countdown 3, or 4 when the target
is on another page than the next instruction; not taken, PC stays and the countdown is 2. No flag and no memory changes. -/
def Obligations.BranchesFollowTheirFlag : Prop :=
  ∀ (d : Byte) (s : State),
    let target := BitVec.ofInt 16 (s.pc.toNat + d.toInt)
    ∀ e ∈ [(Instr.bpl d, Flag.N, false), (.bmi d, .N, true), (.bvc d, .V, false), (.bvs d, .V, true), (.bcc d, .C, false),
        (.bcs d, .C, true), (.bne d, .Z, false), (.beq d, .Z, true)],
      (getFlag e.2.1 s.p = e.2.2 →
        exec e.1 s = .next { s with pc := target, ea := target, cyc := if hiByte target = hiByte s.pc then 3 else 4 }) ∧
      (getFlag e.2.1 s.p ≠ e.2.2 → exec e.1 s = .next { s with ea := target, cyc := 2 })

/-- 44_control R231, R232: JSR pushes the address of its last byte, high byte first, and jumps; RTS pulls a word, low byte first, and goes
to the address after it. Beside the stack bytes nothing of storage changes. -/
def Obligations.SubroutineCallAndReturn : Prop :=
  ∀ (s : State) (target : Word),
    (∃ t, exec (.jsr target) s = .next t ∧
      t = { s with
            ram := (s.ram.write (stackOffset s.sp) (hiByte (s.pc - 1#16))).write (stackOffset (s.sp - 1#8)) (loByte (s.pc - 1#16))
            sp := s.sp - 2#8, pc := target, ea := target, cyc := 6 } ∧
      KeepsMemoryBut [stackOffset s.sp, stackOffset (s.sp - 1#8)] s t) ∧
    exec .rts s =
      .next { s with
              pc := joinBytes (s.ram.read (stackOffset (s.sp + 2#8))) (s.ram.read (stackOffset (s.sp + 1#8))) + 1#16
              sp := s.sp + 2#8, cyc := 6 }

/-- 44_control R231, R232: an RTS right after a JSR goes to the address after the JSR and restores SP. -/
def Obligations.ReturnUndoesCall : Prop :=
  ∀ (s t u : State) (target : Word), s.memoriesWf = true → exec (.jsr target) s = .next t → exec .rts t = .next u →
    u.pc = s.pc ∧ u.sp = s.sp ∧ u.a = s.a ∧ u.x = s.x ∧ u.y = s.y ∧ u.p = s.p

/-- 44_control R230 (decision D6): BRK pushes the address after its padding byte, high byte first, and P with B = 1, U = 1 and the I from
before; I is then 1 and PC the word at 0xFFFE. Nothing else changes. -/
def Obligations.BrkTakesTheTrap : Prop :=
  ∀ (s : State) (l h : Byte), s.byteAt 0xFFFE#16 = some l → s.byteAt 0xFFFF#16 = some h → ∃ q t,
    getFlag .I q = true ∧ FlagsKept [.I] s.p q ∧ exec .brk s = .next t ∧
    t = { s with
          ram := ((s.ram.write (stackOffset s.sp) (hiByte (s.pc + 1#16))).write (stackOffset (s.sp - 1#8))
            (loByte (s.pc + 1#16))).write (stackOffset (s.sp - 2#8)) (s.p ||| 0x30#8)
          sp := s.sp - 3#8, p := q, pc := joinBytes h l, cyc := 7 } ∧
    KeepsMemoryBut [stackOffset s.sp, stackOffset (s.sp - 1#8), stackOffset (s.sp - 2#8)] s t

/-- 44_control R233 (decision D2): RTI pulls P, with B forced to 0 and U to 1, then PC, low byte first, with no increment. -/
def Obligations.RtiRestoresStatusAndPc : Prop :=
  ∀ s : State, ∃ q,
    (∀ f, getFlag f q = if f = .U then true else if f = .B then false else getFlag f (s.ram.read (stackOffset (s.sp + 1#8)))) ∧
    exec .rti s =
      .next { s with
              p := q
              pc := joinBytes (s.ram.read (stackOffset (s.sp + 3#8))) (s.ram.read (stackOffset (s.sp + 2#8)))
              sp := s.sp + 3#8, cyc := 6 }

/-- 44_control R230, R233; 60_exceptions R277, R278: an RTI right after a BRK restores SP, the flags other than B and U, I included, and
goes to the address after BRK's padding byte. -/
def Obligations.RtiUndoesBrk : Prop :=
  ∀ s t u : State, s.memoriesWf = true → exec .brk s = .next t → exec .rti t = .next u →
    u.pc = s.pc + 1#16 ∧ u.sp = s.sp ∧ FlagsKept [.B, .U] s.p u.p ∧ getFlag .B u.p = false ∧ getFlag .U u.p = true

/-! 45_stack_flag_misc. -/

/-- 45_stack_flag_misc R240, R242: PHA and PLA by their opcode bytes: PHA stores A at 0x0100 + SP and decrements SP, PLA increments SP and
loads A from there with Z and N; nothing else changes. -/
def Obligations.AccumulatorPushAndPull : Prop :=
  decode [0x48] = .ok .pha ∧ decode [0x68] = .ok .pla ∧
  ∀ s : State,
    (∃ t, exec .pha s = .next t ∧
      t = { s with ram := s.ram.write (stackOffset s.sp) s.a, sp := s.sp - 1#8, cyc := 3 } ∧
      KeepsMemoryBut [stackOffset s.sp] s t) ∧
    (∃ q, let v := s.ram.read (stackOffset (s.sp + 1#8))
      ZNOf v q ∧ FlagsKept [.Z, .N] s.p q ∧ exec .pla s = .next { s with a := v, p := q, sp := s.sp + 1#8, cyc := 4 })

/-- 45_stack_flag_misc R241, R243 (decision D2): PHP pushes P with B = 1 and U = 1 and leaves P; PLP loads every flag from the pulled byte
but B, which is 0, and U, which is 1. -/
def Obligations.StatusPushAndPull : Prop :=
  ∀ s : State,
    (∃ t w, exec .php s = .next t ∧ (∀ f, getFlag f w = if f = .U ∨ f = .B then true else getFlag f s.p) ∧
      t = { s with ram := s.ram.write (stackOffset s.sp) w, sp := s.sp - 1#8, cyc := 3 } ∧
      KeepsMemoryBut [stackOffset s.sp] s t) ∧
    (∃ q, (∀ f, getFlag f q =
        if f = .U then true else if f = .B then false else getFlag f (s.ram.read (stackOffset (s.sp + 1#8)))) ∧
      exec .plp s = .next { s with p := q, sp := s.sp + 1#8, cyc := 4 })

/-- 45_stack_flag_misc R244 to R250: each flag instruction writes its one flag and nothing else, in two cycles. -/
def Obligations.FlagInstructionsWriteOneFlag : Prop :=
  ∀ s : State,
    ∀ e ∈ [(Instr.clc, Flag.C, false), (.sec, .C, true), (.cli, .I, false), (.sei, .I, true), (.clv, .V, false), (.cld, .D, false),
        (.sed, .D, true)],
      ∃ q, getFlag e.2.1 q = e.2.2 ∧ FlagsKept [e.2.1] s.p q ∧ exec e.1 s = .next { s with p := q, cyc := 2 }

/-- 45_stack_flag_misc R253, 30_encoding R107 (decision D5): each undefined opcode takes UNDEF_CYCLES, skips the bytes of UNDEF_LEN after
its opcode, and changes nothing else; with the default parameters it skips none. -/
def Obligations.UndefinedOpcodesAreNoOps : Prop :=
  ∀ (op : Byte) (s : State), op ∈ undefinedOpcodes →
    exec (.undef op) s =
      .next { s with pc := s.pc + BitVec.ofNat 16 (undefLen s.params op - 1), cyc := undefCycles s.params op } ∧
    (s.params = Config.defaultParams →
      exec (.undef op) s = .next { s with cyc := baseCycleTable.getD op.toNat 0 })

/-- 45_stack_flag_misc R252: a push with SP = 0x00 writes 0x0100 and leaves 0xFF, a pull with SP = 0xFF reads 0x0100 and leaves 0x00, a
three-byte push that starts with SP = 0x01 writes 0x0101, 0x0100 and 0x01FF and leaves 0xFE, and no stack address leaves page 1. -/
def Obligations.StackWrapsInPageOne : Prop :=
  (∀ (s : State) (v : Byte), s.sp = 0x00#8 →
    push v s = { busWrite 0x0100#16 v s with sp := 0xFF#8 }) ∧
  (∀ s : State, s.sp = 0xFF#8 → pull s = ((memRead 0x0100#16 s).1, { s with sp := 0x00#8 })) ∧
  (∀ (s : State) (u v w : Byte), s.sp = 0x01#8 →
    push w (push v (push u s)) = { busWrite 0x01FF#16 w (busWrite 0x0100#16 v (busWrite 0x0101#16 u s)) with sp := 0xFE#8 }) ∧
  (∀ sp : Byte, 0x0100#16 ≤ stackAddr sp ∧ stackAddr sp ≤ 0x01FF#16)

/-! Timing. -/

/-- 40_dispatch R134, R135; 30_encoding R104; 70_reset R321: with default parameters an opcode's countdown is its base count of the
opcode map plus at most the extra cycles its cell allows; with any legal parameters it is at least 1. -/
def Obligations.CycleCountsFollowTheOpcodeMap : Prop :=
  (∀ (op b c : Byte) (i : Instr) (s : State), decode [op, b, c] = .ok i → s.params = Config.defaultParams →
    ∃ t, exec i s = .next t ∧ baseCycleTable.getD op.toNat 0 ≤ t.cyc ∧
      t.cyc ≤ baseCycleTable.getD op.toNat 0 + extraCycleTable.getD op.toNat 0) ∧
  (∀ (i : Instr) (s : State), paramsLegal s.params = true → ∃ t, exec i s = .next t ∧ 1 ≤ t.cyc)

/-! The clocks. -/

/-- 40_dispatch R130, R133; 60_exceptions R280: at an instruction boundary, in a bus clock that ticks the processor, where the bytes at PC
are storage and decode to `i`, a step runs `i` on the state after the picture unit's tick, with the first byte in `opcode` and PC
past the bytes read; then the countdown falls by one, the clock count grows, and the ratio counter advances. That a step is one bus
clock and that exec starts after the fetch are the model's layout (log 1, log 10). -/
def Obligations.StepRunsDecodedInstruction : Prop :=
  ∀ (s : State) (b0 b1 b2 : Byte) (i : Instr), s.hasReset = true → s.cyc = 0 → s.busCtr = s.params.cpuPhase →
    s.byteAt s.pc = some b0 → s.byteAt (s.pc + 1#16) = some b1 → s.byteAt (s.pc + 2#16) = some b2 →
    decode [b0, b1, b2] = .ok i →
    ∃ t, exec i { ppuClock s with opcode := b0, pc := s.pc + 1#16 + BitVec.ofNat 16 (operandBytes b0) } = .next t ∧
      step s = .next { t with cyc := t.cyc - 1, clockCount := t.clockCount + 1, busCtr := t.busCtr + 1 }

/-- 40_dispatch R133, 20_memory R93: fetching goes through the bus wherever PC is: the opcode byte first, then the operand bytes in order,
each at the next address, each with the side effect of a processor read. -/
def Obligations.FetchReadsThroughTheBus : Prop :=
  ∀ s : State,
    let r0 := memRead s.pc s
    let r1 := memRead (s.pc + 1#16) r0.2
    let r2 := memRead (s.pc + 2#16) r1.2
    decode [r0.1, r1.1, r2.1] = .ok (fetch s).1 ∧
    (operandBytes r0.1 = 0 → (fetch s).2 = { r0.2 with opcode := r0.1, pc := s.pc + 1#16 }) ∧
    (operandBytes r0.1 = 1 → (fetch s).2 = { r1.2 with opcode := r0.1, pc := s.pc + 2#16 }) ∧
    (operandBytes r0.1 = 2 → (fetch s).2 = { r2.2 with opcode := r0.1, pc := s.pc + 3#16 })

/-- 40_dispatch R130, 60_exceptions R280: a bus clock that does not tick the processor changes only the stub and the ratio counter; one
that ticks it inside a countdown changes beside them only `cyc` and the clock count. -/
def Obligations.StepBetweenBoundaries : Prop :=
  ∀ s : State, s.hasReset = true →
    (s.busCtr ≠ s.params.cpuPhase → step s = .next { ppuClock s with busCtr := s.busCtr + 1 }) ∧
    (s.busCtr = s.params.cpuPhase → 0 < s.cyc →
      step s = .next { ppuClock s with busCtr := s.busCtr + 1, cyc := s.cyc - 1, clockCount := s.clockCount + 1 })

/-- 60_exceptions R281, R292: when the processor is due, it ticks on the state that the picture unit's tick left, and the byte that a
processor read of a port draws sees the stub's counters and flags as that tick left them, as does the byte of a peek. The forms of the
two draws, `Config.portRead` and `Config.portPeek` at the draw counter with those arguments, are the model's choice (log 5). -/
def Obligations.PictureUnitAdvancesFirst : Prop :=
  ∀ s t : State, s.hasReset = true → s.busCtr = s.params.cpuPhase → cpuClock (ppuClock s) = .next t →
    step s = .next { t with busCtr := t.busCtr + 1 } ∧
    ∀ port,
      (portRead port false (ppuClock s)).1 =
        Config.portRead s.draws port (ppuClock s).ppuCycle (ppuClock s).ppuScanline (ppuClock s).frameComplete s.vblank ∧
      (portRead port true (ppuClock s)).1 =
        Config.portPeek s.draws s.clockCount port (ppuClock s).ppuCycle (ppuClock s).ppuScanline (ppuClock s).frameComplete s.vblank

/-- 60_exceptions R283: three bus clocks tick the processor exactly once and the picture unit exactly three times, whatever the phase. -/
def Obligations.ThreeBusClocksTickOnce : Prop :=
  ∀ s : State, s.hasReset = true → ∃ t, Host.Core.run Sys2Proof.core 3 s = .next t ∧
    t.clockCount = s.clockCount + 1 ∧ t.busCtr = s.busCtr ∧
    t.ppuCycle = (ppuClock (ppuClock (ppuClock s))).ppuCycle ∧
    t.ppuScanline = (ppuClock (ppuClock (ppuClock s))).ppuScanline ∧
    t.frameComplete = (ppuClock (ppuClock (ppuClock s))).frameComplete

/-- 60_exceptions R290, R294 (decisions D17, D26, D30): one tick of the stub changes its counters and, at the scanline wrap, its frame
flag, and nothing else; no step clears the frame flag, and none sets the vertical-blank flag. -/
def Obligations.PictureUnitTick : Prop :=
  (∀ s : State,
    (s.ppuCycle < 340 → ppuClock s = { s with ppuCycle := s.ppuCycle + 1 }) ∧
    (s.ppuCycle = 340 → s.ppuScanline < 260 → ppuClock s = { s with ppuCycle := 0, ppuScanline := s.ppuScanline + 1 }) ∧
    (s.ppuCycle = 340 → s.ppuScanline = 260 →
      ppuClock s = { s with ppuCycle := 0, ppuScanline := -1, frameComplete := true })) ∧
  (∀ s t : State, step s = .next t →
    (s.frameComplete = true → t.frameComplete = true) ∧ (t.vblank = true → s.vblank = true))

/-- 60_exceptions R291: a frame is 341 * 262 ticks: after so many the counters are where they were and the frame flag has been raised; from
(0, 0) the flag is first raised by the 89001st tick, which leaves the stub at (-1, 0). -/
def Obligations.FramePeriod : Prop :=
  (∀ s : State, s.stubInRange = true →
    let t := Nat.repeat ppuClock 89342 s
    t.ppuCycle = s.ppuCycle ∧ t.ppuScanline = s.ppuScanline ∧ t.frameComplete = true) ∧
  (∀ s : State, s.ppuCycle = 0 → s.ppuScanline = 0 → s.frameComplete = false →
    (∀ n, n < 89001 → (Nat.repeat ppuClock n s).frameComplete = false) ∧
    Nat.repeat ppuClock 89001 s = { s with ppuCycle := 0, ppuScanline := -1, frameComplete := true })

/-! Interrupts. -/

/-- 60_exceptions R271, R272, R274 (decision D31): with I = 1 the IRQ call changes nothing; with I = 0 it pushes PC, high byte first, and P
with B = 0, U = 1, I = 1, keeps that P, loads PC from 0xFFFE and overwrites the countdown with 7. -/
def Obligations.IrqEntry : Prop :=
  ∀ (s : State) (l h : Byte), s.hasReset = true → s.byteAt 0xFFFE#16 = some l → s.byteAt 0xFFFF#16 = some h →
    (getFlag .I s.p = true → hostAction .irq s = .next s) ∧
    (getFlag .I s.p = false → ∃ q t,
      getFlag .B q = false ∧ getFlag .U q = true ∧ getFlag .I q = true ∧ FlagsKept [.B, .U, .I] s.p q ∧
      hostAction .irq s = .next t ∧
      t = { s with
            ram := ((s.ram.write (stackOffset s.sp) (hiByte s.pc)).write (stackOffset (s.sp - 1#8)) (loByte s.pc)).write
              (stackOffset (s.sp - 2#8)) q
            sp := s.sp - 3#8, p := q, pc := joinBytes h l, cyc := 7 } ∧
      KeepsMemoryBut [stackOffset s.sp, stackOffset (s.sp - 1#8), stackOffset (s.sp - 2#8)] s t)

/-- 60_exceptions R273, R274 (decision D31): the NMI call does the same whatever I is, with the vector at 0xFFFA and the countdown 8. -/
def Obligations.NmiEntry : Prop :=
  ∀ (s : State) (l h : Byte), s.hasReset = true → s.byteAt 0xFFFA#16 = some l → s.byteAt 0xFFFB#16 = some h → ∃ q t,
    getFlag .B q = false ∧ getFlag .U q = true ∧ getFlag .I q = true ∧ FlagsKept [.B, .U, .I] s.p q ∧
    hostAction .nmi s = .next t ∧
    t = { s with
          ram := ((s.ram.write (stackOffset s.sp) (hiByte s.pc)).write (stackOffset (s.sp - 1#8)) (loByte s.pc)).write
            (stackOffset (s.sp - 2#8)) q
          sp := s.sp - 3#8, p := q, pc := joinBytes h l, cyc := 8 } ∧
    KeepsMemoryBut [stackOffset s.sp, stackOffset (s.sp - 1#8), stackOffset (s.sp - 2#8)] s t

/-- 60_exceptions R278: an RTI right after an interrupt entry goes back to the interrupted address and SP, with I = 1 and the other flags
as before the entry. -/
def Obligations.RtiAfterInterruptLeavesMasked : Prop :=
  ∀ s u : State, s.memoriesWf = true →
    (exec .rti (nmiRequest s) = .next u ∨ (getFlag .I s.p = false ∧ exec .rti (irqRequest s) = .next u)) →
    u.pc = s.pc ∧ u.sp = s.sp ∧ getFlag .I u.p = true ∧ FlagsKept [.B, .U, .I] s.p u.p

/-- 60_exceptions R275: an IRQ call right after an NMI call is discarded; an NMI call right after a taken IRQ is taken too and its frame
returns into the IRQ handler. -/
def Obligations.InterruptCallsInOneGap : Prop :=
  ∀ s : State, s.hasReset = true →
    runActions [.nmi, .irq] s = hostAction .nmi s ∧
    (s.memoriesWf = true → getFlag .I s.p = false → ∃ t, runActions [.irq, .nmi] s = .next t ∧ t.sp = s.sp - 6#8 ∧ t.cyc = 8 ∧
      ∃ u, exec .rti t = .next u ∧ u.pc = (irqRequest s).pc)

/-! Reset. -/

/-- 70_reset R310, R311, R312, 10_state R44 (decisions D1, D15, D19): what a bus reset under legal parameters leaves, from any state; the
vertical-blank flag is a draw (log 4) and the two model fields are the model's own (log 5, log 8). With an empty slot, no byte of
RAM listed and default parameters it leaves the model's State.reset (log 2, log 3). -/
def Obligations.BusResetValues : Prop :=
  (∀ (s : State) (l h : Byte), paramsLegal s.params = true → s.byteAt 0xFFFC#16 = some l → s.byteAt 0xFFFD#16 = some h →
    hostAction .busReset s =
      .next { s with
              a := 0x00#8, x := 0x00#8, y := 0x00#8, sp := 0xFD#8, pc := joinBytes h l, p := s.params.pReset, cyc := 8
              opcode := 0x00#8, ea := 0x0000#16, clockCount := 0, busCtr := 0
              ppuCycle := s.params.ppuResetCycle, ppuScanline := s.params.ppuResetScanline, frameComplete := false
              vblank := Config.vblankInit s.draws, draws := s.draws + 1, hasReset := true }) ∧
  (∀ s : State, s.cart = none → s.ram = [] → s.params = Config.defaultParams → s.draws = 0 →
    hostAction .busReset s = .next State.reset)

/-- 70_reset R315, 40_dispatch R131: after a bus reset with CPU_PHASE 0 the first 24 bus clocks only count: the 25th is at an instruction
boundary, eight processor clocks have passed, and no register, flag or byte of memory has changed. -/
def Obligations.FirstFetchIsInTheNinthClock : Prop :=
  ∀ s : State, s.params.cpuPhase = 0 → ∃ t, Host.Core.run Sys2Proof.core 24 (busReset s) = .next t ∧
    t = { busReset s with
          cyc := 0, clockCount := 8, busCtr := 0, ppuCycle := t.ppuCycle, ppuScanline := t.ppuScanline
          frameComplete := t.frameComplete } ∧
    ∀ k, k < 24 → ∃ u, Host.Core.run Sys2Proof.core k (busReset s) = .next u ∧ u.pc = (busReset s).pc

/-! Whole-machine rules. -/

/-- 60_exceptions R270, R303: "designed to never stop ticking once started": every instruction answers a next state; in every state after
the first reset a step answers a next state, which is again one after the first reset; and so every run, however long, has no fault
and no refusal. `hasReset` is the model's own field (log 8). -/
def Obligations.NeverStopsTicking : Prop :=
  (∀ (i : Instr) (s : State), ∃ t, exec i s = .next t) ∧
  (∀ s : State, s.hasReset = true → ∃ t, step s = .next t ∧ t.hasReset = true) ∧
  (∀ (k : Nat) (s : State), s.hasReset = true → ∃ t, Host.Core.run Sys2Proof.core k s = .next t)

/-- 10_state R23, R29 to R33, R41, R42; 60_exceptions R292: every instruction keeps the stub's counters and frame flag, the ratio counter,
the clock count, `opcode` (written by the fetch, log 10), and every field of the cartridge but the bytes of its program memory; it never sets the
vertical-blank flag, which a read of port 2 clears. It keeps the model's `params` (log 6) and `hasReset` (log 8). -/
def Obligations.InstructionsKeepCountersAndCartridgeHeader : Prop :=
  ∀ (i : Instr) (s t : State), exec i s = .next t →
    t.ppuCycle = s.ppuCycle ∧ t.ppuScanline = s.ppuScanline ∧ t.frameComplete = s.frameComplete ∧
    (t.vblank = true → s.vblank = true) ∧ t.busCtr = s.busCtr ∧
    t.clockCount = s.clockCount ∧ t.opcode = s.opcode ∧ t.params = s.params ∧ t.hasReset = s.hasReset ∧
    ∃ prg, t.cart = s.cart.map (fun c => { c with prg := prg })

/-- The state after reset meets the invariant of a run and holds B = 0 and U = 1 (10_state R28, R42). -/
def Obligations.ResetMeetsTheInvariant : Prop := State.reset.Inv ∧ State.reset.statusHeld = true

/-- The invariant of a run is kept by every step: memories canonical, the stub's counters in range (10_state R31, R40, R42), parameters
legal, started. -/
def Obligations.StepKeepsTheInvariant : Prop := ∀ s t : State, s.Inv → step s = .next t → t.Inv

/-- Every action of the host keeps the invariant, where a cartridge it inserts has canonical memories (60_exceptions R300). -/
def Obligations.HostActionsKeepTheInvariant : Prop :=
  ∀ (act : HostAction) (s t : State), s.Inv → (∀ c, act = .insertCartridge c → c.wf = true) → hostAction act s = .next t → t.Inv

/-- 10_state R28 (decision D2): a stored B = 0 and U = 1 is kept by every step and every interrupt call: "No instruction writes B = 1 or
U = 0 into P". -/
def Obligations.StoredBAndUAreHeld : Prop :=
  ∀ s t : State, s.statusHeld = true →
    (step s = .next t → t.statusHeld = true) ∧
    (∀ act ∈ [HostAction.irq, .nmi, .cpuClock], hostAction act s = .next t → t.statusHeld = true)
end

