-- ==== Sys2Proof/Laws/Memory.lean ====
section
/-! SUPPORT. The laws of byte memories: read after write, the canonical form kept by every operation, and equality of canonical
memories that read alike. -/

namespace Sys2Proof.Machine

open Sys2Proof

theorem Memory.wfFrom_mono {size lo lo' : Nat} (m : Memory) (h : Memory.wfFrom size lo m = true) (hle : lo' ≤ lo) :
    Memory.wfFrom size lo' m = true := by
  cases m with
  | nil => rfl
  | cons e rest =>
    simp only [Memory.wfFrom, Bool.and_eq_true, decide_eq_true_eq] at h ⊢
    exact ⟨⟨⟨by omega, h.1.1.2⟩, h.1.2⟩, h.2⟩

/-- Below its lower bound a canonical memory lists nothing. -/
theorem Memory.read_below {size lo i : Nat} (m : Memory) (h : Memory.wfFrom size lo m = true) (hi : i < lo) :
    m.read i = Config.unlistedByte := by
  induction m generalizing lo with
  | nil => rfl
  | cons e rest ih =>
    simp only [Memory.wfFrom, Bool.and_eq_true, decide_eq_true_eq] at h
    have hk : e.1 ≠ i := by omega
    rw [Memory.read, if_neg hk]
    exact ih h.2 (by omega)

/-- At or above its size a canonical memory lists nothing. -/
theorem Memory.read_beyond {size lo i : Nat} (m : Memory) (h : Memory.wfFrom size lo m = true) (hi : size ≤ i) :
    m.read i = Config.unlistedByte := by
  induction m generalizing lo with
  | nil => rfl
  | cons e rest ih =>
    simp only [Memory.wfFrom, Bool.and_eq_true, decide_eq_true_eq] at h
    have hk : e.1 ≠ i := by omega
    rw [Memory.read, if_neg hk]
    exact ih h.2

/-- What a read gives after a write into a canonical memory. -/
theorem Memory.read_write {size lo : Nat} (m : Memory) (i j : Nat) (b : Byte) (h : Memory.wfFrom size lo m = true) :
    (m.write i b).read j = if j = i then b else m.read j := by
  induction m generalizing lo with
  | nil =>
    by_cases hj : j = i
    · subst hj
      by_cases hb : b = Config.unlistedByte <;> simp [Memory.write, Memory.read, hb]
    · by_cases hb : b = Config.unlistedByte <;> simp [Memory.write, Memory.read, hb, hj, Ne.symm hj]
  | cons e rest ih =>
    obtain ⟨k, v⟩ := e
    have hw := h
    simp only [Memory.wfFrom, Bool.and_eq_true, decide_eq_true_eq] at hw
    have below : ∀ n, n < k + 1 → Memory.read rest n = Config.unlistedByte := fun n hn => Memory.read_below rest hw.2 hn
    by_cases h1 : i < k
    · have hki : k ≠ i := by omega
      have hbi := below i (by omega)
      by_cases hb : b = Config.unlistedByte <;> by_cases hj : j = i
      · subst hj
        simp [Memory.write, Memory.read, h1, hb, hki, hbi]
      · simp [Memory.write, Memory.read, h1, hb, hj]
      · subst hj
        simp [Memory.write, Memory.read, h1, hb]
      · simp [Memory.write, Memory.read, h1, hb, hj, Ne.symm hj]
    · by_cases h2 : i = k
      · subst h2
        by_cases hb : b = Config.unlistedByte <;> by_cases hj : j = i
        · subst hj
          simp [Memory.write, hb, below j (by omega)]
        · simp [Memory.write, Memory.read, hb, hj, Ne.symm hj]
        · subst hj
          simp [Memory.write, Memory.read, hb]
        · simp [Memory.write, Memory.read, hb, hj, Ne.symm hj]
      · have := ih hw.2
        by_cases hk : k = j
        · subst hk
          simp [Memory.write, Memory.read, h1, h2, Ne.symm h2]
        · simp [Memory.write, Memory.read, h1, h2, hk, this]

theorem Memory.wfFrom_write {size lo : Nat} (m : Memory) (i : Nat) (b : Byte) (h : Memory.wfFrom size lo m = true)
    (hlo : lo ≤ i) (hi : i < size) : Memory.wfFrom size lo (m.write i b) = true := by
  induction m generalizing lo with
  | nil =>
    by_cases hb : b = Config.unlistedByte <;> simp [Memory.write, Memory.wfFrom, hb, hlo, hi]
  | cons e rest ih =>
    obtain ⟨k, v⟩ := e
    have hw := h
    simp only [Memory.wfFrom, Bool.and_eq_true, decide_eq_true_eq] at hw
    by_cases h1 : i < k
    · by_cases hb : b = Config.unlistedByte
      · simpa [Memory.write, h1, hb] using h
      · have hik : i + 1 ≤ k := h1
        simp [Memory.write, Memory.wfFrom, h1, hb, hlo, hi, hik, hw.1.1.2, hw.1.2, hw.2]
    · by_cases h2 : i = k
      · subst h2
        by_cases hb : b = Config.unlistedByte
        · simpa [Memory.write, hb] using Memory.wfFrom_mono rest hw.2 (by omega)
        · simp [Memory.write, Memory.wfFrom, hb, hlo, hi, hw.2]
      · have := ih hw.2 (by omega)
        simp [Memory.write, Memory.wfFrom, h1, h2, hw.1.1.1, hw.1.1.2, hw.1.2, this]

/-- A write within the memory's size keeps the canonical form. -/
theorem Memory.wf_write {size : Nat} (m : Memory) (i : Nat) (b : Byte) (h : Memory.wf size m = true) (hi : i < size) :
    Memory.wf size (m.write i b) = true :=
  Memory.wfFrom_write m i b h (Nat.zero_le i) hi

theorem Memory.ext_wfFrom {size lo lo' : Nat} (m n : Memory) (hm : Memory.wfFrom size lo m = true)
    (hn : Memory.wfFrom size lo' n = true) (h : ∀ i, m.read i = n.read i) : m = n := by
  induction m generalizing lo lo' n with
  | nil =>
    cases n with
    | nil => rfl
    | cons e rest =>
      simp only [Memory.wfFrom, Bool.and_eq_true, decide_eq_true_eq] at hn
      exact absurd (by simpa [Memory.read] using (h e.1).symm) hn.1.2
  | cons e rest ih =>
    obtain ⟨k, v⟩ := e
    simp only [Memory.wfFrom, Bool.and_eq_true, decide_eq_true_eq] at hm
    cases n with
    | nil => exact absurd (by simpa [Memory.read] using h k) hm.1.2
    | cons e' rest' =>
      obtain ⟨k', v'⟩ := e'
      simp only [Memory.wfFrom, Bool.and_eq_true, decide_eq_true_eq] at hn
      have hkk : k = k' := by
        rcases Nat.lt_trichotomy k k' with hlt | heq | hgt
        · have hk := h k
          rw [Memory.read, if_pos rfl, Memory.read, if_neg (by omega : k' ≠ k),
            Memory.read_below rest' hn.2 (by omega)] at hk
          exact absurd hk hm.1.2
        · exact heq
        · have hk := h k'
          rw [Memory.read, if_neg (by omega : k ≠ k'), Memory.read_below rest hm.2 (by omega), Memory.read, if_pos rfl] at hk
          exact absurd hk.symm hn.1.2
      subst hkk
      have hv : v = v' := by simpa [Memory.read] using h k
      subst hv
      have htail : rest = rest' := by
        refine ih rest' hm.2 hn.2 fun i => ?_
        by_cases hi : k = i
        · subst hi
          rw [Memory.read_below rest hm.2 (by omega), Memory.read_below rest' hn.2 (by omega)]
        · simpa [Memory.read, hi] using h i
      rw [htail]

theorem Memory.wfFrom_ofBytesAt {size : Nat} (bytes : List Byte) (i : Nat) (h : i + bytes.length ≤ size) :
    Memory.wfFrom size i (Memory.ofBytesAt i bytes) = true := by
  induction bytes generalizing i with
  | nil => rfl
  | cons b rest ih =>
    have hlen : i + 1 + rest.length ≤ size := by simpa [Nat.add_assoc, Nat.add_comm 1] using h
    have := ih (i + 1) hlen
    by_cases hb : b = Config.unlistedByte
    · simpa [Memory.ofBytesAt, hb] using Memory.wfFrom_mono _ this (by omega)
    · simp [Memory.ofBytesAt, Memory.wfFrom, hb, this]
      omega

theorem Memory.read_ofBytesAt (bytes : List Byte) (i j : Nat) :
    (Memory.ofBytesAt i bytes).read (i + j) = bytes.getD j Config.unlistedByte := by
  induction bytes generalizing i j with
  | nil => rfl
  | cons b rest ih =>
    have below : Memory.read (Memory.ofBytesAt (i + 1) rest) i = Config.unlistedByte :=
      Memory.read_below (size := i + 1 + rest.length) _ (Memory.wfFrom_ofBytesAt rest (i + 1) (by omega)) (by omega)
    cases j with
    | zero => by_cases hb : b = Config.unlistedByte <;> simp [Memory.ofBytesAt, Memory.read, hb, below]
    | succ j =>
      have hs : i + (j + 1) = i + 1 + j := by omega
      have hne : ¬ i = i + 1 + j := by omega
      by_cases hb : b = Config.unlistedByte <;> simp [Memory.ofBytesAt, Memory.read, hb, hs, hne, ih]

/-- The memory of some bytes reads as those bytes. -/
theorem Memory.read_ofBytes (bytes : List Byte) (j : Nat) :
    (Memory.ofBytes bytes).read j = bytes.getD j Config.unlistedByte := by
  simpa [Memory.ofBytes] using Memory.read_ofBytesAt bytes 0 j

/-- The memory of some bytes is canonical. -/
theorem Memory.wf_ofBytes {size : Nat} (bytes : List Byte) (h : bytes.length ≤ size) :
    Memory.wf size (Memory.ofBytes bytes) = true :=
  Memory.wfFrom_ofBytesAt bytes 0 (by simpa using h)

end Sys2Proof.Machine
end

