-- ==== Sys2Proof/Laws/State.lean ====
section
/-! SUPPORT. What each setter of State.lean does to each field: one lemma per setter and field, true by `rfl`. -/

namespace Sys2Proof.Machine

variable (s : State)

@[simp] theorem State.setA_a (v : Byte) : (s.setA v).a = v := rfl
@[simp] theorem State.setA_x (v : Byte) : (s.setA v).x = s.x := rfl
@[simp] theorem State.setA_y (v : Byte) : (s.setA v).y = s.y := rfl
@[simp] theorem State.setA_sp (v : Byte) : (s.setA v).sp = s.sp := rfl
@[simp] theorem State.setA_pc (v : Byte) : (s.setA v).pc = s.pc := rfl
@[simp] theorem State.setA_p (v : Byte) : (s.setA v).p = s.p := rfl
@[simp] theorem State.setA_cyc (v : Byte) : (s.setA v).cyc = s.cyc := rfl
@[simp] theorem State.setA_opcode (v : Byte) : (s.setA v).opcode = s.opcode := rfl
@[simp] theorem State.setA_ea (v : Byte) : (s.setA v).ea = s.ea := rfl
@[simp] theorem State.setA_clockCount (v : Byte) : (s.setA v).clockCount = s.clockCount := rfl
@[simp] theorem State.setA_ram (v : Byte) : (s.setA v).ram = s.ram := rfl
@[simp] theorem State.setA_busCtr (v : Byte) : (s.setA v).busCtr = s.busCtr := rfl
@[simp] theorem State.setA_cart (v : Byte) : (s.setA v).cart = s.cart := rfl
@[simp] theorem State.setA_ppuCycle (v : Byte) : (s.setA v).ppuCycle = s.ppuCycle := rfl
@[simp] theorem State.setA_ppuScanline (v : Byte) : (s.setA v).ppuScanline = s.ppuScanline := rfl
@[simp] theorem State.setA_frameComplete (v : Byte) : (s.setA v).frameComplete = s.frameComplete := rfl
@[simp] theorem State.setA_vblank (v : Byte) : (s.setA v).vblank = s.vblank := rfl
@[simp] theorem State.setA_params (v : Byte) : (s.setA v).params = s.params := rfl
@[simp] theorem State.setA_hasReset (v : Byte) : (s.setA v).hasReset = s.hasReset := rfl
@[simp] theorem State.setA_draws (v : Byte) : (s.setA v).draws = s.draws := rfl

@[simp] theorem State.setX_a (v : Byte) : (s.setX v).a = s.a := rfl
@[simp] theorem State.setX_x (v : Byte) : (s.setX v).x = v := rfl
@[simp] theorem State.setX_y (v : Byte) : (s.setX v).y = s.y := rfl
@[simp] theorem State.setX_sp (v : Byte) : (s.setX v).sp = s.sp := rfl
@[simp] theorem State.setX_pc (v : Byte) : (s.setX v).pc = s.pc := rfl
@[simp] theorem State.setX_p (v : Byte) : (s.setX v).p = s.p := rfl
@[simp] theorem State.setX_cyc (v : Byte) : (s.setX v).cyc = s.cyc := rfl
@[simp] theorem State.setX_opcode (v : Byte) : (s.setX v).opcode = s.opcode := rfl
@[simp] theorem State.setX_ea (v : Byte) : (s.setX v).ea = s.ea := rfl
@[simp] theorem State.setX_clockCount (v : Byte) : (s.setX v).clockCount = s.clockCount := rfl
@[simp] theorem State.setX_ram (v : Byte) : (s.setX v).ram = s.ram := rfl
@[simp] theorem State.setX_busCtr (v : Byte) : (s.setX v).busCtr = s.busCtr := rfl
@[simp] theorem State.setX_cart (v : Byte) : (s.setX v).cart = s.cart := rfl
@[simp] theorem State.setX_ppuCycle (v : Byte) : (s.setX v).ppuCycle = s.ppuCycle := rfl
@[simp] theorem State.setX_ppuScanline (v : Byte) : (s.setX v).ppuScanline = s.ppuScanline := rfl
@[simp] theorem State.setX_frameComplete (v : Byte) : (s.setX v).frameComplete = s.frameComplete := rfl
@[simp] theorem State.setX_vblank (v : Byte) : (s.setX v).vblank = s.vblank := rfl
@[simp] theorem State.setX_params (v : Byte) : (s.setX v).params = s.params := rfl
@[simp] theorem State.setX_hasReset (v : Byte) : (s.setX v).hasReset = s.hasReset := rfl
@[simp] theorem State.setX_draws (v : Byte) : (s.setX v).draws = s.draws := rfl

@[simp] theorem State.setY_a (v : Byte) : (s.setY v).a = s.a := rfl
@[simp] theorem State.setY_x (v : Byte) : (s.setY v).x = s.x := rfl
@[simp] theorem State.setY_y (v : Byte) : (s.setY v).y = v := rfl
@[simp] theorem State.setY_sp (v : Byte) : (s.setY v).sp = s.sp := rfl
@[simp] theorem State.setY_pc (v : Byte) : (s.setY v).pc = s.pc := rfl
@[simp] theorem State.setY_p (v : Byte) : (s.setY v).p = s.p := rfl
@[simp] theorem State.setY_cyc (v : Byte) : (s.setY v).cyc = s.cyc := rfl
@[simp] theorem State.setY_opcode (v : Byte) : (s.setY v).opcode = s.opcode := rfl
@[simp] theorem State.setY_ea (v : Byte) : (s.setY v).ea = s.ea := rfl
@[simp] theorem State.setY_clockCount (v : Byte) : (s.setY v).clockCount = s.clockCount := rfl
@[simp] theorem State.setY_ram (v : Byte) : (s.setY v).ram = s.ram := rfl
@[simp] theorem State.setY_busCtr (v : Byte) : (s.setY v).busCtr = s.busCtr := rfl
@[simp] theorem State.setY_cart (v : Byte) : (s.setY v).cart = s.cart := rfl
@[simp] theorem State.setY_ppuCycle (v : Byte) : (s.setY v).ppuCycle = s.ppuCycle := rfl
@[simp] theorem State.setY_ppuScanline (v : Byte) : (s.setY v).ppuScanline = s.ppuScanline := rfl
@[simp] theorem State.setY_frameComplete (v : Byte) : (s.setY v).frameComplete = s.frameComplete := rfl
@[simp] theorem State.setY_vblank (v : Byte) : (s.setY v).vblank = s.vblank := rfl
@[simp] theorem State.setY_params (v : Byte) : (s.setY v).params = s.params := rfl
@[simp] theorem State.setY_hasReset (v : Byte) : (s.setY v).hasReset = s.hasReset := rfl
@[simp] theorem State.setY_draws (v : Byte) : (s.setY v).draws = s.draws := rfl

@[simp] theorem State.setSp_a (v : Byte) : (s.setSp v).a = s.a := rfl
@[simp] theorem State.setSp_x (v : Byte) : (s.setSp v).x = s.x := rfl
@[simp] theorem State.setSp_y (v : Byte) : (s.setSp v).y = s.y := rfl
@[simp] theorem State.setSp_sp (v : Byte) : (s.setSp v).sp = v := rfl
@[simp] theorem State.setSp_pc (v : Byte) : (s.setSp v).pc = s.pc := rfl
@[simp] theorem State.setSp_p (v : Byte) : (s.setSp v).p = s.p := rfl
@[simp] theorem State.setSp_cyc (v : Byte) : (s.setSp v).cyc = s.cyc := rfl
@[simp] theorem State.setSp_opcode (v : Byte) : (s.setSp v).opcode = s.opcode := rfl
@[simp] theorem State.setSp_ea (v : Byte) : (s.setSp v).ea = s.ea := rfl
@[simp] theorem State.setSp_clockCount (v : Byte) : (s.setSp v).clockCount = s.clockCount := rfl
@[simp] theorem State.setSp_ram (v : Byte) : (s.setSp v).ram = s.ram := rfl
@[simp] theorem State.setSp_busCtr (v : Byte) : (s.setSp v).busCtr = s.busCtr := rfl
@[simp] theorem State.setSp_cart (v : Byte) : (s.setSp v).cart = s.cart := rfl
@[simp] theorem State.setSp_ppuCycle (v : Byte) : (s.setSp v).ppuCycle = s.ppuCycle := rfl
@[simp] theorem State.setSp_ppuScanline (v : Byte) : (s.setSp v).ppuScanline = s.ppuScanline := rfl
@[simp] theorem State.setSp_frameComplete (v : Byte) : (s.setSp v).frameComplete = s.frameComplete := rfl
@[simp] theorem State.setSp_vblank (v : Byte) : (s.setSp v).vblank = s.vblank := rfl
@[simp] theorem State.setSp_params (v : Byte) : (s.setSp v).params = s.params := rfl
@[simp] theorem State.setSp_hasReset (v : Byte) : (s.setSp v).hasReset = s.hasReset := rfl
@[simp] theorem State.setSp_draws (v : Byte) : (s.setSp v).draws = s.draws := rfl

@[simp] theorem State.setPc_a (v : Word) : (s.setPc v).a = s.a := rfl
@[simp] theorem State.setPc_x (v : Word) : (s.setPc v).x = s.x := rfl
@[simp] theorem State.setPc_y (v : Word) : (s.setPc v).y = s.y := rfl
@[simp] theorem State.setPc_sp (v : Word) : (s.setPc v).sp = s.sp := rfl
@[simp] theorem State.setPc_pc (v : Word) : (s.setPc v).pc = v := rfl
@[simp] theorem State.setPc_p (v : Word) : (s.setPc v).p = s.p := rfl
@[simp] theorem State.setPc_cyc (v : Word) : (s.setPc v).cyc = s.cyc := rfl
@[simp] theorem State.setPc_opcode (v : Word) : (s.setPc v).opcode = s.opcode := rfl
@[simp] theorem State.setPc_ea (v : Word) : (s.setPc v).ea = s.ea := rfl
@[simp] theorem State.setPc_clockCount (v : Word) : (s.setPc v).clockCount = s.clockCount := rfl
@[simp] theorem State.setPc_ram (v : Word) : (s.setPc v).ram = s.ram := rfl
@[simp] theorem State.setPc_busCtr (v : Word) : (s.setPc v).busCtr = s.busCtr := rfl
@[simp] theorem State.setPc_cart (v : Word) : (s.setPc v).cart = s.cart := rfl
@[simp] theorem State.setPc_ppuCycle (v : Word) : (s.setPc v).ppuCycle = s.ppuCycle := rfl
@[simp] theorem State.setPc_ppuScanline (v : Word) : (s.setPc v).ppuScanline = s.ppuScanline := rfl
@[simp] theorem State.setPc_frameComplete (v : Word) : (s.setPc v).frameComplete = s.frameComplete := rfl
@[simp] theorem State.setPc_vblank (v : Word) : (s.setPc v).vblank = s.vblank := rfl
@[simp] theorem State.setPc_params (v : Word) : (s.setPc v).params = s.params := rfl
@[simp] theorem State.setPc_hasReset (v : Word) : (s.setPc v).hasReset = s.hasReset := rfl
@[simp] theorem State.setPc_draws (v : Word) : (s.setPc v).draws = s.draws := rfl

@[simp] theorem State.setP_a (v : Byte) : (s.setP v).a = s.a := rfl
@[simp] theorem State.setP_x (v : Byte) : (s.setP v).x = s.x := rfl
@[simp] theorem State.setP_y (v : Byte) : (s.setP v).y = s.y := rfl
@[simp] theorem State.setP_sp (v : Byte) : (s.setP v).sp = s.sp := rfl
@[simp] theorem State.setP_pc (v : Byte) : (s.setP v).pc = s.pc := rfl
@[simp] theorem State.setP_p (v : Byte) : (s.setP v).p = v := rfl
@[simp] theorem State.setP_cyc (v : Byte) : (s.setP v).cyc = s.cyc := rfl
@[simp] theorem State.setP_opcode (v : Byte) : (s.setP v).opcode = s.opcode := rfl
@[simp] theorem State.setP_ea (v : Byte) : (s.setP v).ea = s.ea := rfl
@[simp] theorem State.setP_clockCount (v : Byte) : (s.setP v).clockCount = s.clockCount := rfl
@[simp] theorem State.setP_ram (v : Byte) : (s.setP v).ram = s.ram := rfl
@[simp] theorem State.setP_busCtr (v : Byte) : (s.setP v).busCtr = s.busCtr := rfl
@[simp] theorem State.setP_cart (v : Byte) : (s.setP v).cart = s.cart := rfl
@[simp] theorem State.setP_ppuCycle (v : Byte) : (s.setP v).ppuCycle = s.ppuCycle := rfl
@[simp] theorem State.setP_ppuScanline (v : Byte) : (s.setP v).ppuScanline = s.ppuScanline := rfl
@[simp] theorem State.setP_frameComplete (v : Byte) : (s.setP v).frameComplete = s.frameComplete := rfl
@[simp] theorem State.setP_vblank (v : Byte) : (s.setP v).vblank = s.vblank := rfl
@[simp] theorem State.setP_params (v : Byte) : (s.setP v).params = s.params := rfl
@[simp] theorem State.setP_hasReset (v : Byte) : (s.setP v).hasReset = s.hasReset := rfl
@[simp] theorem State.setP_draws (v : Byte) : (s.setP v).draws = s.draws := rfl

@[simp] theorem State.setCyc_a (v : Nat) : (s.setCyc v).a = s.a := rfl
@[simp] theorem State.setCyc_x (v : Nat) : (s.setCyc v).x = s.x := rfl
@[simp] theorem State.setCyc_y (v : Nat) : (s.setCyc v).y = s.y := rfl
@[simp] theorem State.setCyc_sp (v : Nat) : (s.setCyc v).sp = s.sp := rfl
@[simp] theorem State.setCyc_pc (v : Nat) : (s.setCyc v).pc = s.pc := rfl
@[simp] theorem State.setCyc_p (v : Nat) : (s.setCyc v).p = s.p := rfl
@[simp] theorem State.setCyc_cyc (v : Nat) : (s.setCyc v).cyc = v := rfl
@[simp] theorem State.setCyc_opcode (v : Nat) : (s.setCyc v).opcode = s.opcode := rfl
@[simp] theorem State.setCyc_ea (v : Nat) : (s.setCyc v).ea = s.ea := rfl
@[simp] theorem State.setCyc_clockCount (v : Nat) : (s.setCyc v).clockCount = s.clockCount := rfl
@[simp] theorem State.setCyc_ram (v : Nat) : (s.setCyc v).ram = s.ram := rfl
@[simp] theorem State.setCyc_busCtr (v : Nat) : (s.setCyc v).busCtr = s.busCtr := rfl
@[simp] theorem State.setCyc_cart (v : Nat) : (s.setCyc v).cart = s.cart := rfl
@[simp] theorem State.setCyc_ppuCycle (v : Nat) : (s.setCyc v).ppuCycle = s.ppuCycle := rfl
@[simp] theorem State.setCyc_ppuScanline (v : Nat) : (s.setCyc v).ppuScanline = s.ppuScanline := rfl
@[simp] theorem State.setCyc_frameComplete (v : Nat) : (s.setCyc v).frameComplete = s.frameComplete := rfl
@[simp] theorem State.setCyc_vblank (v : Nat) : (s.setCyc v).vblank = s.vblank := rfl
@[simp] theorem State.setCyc_params (v : Nat) : (s.setCyc v).params = s.params := rfl
@[simp] theorem State.setCyc_hasReset (v : Nat) : (s.setCyc v).hasReset = s.hasReset := rfl
@[simp] theorem State.setCyc_draws (v : Nat) : (s.setCyc v).draws = s.draws := rfl

@[simp] theorem State.setOpcode_a (v : Byte) : (s.setOpcode v).a = s.a := rfl
@[simp] theorem State.setOpcode_x (v : Byte) : (s.setOpcode v).x = s.x := rfl
@[simp] theorem State.setOpcode_y (v : Byte) : (s.setOpcode v).y = s.y := rfl
@[simp] theorem State.setOpcode_sp (v : Byte) : (s.setOpcode v).sp = s.sp := rfl
@[simp] theorem State.setOpcode_pc (v : Byte) : (s.setOpcode v).pc = s.pc := rfl
@[simp] theorem State.setOpcode_p (v : Byte) : (s.setOpcode v).p = s.p := rfl
@[simp] theorem State.setOpcode_cyc (v : Byte) : (s.setOpcode v).cyc = s.cyc := rfl
@[simp] theorem State.setOpcode_opcode (v : Byte) : (s.setOpcode v).opcode = v := rfl
@[simp] theorem State.setOpcode_ea (v : Byte) : (s.setOpcode v).ea = s.ea := rfl
@[simp] theorem State.setOpcode_clockCount (v : Byte) : (s.setOpcode v).clockCount = s.clockCount := rfl
@[simp] theorem State.setOpcode_ram (v : Byte) : (s.setOpcode v).ram = s.ram := rfl
@[simp] theorem State.setOpcode_busCtr (v : Byte) : (s.setOpcode v).busCtr = s.busCtr := rfl
@[simp] theorem State.setOpcode_cart (v : Byte) : (s.setOpcode v).cart = s.cart := rfl
@[simp] theorem State.setOpcode_ppuCycle (v : Byte) : (s.setOpcode v).ppuCycle = s.ppuCycle := rfl
@[simp] theorem State.setOpcode_ppuScanline (v : Byte) : (s.setOpcode v).ppuScanline = s.ppuScanline := rfl
@[simp] theorem State.setOpcode_frameComplete (v : Byte) : (s.setOpcode v).frameComplete = s.frameComplete := rfl
@[simp] theorem State.setOpcode_vblank (v : Byte) : (s.setOpcode v).vblank = s.vblank := rfl
@[simp] theorem State.setOpcode_params (v : Byte) : (s.setOpcode v).params = s.params := rfl
@[simp] theorem State.setOpcode_hasReset (v : Byte) : (s.setOpcode v).hasReset = s.hasReset := rfl
@[simp] theorem State.setOpcode_draws (v : Byte) : (s.setOpcode v).draws = s.draws := rfl

@[simp] theorem State.setEa_a (v : Word) : (s.setEa v).a = s.a := rfl
@[simp] theorem State.setEa_x (v : Word) : (s.setEa v).x = s.x := rfl
@[simp] theorem State.setEa_y (v : Word) : (s.setEa v).y = s.y := rfl
@[simp] theorem State.setEa_sp (v : Word) : (s.setEa v).sp = s.sp := rfl
@[simp] theorem State.setEa_pc (v : Word) : (s.setEa v).pc = s.pc := rfl
@[simp] theorem State.setEa_p (v : Word) : (s.setEa v).p = s.p := rfl
@[simp] theorem State.setEa_cyc (v : Word) : (s.setEa v).cyc = s.cyc := rfl
@[simp] theorem State.setEa_opcode (v : Word) : (s.setEa v).opcode = s.opcode := rfl
@[simp] theorem State.setEa_ea (v : Word) : (s.setEa v).ea = v := rfl
@[simp] theorem State.setEa_clockCount (v : Word) : (s.setEa v).clockCount = s.clockCount := rfl
@[simp] theorem State.setEa_ram (v : Word) : (s.setEa v).ram = s.ram := rfl
@[simp] theorem State.setEa_busCtr (v : Word) : (s.setEa v).busCtr = s.busCtr := rfl
@[simp] theorem State.setEa_cart (v : Word) : (s.setEa v).cart = s.cart := rfl
@[simp] theorem State.setEa_ppuCycle (v : Word) : (s.setEa v).ppuCycle = s.ppuCycle := rfl
@[simp] theorem State.setEa_ppuScanline (v : Word) : (s.setEa v).ppuScanline = s.ppuScanline := rfl
@[simp] theorem State.setEa_frameComplete (v : Word) : (s.setEa v).frameComplete = s.frameComplete := rfl
@[simp] theorem State.setEa_vblank (v : Word) : (s.setEa v).vblank = s.vblank := rfl
@[simp] theorem State.setEa_params (v : Word) : (s.setEa v).params = s.params := rfl
@[simp] theorem State.setEa_hasReset (v : Word) : (s.setEa v).hasReset = s.hasReset := rfl
@[simp] theorem State.setEa_draws (v : Word) : (s.setEa v).draws = s.draws := rfl

@[simp] theorem State.setClockCount_a (v : Nat) : (s.setClockCount v).a = s.a := rfl
@[simp] theorem State.setClockCount_x (v : Nat) : (s.setClockCount v).x = s.x := rfl
@[simp] theorem State.setClockCount_y (v : Nat) : (s.setClockCount v).y = s.y := rfl
@[simp] theorem State.setClockCount_sp (v : Nat) : (s.setClockCount v).sp = s.sp := rfl
@[simp] theorem State.setClockCount_pc (v : Nat) : (s.setClockCount v).pc = s.pc := rfl
@[simp] theorem State.setClockCount_p (v : Nat) : (s.setClockCount v).p = s.p := rfl
@[simp] theorem State.setClockCount_cyc (v : Nat) : (s.setClockCount v).cyc = s.cyc := rfl
@[simp] theorem State.setClockCount_opcode (v : Nat) : (s.setClockCount v).opcode = s.opcode := rfl
@[simp] theorem State.setClockCount_ea (v : Nat) : (s.setClockCount v).ea = s.ea := rfl
@[simp] theorem State.setClockCount_clockCount (v : Nat) : (s.setClockCount v).clockCount = v := rfl
@[simp] theorem State.setClockCount_ram (v : Nat) : (s.setClockCount v).ram = s.ram := rfl
@[simp] theorem State.setClockCount_busCtr (v : Nat) : (s.setClockCount v).busCtr = s.busCtr := rfl
@[simp] theorem State.setClockCount_cart (v : Nat) : (s.setClockCount v).cart = s.cart := rfl
@[simp] theorem State.setClockCount_ppuCycle (v : Nat) : (s.setClockCount v).ppuCycle = s.ppuCycle := rfl
@[simp] theorem State.setClockCount_ppuScanline (v : Nat) : (s.setClockCount v).ppuScanline = s.ppuScanline := rfl
@[simp] theorem State.setClockCount_frameComplete (v : Nat) : (s.setClockCount v).frameComplete = s.frameComplete := rfl
@[simp] theorem State.setClockCount_vblank (v : Nat) : (s.setClockCount v).vblank = s.vblank := rfl
@[simp] theorem State.setClockCount_params (v : Nat) : (s.setClockCount v).params = s.params := rfl
@[simp] theorem State.setClockCount_hasReset (v : Nat) : (s.setClockCount v).hasReset = s.hasReset := rfl
@[simp] theorem State.setClockCount_draws (v : Nat) : (s.setClockCount v).draws = s.draws := rfl

@[simp] theorem State.setRam_a (v : Memory) : (s.setRam v).a = s.a := rfl
@[simp] theorem State.setRam_x (v : Memory) : (s.setRam v).x = s.x := rfl
@[simp] theorem State.setRam_y (v : Memory) : (s.setRam v).y = s.y := rfl
@[simp] theorem State.setRam_sp (v : Memory) : (s.setRam v).sp = s.sp := rfl
@[simp] theorem State.setRam_pc (v : Memory) : (s.setRam v).pc = s.pc := rfl
@[simp] theorem State.setRam_p (v : Memory) : (s.setRam v).p = s.p := rfl
@[simp] theorem State.setRam_cyc (v : Memory) : (s.setRam v).cyc = s.cyc := rfl
@[simp] theorem State.setRam_opcode (v : Memory) : (s.setRam v).opcode = s.opcode := rfl
@[simp] theorem State.setRam_ea (v : Memory) : (s.setRam v).ea = s.ea := rfl
@[simp] theorem State.setRam_clockCount (v : Memory) : (s.setRam v).clockCount = s.clockCount := rfl
@[simp] theorem State.setRam_ram (v : Memory) : (s.setRam v).ram = v := rfl
@[simp] theorem State.setRam_busCtr (v : Memory) : (s.setRam v).busCtr = s.busCtr := rfl
@[simp] theorem State.setRam_cart (v : Memory) : (s.setRam v).cart = s.cart := rfl
@[simp] theorem State.setRam_ppuCycle (v : Memory) : (s.setRam v).ppuCycle = s.ppuCycle := rfl
@[simp] theorem State.setRam_ppuScanline (v : Memory) : (s.setRam v).ppuScanline = s.ppuScanline := rfl
@[simp] theorem State.setRam_frameComplete (v : Memory) : (s.setRam v).frameComplete = s.frameComplete := rfl
@[simp] theorem State.setRam_vblank (v : Memory) : (s.setRam v).vblank = s.vblank := rfl
@[simp] theorem State.setRam_params (v : Memory) : (s.setRam v).params = s.params := rfl
@[simp] theorem State.setRam_hasReset (v : Memory) : (s.setRam v).hasReset = s.hasReset := rfl
@[simp] theorem State.setRam_draws (v : Memory) : (s.setRam v).draws = s.draws := rfl

@[simp] theorem State.setBusCtr_a (v : Fin 3) : (s.setBusCtr v).a = s.a := rfl
@[simp] theorem State.setBusCtr_x (v : Fin 3) : (s.setBusCtr v).x = s.x := rfl
@[simp] theorem State.setBusCtr_y (v : Fin 3) : (s.setBusCtr v).y = s.y := rfl
@[simp] theorem State.setBusCtr_sp (v : Fin 3) : (s.setBusCtr v).sp = s.sp := rfl
@[simp] theorem State.setBusCtr_pc (v : Fin 3) : (s.setBusCtr v).pc = s.pc := rfl
@[simp] theorem State.setBusCtr_p (v : Fin 3) : (s.setBusCtr v).p = s.p := rfl
@[simp] theorem State.setBusCtr_cyc (v : Fin 3) : (s.setBusCtr v).cyc = s.cyc := rfl
@[simp] theorem State.setBusCtr_opcode (v : Fin 3) : (s.setBusCtr v).opcode = s.opcode := rfl
@[simp] theorem State.setBusCtr_ea (v : Fin 3) : (s.setBusCtr v).ea = s.ea := rfl
@[simp] theorem State.setBusCtr_clockCount (v : Fin 3) : (s.setBusCtr v).clockCount = s.clockCount := rfl
@[simp] theorem State.setBusCtr_ram (v : Fin 3) : (s.setBusCtr v).ram = s.ram := rfl
@[simp] theorem State.setBusCtr_busCtr (v : Fin 3) : (s.setBusCtr v).busCtr = v := rfl
@[simp] theorem State.setBusCtr_cart (v : Fin 3) : (s.setBusCtr v).cart = s.cart := rfl
@[simp] theorem State.setBusCtr_ppuCycle (v : Fin 3) : (s.setBusCtr v).ppuCycle = s.ppuCycle := rfl
@[simp] theorem State.setBusCtr_ppuScanline (v : Fin 3) : (s.setBusCtr v).ppuScanline = s.ppuScanline := rfl
@[simp] theorem State.setBusCtr_frameComplete (v : Fin 3) : (s.setBusCtr v).frameComplete = s.frameComplete := rfl
@[simp] theorem State.setBusCtr_vblank (v : Fin 3) : (s.setBusCtr v).vblank = s.vblank := rfl
@[simp] theorem State.setBusCtr_params (v : Fin 3) : (s.setBusCtr v).params = s.params := rfl
@[simp] theorem State.setBusCtr_hasReset (v : Fin 3) : (s.setBusCtr v).hasReset = s.hasReset := rfl
@[simp] theorem State.setBusCtr_draws (v : Fin 3) : (s.setBusCtr v).draws = s.draws := rfl

@[simp] theorem State.setCart_a (v : Option Cartridge) : (s.setCart v).a = s.a := rfl
@[simp] theorem State.setCart_x (v : Option Cartridge) : (s.setCart v).x = s.x := rfl
@[simp] theorem State.setCart_y (v : Option Cartridge) : (s.setCart v).y = s.y := rfl
@[simp] theorem State.setCart_sp (v : Option Cartridge) : (s.setCart v).sp = s.sp := rfl
@[simp] theorem State.setCart_pc (v : Option Cartridge) : (s.setCart v).pc = s.pc := rfl
@[simp] theorem State.setCart_p (v : Option Cartridge) : (s.setCart v).p = s.p := rfl
@[simp] theorem State.setCart_cyc (v : Option Cartridge) : (s.setCart v).cyc = s.cyc := rfl
@[simp] theorem State.setCart_opcode (v : Option Cartridge) : (s.setCart v).opcode = s.opcode := rfl
@[simp] theorem State.setCart_ea (v : Option Cartridge) : (s.setCart v).ea = s.ea := rfl
@[simp] theorem State.setCart_clockCount (v : Option Cartridge) : (s.setCart v).clockCount = s.clockCount := rfl
@[simp] theorem State.setCart_ram (v : Option Cartridge) : (s.setCart v).ram = s.ram := rfl
@[simp] theorem State.setCart_busCtr (v : Option Cartridge) : (s.setCart v).busCtr = s.busCtr := rfl
@[simp] theorem State.setCart_cart (v : Option Cartridge) : (s.setCart v).cart = v := rfl
@[simp] theorem State.setCart_ppuCycle (v : Option Cartridge) : (s.setCart v).ppuCycle = s.ppuCycle := rfl
@[simp] theorem State.setCart_ppuScanline (v : Option Cartridge) : (s.setCart v).ppuScanline = s.ppuScanline := rfl
@[simp] theorem State.setCart_frameComplete (v : Option Cartridge) : (s.setCart v).frameComplete = s.frameComplete := rfl
@[simp] theorem State.setCart_vblank (v : Option Cartridge) : (s.setCart v).vblank = s.vblank := rfl
@[simp] theorem State.setCart_params (v : Option Cartridge) : (s.setCart v).params = s.params := rfl
@[simp] theorem State.setCart_hasReset (v : Option Cartridge) : (s.setCart v).hasReset = s.hasReset := rfl
@[simp] theorem State.setCart_draws (v : Option Cartridge) : (s.setCart v).draws = s.draws := rfl

@[simp] theorem State.setPpuCycle_a (v : Nat) : (s.setPpuCycle v).a = s.a := rfl
@[simp] theorem State.setPpuCycle_x (v : Nat) : (s.setPpuCycle v).x = s.x := rfl
@[simp] theorem State.setPpuCycle_y (v : Nat) : (s.setPpuCycle v).y = s.y := rfl
@[simp] theorem State.setPpuCycle_sp (v : Nat) : (s.setPpuCycle v).sp = s.sp := rfl
@[simp] theorem State.setPpuCycle_pc (v : Nat) : (s.setPpuCycle v).pc = s.pc := rfl
@[simp] theorem State.setPpuCycle_p (v : Nat) : (s.setPpuCycle v).p = s.p := rfl
@[simp] theorem State.setPpuCycle_cyc (v : Nat) : (s.setPpuCycle v).cyc = s.cyc := rfl
@[simp] theorem State.setPpuCycle_opcode (v : Nat) : (s.setPpuCycle v).opcode = s.opcode := rfl
@[simp] theorem State.setPpuCycle_ea (v : Nat) : (s.setPpuCycle v).ea = s.ea := rfl
@[simp] theorem State.setPpuCycle_clockCount (v : Nat) : (s.setPpuCycle v).clockCount = s.clockCount := rfl
@[simp] theorem State.setPpuCycle_ram (v : Nat) : (s.setPpuCycle v).ram = s.ram := rfl
@[simp] theorem State.setPpuCycle_busCtr (v : Nat) : (s.setPpuCycle v).busCtr = s.busCtr := rfl
@[simp] theorem State.setPpuCycle_cart (v : Nat) : (s.setPpuCycle v).cart = s.cart := rfl
@[simp] theorem State.setPpuCycle_ppuCycle (v : Nat) : (s.setPpuCycle v).ppuCycle = v := rfl
@[simp] theorem State.setPpuCycle_ppuScanline (v : Nat) : (s.setPpuCycle v).ppuScanline = s.ppuScanline := rfl
@[simp] theorem State.setPpuCycle_frameComplete (v : Nat) : (s.setPpuCycle v).frameComplete = s.frameComplete := rfl
@[simp] theorem State.setPpuCycle_vblank (v : Nat) : (s.setPpuCycle v).vblank = s.vblank := rfl
@[simp] theorem State.setPpuCycle_params (v : Nat) : (s.setPpuCycle v).params = s.params := rfl
@[simp] theorem State.setPpuCycle_hasReset (v : Nat) : (s.setPpuCycle v).hasReset = s.hasReset := rfl
@[simp] theorem State.setPpuCycle_draws (v : Nat) : (s.setPpuCycle v).draws = s.draws := rfl

@[simp] theorem State.setPpuScanline_a (v : Int) : (s.setPpuScanline v).a = s.a := rfl
@[simp] theorem State.setPpuScanline_x (v : Int) : (s.setPpuScanline v).x = s.x := rfl
@[simp] theorem State.setPpuScanline_y (v : Int) : (s.setPpuScanline v).y = s.y := rfl
@[simp] theorem State.setPpuScanline_sp (v : Int) : (s.setPpuScanline v).sp = s.sp := rfl
@[simp] theorem State.setPpuScanline_pc (v : Int) : (s.setPpuScanline v).pc = s.pc := rfl
@[simp] theorem State.setPpuScanline_p (v : Int) : (s.setPpuScanline v).p = s.p := rfl
@[simp] theorem State.setPpuScanline_cyc (v : Int) : (s.setPpuScanline v).cyc = s.cyc := rfl
@[simp] theorem State.setPpuScanline_opcode (v : Int) : (s.setPpuScanline v).opcode = s.opcode := rfl
@[simp] theorem State.setPpuScanline_ea (v : Int) : (s.setPpuScanline v).ea = s.ea := rfl
@[simp] theorem State.setPpuScanline_clockCount (v : Int) : (s.setPpuScanline v).clockCount = s.clockCount := rfl
@[simp] theorem State.setPpuScanline_ram (v : Int) : (s.setPpuScanline v).ram = s.ram := rfl
@[simp] theorem State.setPpuScanline_busCtr (v : Int) : (s.setPpuScanline v).busCtr = s.busCtr := rfl
@[simp] theorem State.setPpuScanline_cart (v : Int) : (s.setPpuScanline v).cart = s.cart := rfl
@[simp] theorem State.setPpuScanline_ppuCycle (v : Int) : (s.setPpuScanline v).ppuCycle = s.ppuCycle := rfl
@[simp] theorem State.setPpuScanline_ppuScanline (v : Int) : (s.setPpuScanline v).ppuScanline = v := rfl
@[simp] theorem State.setPpuScanline_frameComplete (v : Int) : (s.setPpuScanline v).frameComplete = s.frameComplete := rfl
@[simp] theorem State.setPpuScanline_vblank (v : Int) : (s.setPpuScanline v).vblank = s.vblank := rfl
@[simp] theorem State.setPpuScanline_params (v : Int) : (s.setPpuScanline v).params = s.params := rfl
@[simp] theorem State.setPpuScanline_hasReset (v : Int) : (s.setPpuScanline v).hasReset = s.hasReset := rfl
@[simp] theorem State.setPpuScanline_draws (v : Int) : (s.setPpuScanline v).draws = s.draws := rfl

@[simp] theorem State.setFrameComplete_a (v : Bool) : (s.setFrameComplete v).a = s.a := rfl
@[simp] theorem State.setFrameComplete_x (v : Bool) : (s.setFrameComplete v).x = s.x := rfl
@[simp] theorem State.setFrameComplete_y (v : Bool) : (s.setFrameComplete v).y = s.y := rfl
@[simp] theorem State.setFrameComplete_sp (v : Bool) : (s.setFrameComplete v).sp = s.sp := rfl
@[simp] theorem State.setFrameComplete_pc (v : Bool) : (s.setFrameComplete v).pc = s.pc := rfl
@[simp] theorem State.setFrameComplete_p (v : Bool) : (s.setFrameComplete v).p = s.p := rfl
@[simp] theorem State.setFrameComplete_cyc (v : Bool) : (s.setFrameComplete v).cyc = s.cyc := rfl
@[simp] theorem State.setFrameComplete_opcode (v : Bool) : (s.setFrameComplete v).opcode = s.opcode := rfl
@[simp] theorem State.setFrameComplete_ea (v : Bool) : (s.setFrameComplete v).ea = s.ea := rfl
@[simp] theorem State.setFrameComplete_clockCount (v : Bool) : (s.setFrameComplete v).clockCount = s.clockCount := rfl
@[simp] theorem State.setFrameComplete_ram (v : Bool) : (s.setFrameComplete v).ram = s.ram := rfl
@[simp] theorem State.setFrameComplete_busCtr (v : Bool) : (s.setFrameComplete v).busCtr = s.busCtr := rfl
@[simp] theorem State.setFrameComplete_cart (v : Bool) : (s.setFrameComplete v).cart = s.cart := rfl
@[simp] theorem State.setFrameComplete_ppuCycle (v : Bool) : (s.setFrameComplete v).ppuCycle = s.ppuCycle := rfl
@[simp] theorem State.setFrameComplete_ppuScanline (v : Bool) : (s.setFrameComplete v).ppuScanline = s.ppuScanline := rfl
@[simp] theorem State.setFrameComplete_frameComplete (v : Bool) : (s.setFrameComplete v).frameComplete = v := rfl
@[simp] theorem State.setFrameComplete_vblank (v : Bool) : (s.setFrameComplete v).vblank = s.vblank := rfl
@[simp] theorem State.setFrameComplete_params (v : Bool) : (s.setFrameComplete v).params = s.params := rfl
@[simp] theorem State.setFrameComplete_hasReset (v : Bool) : (s.setFrameComplete v).hasReset = s.hasReset := rfl
@[simp] theorem State.setFrameComplete_draws (v : Bool) : (s.setFrameComplete v).draws = s.draws := rfl

@[simp] theorem State.setVblank_a (v : Bool) : (s.setVblank v).a = s.a := rfl
@[simp] theorem State.setVblank_x (v : Bool) : (s.setVblank v).x = s.x := rfl
@[simp] theorem State.setVblank_y (v : Bool) : (s.setVblank v).y = s.y := rfl
@[simp] theorem State.setVblank_sp (v : Bool) : (s.setVblank v).sp = s.sp := rfl
@[simp] theorem State.setVblank_pc (v : Bool) : (s.setVblank v).pc = s.pc := rfl
@[simp] theorem State.setVblank_p (v : Bool) : (s.setVblank v).p = s.p := rfl
@[simp] theorem State.setVblank_cyc (v : Bool) : (s.setVblank v).cyc = s.cyc := rfl
@[simp] theorem State.setVblank_opcode (v : Bool) : (s.setVblank v).opcode = s.opcode := rfl
@[simp] theorem State.setVblank_ea (v : Bool) : (s.setVblank v).ea = s.ea := rfl
@[simp] theorem State.setVblank_clockCount (v : Bool) : (s.setVblank v).clockCount = s.clockCount := rfl
@[simp] theorem State.setVblank_ram (v : Bool) : (s.setVblank v).ram = s.ram := rfl
@[simp] theorem State.setVblank_busCtr (v : Bool) : (s.setVblank v).busCtr = s.busCtr := rfl
@[simp] theorem State.setVblank_cart (v : Bool) : (s.setVblank v).cart = s.cart := rfl
@[simp] theorem State.setVblank_ppuCycle (v : Bool) : (s.setVblank v).ppuCycle = s.ppuCycle := rfl
@[simp] theorem State.setVblank_ppuScanline (v : Bool) : (s.setVblank v).ppuScanline = s.ppuScanline := rfl
@[simp] theorem State.setVblank_frameComplete (v : Bool) : (s.setVblank v).frameComplete = s.frameComplete := rfl
@[simp] theorem State.setVblank_vblank (v : Bool) : (s.setVblank v).vblank = v := rfl
@[simp] theorem State.setVblank_params (v : Bool) : (s.setVblank v).params = s.params := rfl
@[simp] theorem State.setVblank_hasReset (v : Bool) : (s.setVblank v).hasReset = s.hasReset := rfl
@[simp] theorem State.setVblank_draws (v : Bool) : (s.setVblank v).draws = s.draws := rfl

@[simp] theorem State.setHasReset_a (v : Bool) : (s.setHasReset v).a = s.a := rfl
@[simp] theorem State.setHasReset_x (v : Bool) : (s.setHasReset v).x = s.x := rfl
@[simp] theorem State.setHasReset_y (v : Bool) : (s.setHasReset v).y = s.y := rfl
@[simp] theorem State.setHasReset_sp (v : Bool) : (s.setHasReset v).sp = s.sp := rfl
@[simp] theorem State.setHasReset_pc (v : Bool) : (s.setHasReset v).pc = s.pc := rfl
@[simp] theorem State.setHasReset_p (v : Bool) : (s.setHasReset v).p = s.p := rfl
@[simp] theorem State.setHasReset_cyc (v : Bool) : (s.setHasReset v).cyc = s.cyc := rfl
@[simp] theorem State.setHasReset_opcode (v : Bool) : (s.setHasReset v).opcode = s.opcode := rfl
@[simp] theorem State.setHasReset_ea (v : Bool) : (s.setHasReset v).ea = s.ea := rfl
@[simp] theorem State.setHasReset_clockCount (v : Bool) : (s.setHasReset v).clockCount = s.clockCount := rfl
@[simp] theorem State.setHasReset_ram (v : Bool) : (s.setHasReset v).ram = s.ram := rfl
@[simp] theorem State.setHasReset_busCtr (v : Bool) : (s.setHasReset v).busCtr = s.busCtr := rfl
@[simp] theorem State.setHasReset_cart (v : Bool) : (s.setHasReset v).cart = s.cart := rfl
@[simp] theorem State.setHasReset_ppuCycle (v : Bool) : (s.setHasReset v).ppuCycle = s.ppuCycle := rfl
@[simp] theorem State.setHasReset_ppuScanline (v : Bool) : (s.setHasReset v).ppuScanline = s.ppuScanline := rfl
@[simp] theorem State.setHasReset_frameComplete (v : Bool) : (s.setHasReset v).frameComplete = s.frameComplete := rfl
@[simp] theorem State.setHasReset_vblank (v : Bool) : (s.setHasReset v).vblank = s.vblank := rfl
@[simp] theorem State.setHasReset_params (v : Bool) : (s.setHasReset v).params = s.params := rfl
@[simp] theorem State.setHasReset_hasReset (v : Bool) : (s.setHasReset v).hasReset = v := rfl
@[simp] theorem State.setHasReset_draws (v : Bool) : (s.setHasReset v).draws = s.draws := rfl

@[simp] theorem State.setDraws_a (v : Nat) : (s.setDraws v).a = s.a := rfl
@[simp] theorem State.setDraws_x (v : Nat) : (s.setDraws v).x = s.x := rfl
@[simp] theorem State.setDraws_y (v : Nat) : (s.setDraws v).y = s.y := rfl
@[simp] theorem State.setDraws_sp (v : Nat) : (s.setDraws v).sp = s.sp := rfl
@[simp] theorem State.setDraws_pc (v : Nat) : (s.setDraws v).pc = s.pc := rfl
@[simp] theorem State.setDraws_p (v : Nat) : (s.setDraws v).p = s.p := rfl
@[simp] theorem State.setDraws_cyc (v : Nat) : (s.setDraws v).cyc = s.cyc := rfl
@[simp] theorem State.setDraws_opcode (v : Nat) : (s.setDraws v).opcode = s.opcode := rfl
@[simp] theorem State.setDraws_ea (v : Nat) : (s.setDraws v).ea = s.ea := rfl
@[simp] theorem State.setDraws_clockCount (v : Nat) : (s.setDraws v).clockCount = s.clockCount := rfl
@[simp] theorem State.setDraws_ram (v : Nat) : (s.setDraws v).ram = s.ram := rfl
@[simp] theorem State.setDraws_busCtr (v : Nat) : (s.setDraws v).busCtr = s.busCtr := rfl
@[simp] theorem State.setDraws_cart (v : Nat) : (s.setDraws v).cart = s.cart := rfl
@[simp] theorem State.setDraws_ppuCycle (v : Nat) : (s.setDraws v).ppuCycle = s.ppuCycle := rfl
@[simp] theorem State.setDraws_ppuScanline (v : Nat) : (s.setDraws v).ppuScanline = s.ppuScanline := rfl
@[simp] theorem State.setDraws_frameComplete (v : Nat) : (s.setDraws v).frameComplete = s.frameComplete := rfl
@[simp] theorem State.setDraws_vblank (v : Nat) : (s.setDraws v).vblank = s.vblank := rfl
@[simp] theorem State.setDraws_params (v : Nat) : (s.setDraws v).params = s.params := rfl
@[simp] theorem State.setDraws_hasReset (v : Nat) : (s.setDraws v).hasReset = s.hasReset := rfl
@[simp] theorem State.setDraws_draws (v : Nat) : (s.setDraws v).draws = v := rfl

end Sys2Proof.Machine
end

