-- ==== Sys2Proof/Laws/Bus.lean ====
section
/-! SUPPORT. What the bus operations can do: reads change at most the traces of port reads, writes change at most RAM and the
cartridge, and what a byte of storage is after a write (20_memory R60 to R71, R87, R90). -/

namespace Sys2Proof.Machine

open Sys2Proof

theorem PortOnly.refl (s : State) : PortOnly s s := rfl

theorem PortOnly.trans {s t u : State} (h : PortOnly s t) (k : PortOnly t u) : PortOnly s u := by
  unfold PortOnly at *
  rw [k, h]

theorem MemOnly.refl (s : State) : MemOnly s s := rfl

theorem MemOnly.trans {s t u : State} (h : MemOnly s t) (k : MemOnly t u) : MemOnly s u := by
  unfold MemOnly at *
  rw [k, h]

/-! Reads. -/

/-- Everything a port read does to the state (60_exceptions R292). -/
theorem portRead_state (port : BitVec 3) (ro : Bool) (s : State) :
    (portRead port ro s).2 =
      { s with
        vblank := if port = 2#3 ∧ ro = false then false else s.vblank
        draws := if ro then s.draws else s.draws + 1 } := by
  cases ro with
  | true => simp [portRead]
  | false => by_cases h : port = 2#3 <;> simp [portRead, h, State.setDraws, State.setVblank]

/-- A peek of a port changes nothing (20_memory R87). -/
@[simp] theorem portRead_peek (port : BitVec 3) (s : State) : (portRead port true s).2 = s := rfl

theorem isPort_false_cases {addr : Word} (h : isPort addr = false) : addr ≤ 0x1FFF#16 ∨ (¬ addr ≤ 0x1FFF#16 ∧ ¬ addr ≤ 0x3FFF#16) := by
  simp only [isPort, Bool.and_eq_false_iff, decide_eq_false_iff_not, BitVec.le_def] at *
  have e1 : (0x2000#16).toNat = 0x2000 := rfl
  have e2 : (0x3FFF#16).toNat = 0x3FFF := rfl
  have e3 : (0x1FFF#16).toNat = 0x1FFF := rfl
  rw [e1, e2] at h
  rw [e2, e3]
  omega

theorem isPort_true_cases {addr : Word} (h : isPort addr = true) : ¬ addr ≤ 0x1FFF#16 ∧ addr ≤ 0x3FFF#16 := by
  simp only [isPort, Bool.and_eq_true, decide_eq_true_eq, BitVec.le_def] at *
  have e1 : (0x2000#16).toNat = 0x2000 := rfl
  have e2 : (0x3FFF#16).toNat = 0x3FFF := rfl
  have e3 : (0x1FFF#16).toNat = 0x1FFF := rfl
  rw [e1, e2] at h
  rw [e2, e3]
  omega

/-- A read in the port window is a port read (20_memory R64). -/
theorem busRead_port {addr : Word} (h : isPort addr = true) (ro : Bool) (s : State) :
    busRead addr ro s = portRead ((addr &&& 0x0007#16).setWidth 3) ro s := by
  simp [busRead, isPort_true_cases h]

/-- A read outside the port window gives the byte of storage and changes nothing (20_memory R87). -/
theorem busRead_storage {addr : Word} (h : isPort addr = false) (ro : Bool) (s : State) :
    ∃ v, s.byteAt addr = some v ∧ busRead addr ro s = (v, s) := by
  rcases isPort_false_cases h with h1 | ⟨h1, h2⟩
  · exact ⟨s.ram.read (addr &&& 0x07FF#16).toNat, by rw [State.byteAt, if_pos h1], by rw [busRead, if_pos h1]⟩
  · cases hc : s.cart with
    | none => exact ⟨0x00#8, by simp [State.byteAt, h1, h2, hc], by simp [busRead, h1, h2, hc]⟩
    | some c => exact ⟨c.cpuRead addr, by simp [State.byteAt, h1, h2, hc], by simp [busRead, h1, h2, hc]⟩

/-- Outside the port window a read is determined by the byte of storage. -/
theorem busRead_of_byteAt {addr : Word} {s : State} {v : Byte} (h : s.byteAt addr = some v) (ro : Bool) :
    busRead addr ro s = (v, s) := by
  have hp : isPort addr = false := by
    cases hb : isPort addr with
    | false => rfl
    | true => simp [State.byteAt, isPort_true_cases hb] at h
  obtain ⟨w, hw, hr⟩ := busRead_storage hp ro s
  rw [h] at hw
  rw [hr, Option.some.inj hw]

/-- Every read but one of a port that is no peek changes nothing (20_memory R87). -/
theorem busRead_quiet {addr : Word} {ro : Bool} (h : isPort addr = false ∨ ro = true) (s : State) : (busRead addr ro s).2 = s := by
  cases hp : isPort addr with
  | true =>
    obtain rfl : ro = true := h.resolve_left (by simp [hp])
    rw [busRead_port hp, portRead_peek]
  | false =>
    obtain ⟨v, -, hr⟩ := busRead_storage hp ro s
    rw [hr]

/-- Everything a bus read does to the state. -/
theorem busRead_state (addr : Word) (ro : Bool) (s : State) : PortOnly s (busRead addr ro s).2 := by
  cases h : isPort addr with
  | true =>
    rw [busRead_port h, PortOnly, portRead_state]
  | false =>
    obtain ⟨v, -, hr⟩ := busRead_storage h ro s
    rw [hr]
    exact PortOnly.refl s

theorem memRead_state (addr : Word) (s : State) : PortOnly s (memRead addr s).2 := busRead_state addr false s

theorem memReadPair_state (low high : Word) (s : State) : PortOnly s (memReadPair low high s).2 :=
  (memRead_state low s).trans (memRead_state high _)

theorem memRead16_state (addr : Word) (s : State) : PortOnly s (memRead16 addr s).2 := memReadPair_state addr (addr + 1) s

/-- A word read from storage (20_memory R86). -/
theorem memReadPair_of_byteAt {low high : Word} {s : State} {l h : Byte} (hl : s.byteAt low = some l)
    (hh : s.byteAt high = some h) : memReadPair low high s = (joinBytes h l, s) := by
  simp [memReadPair, memRead, busRead_of_byteAt hl, busRead_of_byteAt hh]

/-! Writes. -/

/-- Everything a bus write does to the state. -/
theorem busWrite_state (addr : Word) (v : Byte) (s : State) : MemOnly s (busWrite addr v s) := by
  by_cases h1 : addr ≤ 0x1FFF#16
  · simp [MemOnly, busWrite, h1, State.setRam]
  · by_cases h2 : addr ≤ 0x3FFF#16
    · simp [MemOnly, busWrite, h1, h2, portWrite]
    · cases hc : s.cart with
      | none =>
        simp [MemOnly, busWrite, h1, h2, hc]
        rw [← hc]
      | some c => simp [MemOnly, busWrite, h1, h2, hc, State.setCart]

/-! Physical locations. -/

theorem word_and_07FF (addr : Word) : (addr &&& 0x07FF#16).toNat = addr.toNat % 2048 := by
  rw [BitVec.toNat_and]
  exact Nat.and_two_pow_sub_one_eq_mod addr.toNat 11

theorem word_and_3FFF (addr : Word) : (addr &&& 0x3FFF#16).toNat = addr.toNat % 16384 := by
  rw [BitVec.toNat_and]
  exact Nat.and_two_pow_sub_one_eq_mod addr.toNat 14

theorem word_and_7FFF (addr : Word) : (addr &&& 0x7FFF#16).toNat = addr.toNat % 32768 := by
  rw [BitVec.toNat_and]
  exact Nat.and_two_pow_sub_one_eq_mod addr.toNat 15

/-- The program-memory offset of an address (20_memory R70). -/
theorem Cartridge.mapCpu_eq (c : Cartridge) (addr : Word) :
    c.mapCpu addr =
      if addr < 0x8000#16 then none else some (if c.prgBanks = 1#8 then addr.toNat % 16384 else addr.toNat % 32768) := by
  by_cases h : addr < 0x8000#16
  · have h' : ¬ (0x8000#16 ≤ addr) := by simpa [BitVec.not_le] using h
    simp [Cartridge.mapCpu, h, h']
  · have h' : 0x8000#16 ≤ addr := by simpa [BitVec.not_lt] using h
    rw [Cartridge.mapCpu, if_pos h', if_neg h]
    by_cases hb : c.prgBanks = 1#8
    · rw [if_pos hb, if_pos hb, word_and_3FFF]
    · rw [if_neg hb, if_neg hb, word_and_7FFF]

theorem le_1FFF_iff (addr : Word) : addr ≤ 0x1FFF#16 ↔ addr < 0x2000#16 := by
  rw [BitVec.le_def, BitVec.lt_def]
  have e1 : (0x1FFF#16).toNat = 0x1FFF := rfl
  have e2 : (0x2000#16).toNat = 0x2000 := rfl
  omega

theorem le_3FFF_iff (addr : Word) : addr ≤ 0x3FFF#16 ↔ addr < 0x4000#16 := by
  rw [BitVec.le_def, BitVec.lt_def]
  have e1 : (0x3FFF#16).toNat = 0x3FFF := rfl
  have e2 : (0x4000#16).toNat = 0x4000 := rfl
  omega

/-- The byte of storage at an address, by its physical location (20_memory R66). -/
theorem byteAt_place (s : State) (addr : Word) :
    s.byteAt addr =
      match s.place addr with
      | .ram o => some (s.ram.read o)
      | .port _ => none
      | .prg o => s.cart.map (fun c => c.prg.read o)
      | .unmapped => some 0x00 := by
  unfold State.byteAt State.place
  by_cases h1 : addr < 0x2000#16
  · simp only [le_1FFF_iff, h1, if_true, word_and_07FF]
  · by_cases h2 : addr < 0x4000#16
    · simp [le_1FFF_iff, le_3FFF_iff, h1, h2]
    · cases hc : s.cart with
      | none => simp [le_1FFF_iff, le_3FFF_iff, h1, h2]
      | some c =>
        simp only [le_1FFF_iff, le_3FFF_iff, h1, h2, if_false, Cartridge.cpuRead, Cartridge.mapCpu_eq, Cartridge.prgSize]
        by_cases h3 : addr < 0x8000#16
        · simp [h3]
        · simp only [h3, if_false]
          generalize (if c.prgBanks = 1#8 then addr.toNat % 16384 else addr.toNat % 32768) = o
          by_cases hle : c.prgBanks.toNat * 16384 ≤ o
          · simp [hle, Nat.not_lt.mpr hle]
          · simp [hle, Nat.not_le.mp hle]

/-- What a bus write does to memory, by the physical location of its address (20_memory R61, R71). -/
theorem busWrite_place (s : State) (addr : Word) (v : Byte) :
    busWrite addr v s =
      match s.place addr with
      | .ram o => s.setRam (s.ram.write o v)
      | .port _ => s
      | .prg o => s.setCart (s.cart.map (fun c => { c with prg := c.prg.write o v }))
      | .unmapped => s := by
  unfold busWrite State.place
  by_cases h1 : addr < 0x2000#16
  · simp only [le_1FFF_iff, h1, if_true, word_and_07FF]
  · by_cases h2 : addr < 0x4000#16
    · simp [le_1FFF_iff, le_3FFF_iff, h1, h2, portWrite]
    · cases hc : s.cart with
      | none => simp [le_1FFF_iff, le_3FFF_iff, h1, h2]
      | some c =>
        have hself : s.setCart (some c) = s := by rw [← hc, State.setCart]
        simp only [le_1FFF_iff, le_3FFF_iff, h1, h2, if_false, Cartridge.cpuWrite, Cartridge.mapCpu_eq, Cartridge.prgSize]
        by_cases h3 : addr < 0x8000#16
        · simp [h3, hself]
        · simp only [h3, if_false]
          generalize (if c.prgBanks = 1#8 then addr.toNat % 16384 else addr.toNat % 32768) = o
          by_cases hle : c.prgBanks.toNat * 16384 ≤ o
          · simp [hle, Nat.not_lt.mpr hle, hself]
          · simp [hle, Nat.not_le.mp hle]

/-- The location of an address depends on the cartridge's bank count alone. -/
theorem place_congr {s t : State} (h : t.cart.map Cartridge.prgBanks = s.cart.map Cartridge.prgBanks) (addr : Word) :
    t.place addr = s.place addr := by
  unfold State.place
  cases hs : s.cart <;> cases ht : t.cart <;> simp [hs, ht] at h
  · rfl
  · simp [h]

theorem busWrite_banks (addr : Word) (v : Byte) (s : State) :
    (busWrite addr v s).cart.map Cartridge.prgBanks = s.cart.map Cartridge.prgBanks := by
  rw [busWrite_place]
  cases s.place addr with
  | ram o => rfl
  | port n => rfl
  | prg o => cases s.cart <;> simp
  | unmapped => rfl

/-- A write moves no location. -/
@[simp] theorem place_busWrite (addr : Word) (v : Byte) (s : State) (b : Word) : (busWrite addr v s).place b = s.place b :=
  place_congr (busWrite_banks addr v s) b

/-- The location of an address at or above 0x4000, as a check of an offset (20_memory R70, R71). -/
theorem place_high {s : State} {addr : Word} (h : ¬ addr < 0x4000#16) :
    s.place addr = .unmapped ∨ ∃ c o, s.cart = some c ∧ o < c.prgSize ∧ s.place addr = .prg o := by
  have h1 : ¬ addr < 0x2000#16 := by
    rw [BitVec.lt_def] at *
    have e1 : (0x2000#16).toNat = 0x2000 := rfl
    have e2 : (0x4000#16).toNat = 0x4000 := rfl
    omega
  unfold State.place
  rw [if_neg h1, if_neg h]
  cases hc : s.cart with
  | none => exact .inl rfl
  | some c =>
    dsimp only
    generalize (if c.prgBanks = 1#8 then addr.toNat % 16384 else addr.toNat % 32768) = o
    by_cases h3 : addr < 0x8000#16
    · exact .inl (if_pos h3)
    · by_cases ho : o < c.prgBanks.toNat * 16384
      · exact .inr ⟨c, o, rfl, ho, by rw [if_neg h3, if_pos ho]⟩
      · exact .inl (by rw [if_neg h3, if_neg ho])

theorem place_low {s : State} {addr : Word} (h : addr < 0x4000#16) :
    s.place addr = if addr < 0x2000#16 then .ram (addr.toNat % 2048) else .port (BitVec.ofNat 3 addr.toNat) := by
  unfold State.place
  by_cases h1 : addr < 0x2000#16 <;> simp [h1, h]

theorem place_prg_cart {s : State} {addr : Word} {o : Nat} (h : s.place addr = .prg o) :
    ∃ c, s.cart = some c ∧ o < c.prgSize := by
  by_cases h4 : addr < 0x4000#16
  · rw [place_low h4] at h
    split at h <;> cases h
  · rcases place_high (s := s) h4 with hu | ⟨c, o', hc, ho, hp⟩
    · rw [hu] at h
      cases h
    · rw [hp] at h
      cases h
      exact ⟨c, hc, ho⟩

theorem place_ram_lt {s : State} {addr : Word} {o : Nat} (h : s.place addr = .ram o) : o < 2048 := by
  by_cases h4 : addr < 0x4000#16
  · rw [place_low h4] at h
    split at h
    · cases h
      exact Nat.mod_lt _ (by decide)
    · cases h
  · rcases place_high (s := s) h4 with hu | ⟨c, o', hc, ho, hp⟩
    · rw [hu] at h
      cases h
    · rw [hp] at h
      cases h

theorem memoriesWf_ram {s : State} (h : s.memoriesWf = true) : Memory.wf 2048 s.ram = true := by
  simp only [State.memoriesWf, Bool.and_eq_true] at h
  exact h.1

theorem memoriesWf_cart {s : State} {c : Cartridge} (h : s.memoriesWf = true) (hc : s.cart = some c) : c.wf = true := by
  simp only [State.memoriesWf, Bool.and_eq_true, hc, Option.all_some] at h
  exact h.2

theorem cartridge_wf_prg {c : Cartridge} (h : c.wf = true) : Memory.wf c.prgSize c.prg = true := by
  simp only [Cartridge.wf, Bool.and_eq_true] at h
  exact h.1.2

/-- Reading storage after a write: the written byte at every address of the same location, the old byte elsewhere (20_memory
R63, R90). -/
theorem byteAt_busWrite {s : State} (hwf : s.memoriesWf = true) (a b : Word) (v : Byte) :
    (busWrite a v s).byteAt b = if s.place b = s.place a ∧ (s.place a).keeps = true then some v else s.byteAt b := by
  rw [byteAt_place, place_busWrite, byteAt_place, busWrite_place]
  cases ha : s.place a with
  | port n => simp [Place.keeps]
  | unmapped => simp [Place.keeps]
  | ram o =>
    cases hb : s.place b with
    | ram o' =>
      have hread : (s.ram.write o v).read o' = _ := Memory.read_write s.ram o o' v (memoriesWf_ram hwf)
      by_cases ho : o' = o
      · subst ho
        simp [Place.keeps, hread]
      · simp [Place.keeps, hread, ho]
    | port n => simp
    | prg o' => simp
    | unmapped => simp
  | prg o =>
    obtain ⟨c, hc, -⟩ := place_prg_cart ha
    have hprg := cartridge_wf_prg (memoriesWf_cart hwf hc)
    cases hb : s.place b with
    | ram o' => simp
    | port n => simp
    | prg o' =>
      have hread : (c.prg.write o v).read o' = _ := Memory.read_write c.prg o o' v hprg
      by_cases ho : o' = o
      · subst ho
        simp [Place.keeps, hc, hread]
      · simp [Place.keeps, hc, hread, ho]
    | unmapped => simp

/-- A write keeps the memories canonical. -/
theorem memoriesWf_busWrite {s : State} (hwf : s.memoriesWf = true) (addr : Word) (v : Byte) :
    (busWrite addr v s).memoriesWf = true := by
  rw [busWrite_place]
  cases hp : s.place addr with
  | port n => exact hwf
  | unmapped => exact hwf
  | ram o =>
    simp only [State.memoriesWf, Bool.and_eq_true] at hwf ⊢
    exact ⟨Memory.wf_write s.ram o v hwf.1 (place_ram_lt hp), hwf.2⟩
  | prg o =>
    obtain ⟨c, hc, ho⟩ := place_prg_cart hp
    have hcwf := memoriesWf_cart hwf hc
    have hprg := Memory.wf_write c.prg o v (cartridge_wf_prg hcwf) ho
    simp only [Cartridge.wf, Cartridge.prgSize, Cartridge.chrSize, Bool.and_eq_true] at hcwf hprg
    simp only [State.memoriesWf, Bool.and_eq_true] at hwf ⊢
    refine ⟨hwf.1, ?_⟩
    simp [hc, Cartridge.wf, Cartridge.prgSize, Cartridge.chrSize, hcwf.1.1.1, hcwf.2, hprg]
    simpa using hcwf.1.1.2

/-! States with the same memories. -/

theorem place_same {s t : State} (hc : t.cart = s.cart) (addr : Word) : t.place addr = s.place addr := place_congr (by rw [hc]) addr

theorem byteAt_same {s t : State} (hr : t.ram = s.ram) (hc : t.cart = s.cart) (addr : Word) : t.byteAt addr = s.byteAt addr := by
  simp only [byteAt_place, place_same hc, hr, hc]

theorem memoriesWf_same {s t : State} (hr : t.ram = s.ram) (hc : t.cart = s.cart) : t.memoriesWf = s.memoriesWf := by
  simp only [State.memoriesWf, hr, hc]

/-- What a write does depends on the memories alone. -/
theorem busWrite_same {s t : State} (hr : t.ram = s.ram) (hc : t.cart = s.cart) (addr : Word) (v : Byte) :
    busWrite addr v t = { t with ram := (busWrite addr v s).ram, cart := (busWrite addr v s).cart } := by
  simp only [busWrite_place, place_same hc]
  cases s.place addr <;> simp only [State.setRam, State.setCart, ← hr, ← hc]

/-- States with the same memories read alike. -/
theorem keepsMemory_same {s t : State} (hr : t.ram = s.ram) (hc : t.cart = s.cart) : KeepsMemory s t := byteAt_same hr hc

/-- The one store of an instruction: its memories are those that one bus write leaves. -/
theorem storesOnly_same {s t : State} {ea : Word} {v : Byte} (hr : t.ram = (busWrite ea v s).ram)
    (hc : t.cart = (busWrite ea v s).cart) : StoresOnly ea v s t := by
  intro hwf
  have hb : ∀ b, t.byteAt b = if s.place b = s.place ea ∧ (s.place ea).keeps = true then some v else s.byteAt b := fun b => by
    rw [byteAt_same hr hc, byteAt_busWrite hwf]
  refine ⟨fun b h k => by rw [hb, if_pos ⟨h, k⟩], fun b h => by rw [hb, if_neg fun e => h e.1], fun h b => ?_⟩
  rw [hb, if_neg fun e => by rw [h] at e; cases e.2]

/-- Storage read through states that differ at most in traces of port reads. -/
theorem PortOnly.byteAt {s t : State} (h : PortOnly s t) (addr : Word) : t.byteAt addr = s.byteAt addr := by
  rw [h]
  rfl

end Sys2Proof.Machine
end

