-- ==== Sys2Proof/Laws/Fields.lean ====
section
/-! SUPPORT. The fields that each bus, stack and operand operation leaves unchanged, one lemma per operation and field, and the
one lemma per operation from which they follow. -/

namespace Sys2Proof.Machine

open Sys2Proof

theorem push_state (v : Byte) (s : State) : push v s = { s with ram := (push v s).ram, cart := (push v s).cart, sp := s.sp - 1#8 } := by
  have h : MemOnly s (busWrite (stackAddr s.sp) v s) := busWrite_state _ v s
  unfold MemOnly at h
  unfold push
  rw [h]
  rfl

theorem pushWord_state (w : Word) (s : State) :
    pushWord w s = { s with ram := (pushWord w s).ram, cart := (pushWord w s).cart, sp := s.sp - 1#8 - 1#8 } := by
  have h1 := push_state (hiByte w) s
  have h2 := push_state (loByte w) (push (hiByte w) s)
  unfold pushWord
  rw [h2, h1]

theorem pull_state (s : State) :
    (pull s).2 = { s with sp := s.sp + 1#8, vblank := (pull s).2.vblank, draws := (pull s).2.draws } := by
  have h : PortOnly _ (memRead (stackAddr (s.setSp (s.sp + 1#8)).sp) (s.setSp (s.sp + 1#8))).2 := memRead_state _ _
  unfold PortOnly at h
  unfold pull
  rw [h]
  rfl

theorem pullWord_state (s : State) :
    (pullWord s).2 =
      { s with sp := s.sp + 1#8 + 1#8, vblank := (pullWord s).2.vblank, draws := (pullWord s).2.draws } := by
  have h1 := pull_state s
  have h2 := pull_state (pull s).2
  unfold pullWord
  rw [h2, h1]

theorem indexed_state (base : Word) (index : Byte) (s : State) : EaPortOnly s (indexed base index s).2 := rfl

/-- Everything a resolver does to the state (40_dispatch R137 to R149). -/
theorem resolve_state (mode : Operand) (s : State) : EaPortOnly s (resolve mode s).2 := by
  have pointer : ∀ (low high w : Word), EaPortOnly s ((memReadPair low high s).2.setEa w) := by
    intro low high w
    have h : PortOnly s (memReadPair low high s).2 := memReadPair_state low high s
    unfold PortOnly at h
    unfold EaPortOnly
    rw [h]
    rfl
  cases mode with
  | ind ptr => exact pointer ptr (samePageNext ptr) _
  | izx z => exact pointer _ _ _
  | izy z => exact pointer _ _ _
  | _ => rfl

/-- Everything reading an operand does to the state (40_dispatch R136). -/
theorem readOperand_state (mode : Operand) (s : State) : PortOnly s (readOperand mode s).2 := by
  cases mode with
  | acc => exact PortOnly.refl s
  | imm i => exact PortOnly.refl s
  | _ => exact memRead_state s.ea s

/-! `portRead` -/

@[simp] theorem portRead_a (port : BitVec 3) (ro : Bool) (s : State) : (portRead port ro s).2.a = s.a := (congrArg State.a (portRead_state port ro s)).trans rfl
@[simp] theorem portRead_x (port : BitVec 3) (ro : Bool) (s : State) : (portRead port ro s).2.x = s.x := (congrArg State.x (portRead_state port ro s)).trans rfl
@[simp] theorem portRead_y (port : BitVec 3) (ro : Bool) (s : State) : (portRead port ro s).2.y = s.y := (congrArg State.y (portRead_state port ro s)).trans rfl
@[simp] theorem portRead_sp (port : BitVec 3) (ro : Bool) (s : State) : (portRead port ro s).2.sp = s.sp := (congrArg State.sp (portRead_state port ro s)).trans rfl
@[simp] theorem portRead_pc (port : BitVec 3) (ro : Bool) (s : State) : (portRead port ro s).2.pc = s.pc := (congrArg State.pc (portRead_state port ro s)).trans rfl
@[simp] theorem portRead_p (port : BitVec 3) (ro : Bool) (s : State) : (portRead port ro s).2.p = s.p := (congrArg State.p (portRead_state port ro s)).trans rfl
@[simp] theorem portRead_cyc (port : BitVec 3) (ro : Bool) (s : State) : (portRead port ro s).2.cyc = s.cyc := (congrArg State.cyc (portRead_state port ro s)).trans rfl
@[simp] theorem portRead_opcode (port : BitVec 3) (ro : Bool) (s : State) : (portRead port ro s).2.opcode = s.opcode := (congrArg State.opcode (portRead_state port ro s)).trans rfl
@[simp] theorem portRead_ea (port : BitVec 3) (ro : Bool) (s : State) : (portRead port ro s).2.ea = s.ea := (congrArg State.ea (portRead_state port ro s)).trans rfl
@[simp] theorem portRead_clockCount (port : BitVec 3) (ro : Bool) (s : State) : (portRead port ro s).2.clockCount = s.clockCount := (congrArg State.clockCount (portRead_state port ro s)).trans rfl
@[simp] theorem portRead_ram (port : BitVec 3) (ro : Bool) (s : State) : (portRead port ro s).2.ram = s.ram := (congrArg State.ram (portRead_state port ro s)).trans rfl
@[simp] theorem portRead_busCtr (port : BitVec 3) (ro : Bool) (s : State) : (portRead port ro s).2.busCtr = s.busCtr := (congrArg State.busCtr (portRead_state port ro s)).trans rfl
@[simp] theorem portRead_cart (port : BitVec 3) (ro : Bool) (s : State) : (portRead port ro s).2.cart = s.cart := (congrArg State.cart (portRead_state port ro s)).trans rfl
@[simp] theorem portRead_ppuCycle (port : BitVec 3) (ro : Bool) (s : State) : (portRead port ro s).2.ppuCycle = s.ppuCycle := (congrArg State.ppuCycle (portRead_state port ro s)).trans rfl
@[simp] theorem portRead_ppuScanline (port : BitVec 3) (ro : Bool) (s : State) : (portRead port ro s).2.ppuScanline = s.ppuScanline := (congrArg State.ppuScanline (portRead_state port ro s)).trans rfl
@[simp] theorem portRead_frameComplete (port : BitVec 3) (ro : Bool) (s : State) : (portRead port ro s).2.frameComplete = s.frameComplete := (congrArg State.frameComplete (portRead_state port ro s)).trans rfl
@[simp] theorem portRead_params (port : BitVec 3) (ro : Bool) (s : State) : (portRead port ro s).2.params = s.params := (congrArg State.params (portRead_state port ro s)).trans rfl
@[simp] theorem portRead_hasReset (port : BitVec 3) (ro : Bool) (s : State) : (portRead port ro s).2.hasReset = s.hasReset := (congrArg State.hasReset (portRead_state port ro s)).trans rfl

/-! `busRead` -/

@[simp] theorem busRead_a (addr : Word) (ro : Bool) (s : State) : (busRead addr ro s).2.a = s.a := (congrArg State.a (busRead_state addr ro s)).trans rfl
@[simp] theorem busRead_x (addr : Word) (ro : Bool) (s : State) : (busRead addr ro s).2.x = s.x := (congrArg State.x (busRead_state addr ro s)).trans rfl
@[simp] theorem busRead_y (addr : Word) (ro : Bool) (s : State) : (busRead addr ro s).2.y = s.y := (congrArg State.y (busRead_state addr ro s)).trans rfl
@[simp] theorem busRead_sp (addr : Word) (ro : Bool) (s : State) : (busRead addr ro s).2.sp = s.sp := (congrArg State.sp (busRead_state addr ro s)).trans rfl
@[simp] theorem busRead_pc (addr : Word) (ro : Bool) (s : State) : (busRead addr ro s).2.pc = s.pc := (congrArg State.pc (busRead_state addr ro s)).trans rfl
@[simp] theorem busRead_p (addr : Word) (ro : Bool) (s : State) : (busRead addr ro s).2.p = s.p := (congrArg State.p (busRead_state addr ro s)).trans rfl
@[simp] theorem busRead_cyc (addr : Word) (ro : Bool) (s : State) : (busRead addr ro s).2.cyc = s.cyc := (congrArg State.cyc (busRead_state addr ro s)).trans rfl
@[simp] theorem busRead_opcode (addr : Word) (ro : Bool) (s : State) : (busRead addr ro s).2.opcode = s.opcode := (congrArg State.opcode (busRead_state addr ro s)).trans rfl
@[simp] theorem busRead_ea (addr : Word) (ro : Bool) (s : State) : (busRead addr ro s).2.ea = s.ea := (congrArg State.ea (busRead_state addr ro s)).trans rfl
@[simp] theorem busRead_clockCount (addr : Word) (ro : Bool) (s : State) : (busRead addr ro s).2.clockCount = s.clockCount := (congrArg State.clockCount (busRead_state addr ro s)).trans rfl
@[simp] theorem busRead_ram (addr : Word) (ro : Bool) (s : State) : (busRead addr ro s).2.ram = s.ram := (congrArg State.ram (busRead_state addr ro s)).trans rfl
@[simp] theorem busRead_busCtr (addr : Word) (ro : Bool) (s : State) : (busRead addr ro s).2.busCtr = s.busCtr := (congrArg State.busCtr (busRead_state addr ro s)).trans rfl
@[simp] theorem busRead_cart (addr : Word) (ro : Bool) (s : State) : (busRead addr ro s).2.cart = s.cart := (congrArg State.cart (busRead_state addr ro s)).trans rfl
@[simp] theorem busRead_ppuCycle (addr : Word) (ro : Bool) (s : State) : (busRead addr ro s).2.ppuCycle = s.ppuCycle := (congrArg State.ppuCycle (busRead_state addr ro s)).trans rfl
@[simp] theorem busRead_ppuScanline (addr : Word) (ro : Bool) (s : State) : (busRead addr ro s).2.ppuScanline = s.ppuScanline := (congrArg State.ppuScanline (busRead_state addr ro s)).trans rfl
@[simp] theorem busRead_frameComplete (addr : Word) (ro : Bool) (s : State) : (busRead addr ro s).2.frameComplete = s.frameComplete := (congrArg State.frameComplete (busRead_state addr ro s)).trans rfl
@[simp] theorem busRead_params (addr : Word) (ro : Bool) (s : State) : (busRead addr ro s).2.params = s.params := (congrArg State.params (busRead_state addr ro s)).trans rfl
@[simp] theorem busRead_hasReset (addr : Word) (ro : Bool) (s : State) : (busRead addr ro s).2.hasReset = s.hasReset := (congrArg State.hasReset (busRead_state addr ro s)).trans rfl

/-! `memRead` -/

@[simp] theorem memRead_a (addr : Word) (s : State) : (memRead addr s).2.a = s.a := (congrArg State.a (memRead_state addr s)).trans rfl
@[simp] theorem memRead_x (addr : Word) (s : State) : (memRead addr s).2.x = s.x := (congrArg State.x (memRead_state addr s)).trans rfl
@[simp] theorem memRead_y (addr : Word) (s : State) : (memRead addr s).2.y = s.y := (congrArg State.y (memRead_state addr s)).trans rfl
@[simp] theorem memRead_sp (addr : Word) (s : State) : (memRead addr s).2.sp = s.sp := (congrArg State.sp (memRead_state addr s)).trans rfl
@[simp] theorem memRead_pc (addr : Word) (s : State) : (memRead addr s).2.pc = s.pc := (congrArg State.pc (memRead_state addr s)).trans rfl
@[simp] theorem memRead_p (addr : Word) (s : State) : (memRead addr s).2.p = s.p := (congrArg State.p (memRead_state addr s)).trans rfl
@[simp] theorem memRead_cyc (addr : Word) (s : State) : (memRead addr s).2.cyc = s.cyc := (congrArg State.cyc (memRead_state addr s)).trans rfl
@[simp] theorem memRead_opcode (addr : Word) (s : State) : (memRead addr s).2.opcode = s.opcode := (congrArg State.opcode (memRead_state addr s)).trans rfl
@[simp] theorem memRead_ea (addr : Word) (s : State) : (memRead addr s).2.ea = s.ea := (congrArg State.ea (memRead_state addr s)).trans rfl
@[simp] theorem memRead_clockCount (addr : Word) (s : State) : (memRead addr s).2.clockCount = s.clockCount := (congrArg State.clockCount (memRead_state addr s)).trans rfl
@[simp] theorem memRead_ram (addr : Word) (s : State) : (memRead addr s).2.ram = s.ram := (congrArg State.ram (memRead_state addr s)).trans rfl
@[simp] theorem memRead_busCtr (addr : Word) (s : State) : (memRead addr s).2.busCtr = s.busCtr := (congrArg State.busCtr (memRead_state addr s)).trans rfl
@[simp] theorem memRead_cart (addr : Word) (s : State) : (memRead addr s).2.cart = s.cart := (congrArg State.cart (memRead_state addr s)).trans rfl
@[simp] theorem memRead_ppuCycle (addr : Word) (s : State) : (memRead addr s).2.ppuCycle = s.ppuCycle := (congrArg State.ppuCycle (memRead_state addr s)).trans rfl
@[simp] theorem memRead_ppuScanline (addr : Word) (s : State) : (memRead addr s).2.ppuScanline = s.ppuScanline := (congrArg State.ppuScanline (memRead_state addr s)).trans rfl
@[simp] theorem memRead_frameComplete (addr : Word) (s : State) : (memRead addr s).2.frameComplete = s.frameComplete := (congrArg State.frameComplete (memRead_state addr s)).trans rfl
@[simp] theorem memRead_params (addr : Word) (s : State) : (memRead addr s).2.params = s.params := (congrArg State.params (memRead_state addr s)).trans rfl
@[simp] theorem memRead_hasReset (addr : Word) (s : State) : (memRead addr s).2.hasReset = s.hasReset := (congrArg State.hasReset (memRead_state addr s)).trans rfl

/-! `memReadPair` -/

@[simp] theorem memReadPair_a (low high : Word) (s : State) : (memReadPair low high s).2.a = s.a := (congrArg State.a (memReadPair_state low high s)).trans rfl
@[simp] theorem memReadPair_x (low high : Word) (s : State) : (memReadPair low high s).2.x = s.x := (congrArg State.x (memReadPair_state low high s)).trans rfl
@[simp] theorem memReadPair_y (low high : Word) (s : State) : (memReadPair low high s).2.y = s.y := (congrArg State.y (memReadPair_state low high s)).trans rfl
@[simp] theorem memReadPair_sp (low high : Word) (s : State) : (memReadPair low high s).2.sp = s.sp := (congrArg State.sp (memReadPair_state low high s)).trans rfl
@[simp] theorem memReadPair_pc (low high : Word) (s : State) : (memReadPair low high s).2.pc = s.pc := (congrArg State.pc (memReadPair_state low high s)).trans rfl
@[simp] theorem memReadPair_p (low high : Word) (s : State) : (memReadPair low high s).2.p = s.p := (congrArg State.p (memReadPair_state low high s)).trans rfl
@[simp] theorem memReadPair_cyc (low high : Word) (s : State) : (memReadPair low high s).2.cyc = s.cyc := (congrArg State.cyc (memReadPair_state low high s)).trans rfl
@[simp] theorem memReadPair_opcode (low high : Word) (s : State) : (memReadPair low high s).2.opcode = s.opcode := (congrArg State.opcode (memReadPair_state low high s)).trans rfl
@[simp] theorem memReadPair_ea (low high : Word) (s : State) : (memReadPair low high s).2.ea = s.ea := (congrArg State.ea (memReadPair_state low high s)).trans rfl
@[simp] theorem memReadPair_clockCount (low high : Word) (s : State) : (memReadPair low high s).2.clockCount = s.clockCount := (congrArg State.clockCount (memReadPair_state low high s)).trans rfl
@[simp] theorem memReadPair_ram (low high : Word) (s : State) : (memReadPair low high s).2.ram = s.ram := (congrArg State.ram (memReadPair_state low high s)).trans rfl
@[simp] theorem memReadPair_busCtr (low high : Word) (s : State) : (memReadPair low high s).2.busCtr = s.busCtr := (congrArg State.busCtr (memReadPair_state low high s)).trans rfl
@[simp] theorem memReadPair_cart (low high : Word) (s : State) : (memReadPair low high s).2.cart = s.cart := (congrArg State.cart (memReadPair_state low high s)).trans rfl
@[simp] theorem memReadPair_ppuCycle (low high : Word) (s : State) : (memReadPair low high s).2.ppuCycle = s.ppuCycle := (congrArg State.ppuCycle (memReadPair_state low high s)).trans rfl
@[simp] theorem memReadPair_ppuScanline (low high : Word) (s : State) : (memReadPair low high s).2.ppuScanline = s.ppuScanline := (congrArg State.ppuScanline (memReadPair_state low high s)).trans rfl
@[simp] theorem memReadPair_frameComplete (low high : Word) (s : State) : (memReadPair low high s).2.frameComplete = s.frameComplete := (congrArg State.frameComplete (memReadPair_state low high s)).trans rfl
@[simp] theorem memReadPair_params (low high : Word) (s : State) : (memReadPair low high s).2.params = s.params := (congrArg State.params (memReadPair_state low high s)).trans rfl
@[simp] theorem memReadPair_hasReset (low high : Word) (s : State) : (memReadPair low high s).2.hasReset = s.hasReset := (congrArg State.hasReset (memReadPair_state low high s)).trans rfl

/-! `memRead16` -/

@[simp] theorem memRead16_a (addr : Word) (s : State) : (memRead16 addr s).2.a = s.a := (congrArg State.a (memRead16_state addr s)).trans rfl
@[simp] theorem memRead16_x (addr : Word) (s : State) : (memRead16 addr s).2.x = s.x := (congrArg State.x (memRead16_state addr s)).trans rfl
@[simp] theorem memRead16_y (addr : Word) (s : State) : (memRead16 addr s).2.y = s.y := (congrArg State.y (memRead16_state addr s)).trans rfl
@[simp] theorem memRead16_sp (addr : Word) (s : State) : (memRead16 addr s).2.sp = s.sp := (congrArg State.sp (memRead16_state addr s)).trans rfl
@[simp] theorem memRead16_pc (addr : Word) (s : State) : (memRead16 addr s).2.pc = s.pc := (congrArg State.pc (memRead16_state addr s)).trans rfl
@[simp] theorem memRead16_p (addr : Word) (s : State) : (memRead16 addr s).2.p = s.p := (congrArg State.p (memRead16_state addr s)).trans rfl
@[simp] theorem memRead16_cyc (addr : Word) (s : State) : (memRead16 addr s).2.cyc = s.cyc := (congrArg State.cyc (memRead16_state addr s)).trans rfl
@[simp] theorem memRead16_opcode (addr : Word) (s : State) : (memRead16 addr s).2.opcode = s.opcode := (congrArg State.opcode (memRead16_state addr s)).trans rfl
@[simp] theorem memRead16_ea (addr : Word) (s : State) : (memRead16 addr s).2.ea = s.ea := (congrArg State.ea (memRead16_state addr s)).trans rfl
@[simp] theorem memRead16_clockCount (addr : Word) (s : State) : (memRead16 addr s).2.clockCount = s.clockCount := (congrArg State.clockCount (memRead16_state addr s)).trans rfl
@[simp] theorem memRead16_ram (addr : Word) (s : State) : (memRead16 addr s).2.ram = s.ram := (congrArg State.ram (memRead16_state addr s)).trans rfl
@[simp] theorem memRead16_busCtr (addr : Word) (s : State) : (memRead16 addr s).2.busCtr = s.busCtr := (congrArg State.busCtr (memRead16_state addr s)).trans rfl
@[simp] theorem memRead16_cart (addr : Word) (s : State) : (memRead16 addr s).2.cart = s.cart := (congrArg State.cart (memRead16_state addr s)).trans rfl
@[simp] theorem memRead16_ppuCycle (addr : Word) (s : State) : (memRead16 addr s).2.ppuCycle = s.ppuCycle := (congrArg State.ppuCycle (memRead16_state addr s)).trans rfl
@[simp] theorem memRead16_ppuScanline (addr : Word) (s : State) : (memRead16 addr s).2.ppuScanline = s.ppuScanline := (congrArg State.ppuScanline (memRead16_state addr s)).trans rfl
@[simp] theorem memRead16_frameComplete (addr : Word) (s : State) : (memRead16 addr s).2.frameComplete = s.frameComplete := (congrArg State.frameComplete (memRead16_state addr s)).trans rfl
@[simp] theorem memRead16_params (addr : Word) (s : State) : (memRead16 addr s).2.params = s.params := (congrArg State.params (memRead16_state addr s)).trans rfl
@[simp] theorem memRead16_hasReset (addr : Word) (s : State) : (memRead16 addr s).2.hasReset = s.hasReset := (congrArg State.hasReset (memRead16_state addr s)).trans rfl

/-! `busWrite` -/

@[simp] theorem busWrite_a (addr : Word) (v : Byte) (s : State) : (busWrite addr v s).a = s.a := (congrArg State.a (busWrite_state addr v s)).trans rfl
@[simp] theorem busWrite_x (addr : Word) (v : Byte) (s : State) : (busWrite addr v s).x = s.x := (congrArg State.x (busWrite_state addr v s)).trans rfl
@[simp] theorem busWrite_y (addr : Word) (v : Byte) (s : State) : (busWrite addr v s).y = s.y := (congrArg State.y (busWrite_state addr v s)).trans rfl
@[simp] theorem busWrite_sp (addr : Word) (v : Byte) (s : State) : (busWrite addr v s).sp = s.sp := (congrArg State.sp (busWrite_state addr v s)).trans rfl
@[simp] theorem busWrite_pc (addr : Word) (v : Byte) (s : State) : (busWrite addr v s).pc = s.pc := (congrArg State.pc (busWrite_state addr v s)).trans rfl
@[simp] theorem busWrite_p (addr : Word) (v : Byte) (s : State) : (busWrite addr v s).p = s.p := (congrArg State.p (busWrite_state addr v s)).trans rfl
@[simp] theorem busWrite_cyc (addr : Word) (v : Byte) (s : State) : (busWrite addr v s).cyc = s.cyc := (congrArg State.cyc (busWrite_state addr v s)).trans rfl
@[simp] theorem busWrite_opcode (addr : Word) (v : Byte) (s : State) : (busWrite addr v s).opcode = s.opcode := (congrArg State.opcode (busWrite_state addr v s)).trans rfl
@[simp] theorem busWrite_ea (addr : Word) (v : Byte) (s : State) : (busWrite addr v s).ea = s.ea := (congrArg State.ea (busWrite_state addr v s)).trans rfl
@[simp] theorem busWrite_clockCount (addr : Word) (v : Byte) (s : State) : (busWrite addr v s).clockCount = s.clockCount := (congrArg State.clockCount (busWrite_state addr v s)).trans rfl
@[simp] theorem busWrite_busCtr (addr : Word) (v : Byte) (s : State) : (busWrite addr v s).busCtr = s.busCtr := (congrArg State.busCtr (busWrite_state addr v s)).trans rfl
@[simp] theorem busWrite_ppuCycle (addr : Word) (v : Byte) (s : State) : (busWrite addr v s).ppuCycle = s.ppuCycle := (congrArg State.ppuCycle (busWrite_state addr v s)).trans rfl
@[simp] theorem busWrite_ppuScanline (addr : Word) (v : Byte) (s : State) : (busWrite addr v s).ppuScanline = s.ppuScanline := (congrArg State.ppuScanline (busWrite_state addr v s)).trans rfl
@[simp] theorem busWrite_frameComplete (addr : Word) (v : Byte) (s : State) : (busWrite addr v s).frameComplete = s.frameComplete := (congrArg State.frameComplete (busWrite_state addr v s)).trans rfl
@[simp] theorem busWrite_vblank (addr : Word) (v : Byte) (s : State) : (busWrite addr v s).vblank = s.vblank := (congrArg State.vblank (busWrite_state addr v s)).trans rfl
@[simp] theorem busWrite_params (addr : Word) (v : Byte) (s : State) : (busWrite addr v s).params = s.params := (congrArg State.params (busWrite_state addr v s)).trans rfl
@[simp] theorem busWrite_hasReset (addr : Word) (v : Byte) (s : State) : (busWrite addr v s).hasReset = s.hasReset := (congrArg State.hasReset (busWrite_state addr v s)).trans rfl
@[simp] theorem busWrite_draws (addr : Word) (v : Byte) (s : State) : (busWrite addr v s).draws = s.draws := (congrArg State.draws (busWrite_state addr v s)).trans rfl

/-! `push` -/

@[simp] theorem push_a (v : Byte) (s : State) : (push v s).a = s.a := (congrArg State.a (push_state v s)).trans rfl
@[simp] theorem push_x (v : Byte) (s : State) : (push v s).x = s.x := (congrArg State.x (push_state v s)).trans rfl
@[simp] theorem push_y (v : Byte) (s : State) : (push v s).y = s.y := (congrArg State.y (push_state v s)).trans rfl
@[simp] theorem push_pc (v : Byte) (s : State) : (push v s).pc = s.pc := (congrArg State.pc (push_state v s)).trans rfl
@[simp] theorem push_p (v : Byte) (s : State) : (push v s).p = s.p := (congrArg State.p (push_state v s)).trans rfl
@[simp] theorem push_cyc (v : Byte) (s : State) : (push v s).cyc = s.cyc := (congrArg State.cyc (push_state v s)).trans rfl
@[simp] theorem push_opcode (v : Byte) (s : State) : (push v s).opcode = s.opcode := (congrArg State.opcode (push_state v s)).trans rfl
@[simp] theorem push_ea (v : Byte) (s : State) : (push v s).ea = s.ea := (congrArg State.ea (push_state v s)).trans rfl
@[simp] theorem push_clockCount (v : Byte) (s : State) : (push v s).clockCount = s.clockCount := (congrArg State.clockCount (push_state v s)).trans rfl
@[simp] theorem push_busCtr (v : Byte) (s : State) : (push v s).busCtr = s.busCtr := (congrArg State.busCtr (push_state v s)).trans rfl
@[simp] theorem push_ppuCycle (v : Byte) (s : State) : (push v s).ppuCycle = s.ppuCycle := (congrArg State.ppuCycle (push_state v s)).trans rfl
@[simp] theorem push_ppuScanline (v : Byte) (s : State) : (push v s).ppuScanline = s.ppuScanline := (congrArg State.ppuScanline (push_state v s)).trans rfl
@[simp] theorem push_frameComplete (v : Byte) (s : State) : (push v s).frameComplete = s.frameComplete := (congrArg State.frameComplete (push_state v s)).trans rfl
@[simp] theorem push_vblank (v : Byte) (s : State) : (push v s).vblank = s.vblank := (congrArg State.vblank (push_state v s)).trans rfl
@[simp] theorem push_params (v : Byte) (s : State) : (push v s).params = s.params := (congrArg State.params (push_state v s)).trans rfl
@[simp] theorem push_hasReset (v : Byte) (s : State) : (push v s).hasReset = s.hasReset := (congrArg State.hasReset (push_state v s)).trans rfl
@[simp] theorem push_draws (v : Byte) (s : State) : (push v s).draws = s.draws := (congrArg State.draws (push_state v s)).trans rfl

/-! `pushWord` -/

@[simp] theorem pushWord_a (w : Word) (s : State) : (pushWord w s).a = s.a := (congrArg State.a (pushWord_state w s)).trans rfl
@[simp] theorem pushWord_x (w : Word) (s : State) : (pushWord w s).x = s.x := (congrArg State.x (pushWord_state w s)).trans rfl
@[simp] theorem pushWord_y (w : Word) (s : State) : (pushWord w s).y = s.y := (congrArg State.y (pushWord_state w s)).trans rfl
@[simp] theorem pushWord_pc (w : Word) (s : State) : (pushWord w s).pc = s.pc := (congrArg State.pc (pushWord_state w s)).trans rfl
@[simp] theorem pushWord_p (w : Word) (s : State) : (pushWord w s).p = s.p := (congrArg State.p (pushWord_state w s)).trans rfl
@[simp] theorem pushWord_cyc (w : Word) (s : State) : (pushWord w s).cyc = s.cyc := (congrArg State.cyc (pushWord_state w s)).trans rfl
@[simp] theorem pushWord_opcode (w : Word) (s : State) : (pushWord w s).opcode = s.opcode := (congrArg State.opcode (pushWord_state w s)).trans rfl
@[simp] theorem pushWord_ea (w : Word) (s : State) : (pushWord w s).ea = s.ea := (congrArg State.ea (pushWord_state w s)).trans rfl
@[simp] theorem pushWord_clockCount (w : Word) (s : State) : (pushWord w s).clockCount = s.clockCount := (congrArg State.clockCount (pushWord_state w s)).trans rfl
@[simp] theorem pushWord_busCtr (w : Word) (s : State) : (pushWord w s).busCtr = s.busCtr := (congrArg State.busCtr (pushWord_state w s)).trans rfl
@[simp] theorem pushWord_ppuCycle (w : Word) (s : State) : (pushWord w s).ppuCycle = s.ppuCycle := (congrArg State.ppuCycle (pushWord_state w s)).trans rfl
@[simp] theorem pushWord_ppuScanline (w : Word) (s : State) : (pushWord w s).ppuScanline = s.ppuScanline := (congrArg State.ppuScanline (pushWord_state w s)).trans rfl
@[simp] theorem pushWord_frameComplete (w : Word) (s : State) : (pushWord w s).frameComplete = s.frameComplete := (congrArg State.frameComplete (pushWord_state w s)).trans rfl
@[simp] theorem pushWord_vblank (w : Word) (s : State) : (pushWord w s).vblank = s.vblank := (congrArg State.vblank (pushWord_state w s)).trans rfl
@[simp] theorem pushWord_params (w : Word) (s : State) : (pushWord w s).params = s.params := (congrArg State.params (pushWord_state w s)).trans rfl
@[simp] theorem pushWord_hasReset (w : Word) (s : State) : (pushWord w s).hasReset = s.hasReset := (congrArg State.hasReset (pushWord_state w s)).trans rfl
@[simp] theorem pushWord_draws (w : Word) (s : State) : (pushWord w s).draws = s.draws := (congrArg State.draws (pushWord_state w s)).trans rfl

/-! `pull` -/

@[simp] theorem pull_a (s : State) : (pull s).2.a = s.a := (congrArg State.a (pull_state s)).trans rfl
@[simp] theorem pull_x (s : State) : (pull s).2.x = s.x := (congrArg State.x (pull_state s)).trans rfl
@[simp] theorem pull_y (s : State) : (pull s).2.y = s.y := (congrArg State.y (pull_state s)).trans rfl
@[simp] theorem pull_pc (s : State) : (pull s).2.pc = s.pc := (congrArg State.pc (pull_state s)).trans rfl
@[simp] theorem pull_p (s : State) : (pull s).2.p = s.p := (congrArg State.p (pull_state s)).trans rfl
@[simp] theorem pull_cyc (s : State) : (pull s).2.cyc = s.cyc := (congrArg State.cyc (pull_state s)).trans rfl
@[simp] theorem pull_opcode (s : State) : (pull s).2.opcode = s.opcode := (congrArg State.opcode (pull_state s)).trans rfl
@[simp] theorem pull_ea (s : State) : (pull s).2.ea = s.ea := (congrArg State.ea (pull_state s)).trans rfl
@[simp] theorem pull_clockCount (s : State) : (pull s).2.clockCount = s.clockCount := (congrArg State.clockCount (pull_state s)).trans rfl
@[simp] theorem pull_ram (s : State) : (pull s).2.ram = s.ram := (congrArg State.ram (pull_state s)).trans rfl
@[simp] theorem pull_busCtr (s : State) : (pull s).2.busCtr = s.busCtr := (congrArg State.busCtr (pull_state s)).trans rfl
@[simp] theorem pull_cart (s : State) : (pull s).2.cart = s.cart := (congrArg State.cart (pull_state s)).trans rfl
@[simp] theorem pull_ppuCycle (s : State) : (pull s).2.ppuCycle = s.ppuCycle := (congrArg State.ppuCycle (pull_state s)).trans rfl
@[simp] theorem pull_ppuScanline (s : State) : (pull s).2.ppuScanline = s.ppuScanline := (congrArg State.ppuScanline (pull_state s)).trans rfl
@[simp] theorem pull_frameComplete (s : State) : (pull s).2.frameComplete = s.frameComplete := (congrArg State.frameComplete (pull_state s)).trans rfl
@[simp] theorem pull_params (s : State) : (pull s).2.params = s.params := (congrArg State.params (pull_state s)).trans rfl
@[simp] theorem pull_hasReset (s : State) : (pull s).2.hasReset = s.hasReset := (congrArg State.hasReset (pull_state s)).trans rfl

/-! `pullWord` -/

@[simp] theorem pullWord_a (s : State) : (pullWord s).2.a = s.a := (congrArg State.a (pullWord_state s)).trans rfl
@[simp] theorem pullWord_x (s : State) : (pullWord s).2.x = s.x := (congrArg State.x (pullWord_state s)).trans rfl
@[simp] theorem pullWord_y (s : State) : (pullWord s).2.y = s.y := (congrArg State.y (pullWord_state s)).trans rfl
@[simp] theorem pullWord_pc (s : State) : (pullWord s).2.pc = s.pc := (congrArg State.pc (pullWord_state s)).trans rfl
@[simp] theorem pullWord_p (s : State) : (pullWord s).2.p = s.p := (congrArg State.p (pullWord_state s)).trans rfl
@[simp] theorem pullWord_cyc (s : State) : (pullWord s).2.cyc = s.cyc := (congrArg State.cyc (pullWord_state s)).trans rfl
@[simp] theorem pullWord_opcode (s : State) : (pullWord s).2.opcode = s.opcode := (congrArg State.opcode (pullWord_state s)).trans rfl
@[simp] theorem pullWord_ea (s : State) : (pullWord s).2.ea = s.ea := (congrArg State.ea (pullWord_state s)).trans rfl
@[simp] theorem pullWord_clockCount (s : State) : (pullWord s).2.clockCount = s.clockCount := (congrArg State.clockCount (pullWord_state s)).trans rfl
@[simp] theorem pullWord_ram (s : State) : (pullWord s).2.ram = s.ram := (congrArg State.ram (pullWord_state s)).trans rfl
@[simp] theorem pullWord_busCtr (s : State) : (pullWord s).2.busCtr = s.busCtr := (congrArg State.busCtr (pullWord_state s)).trans rfl
@[simp] theorem pullWord_cart (s : State) : (pullWord s).2.cart = s.cart := (congrArg State.cart (pullWord_state s)).trans rfl
@[simp] theorem pullWord_ppuCycle (s : State) : (pullWord s).2.ppuCycle = s.ppuCycle := (congrArg State.ppuCycle (pullWord_state s)).trans rfl
@[simp] theorem pullWord_ppuScanline (s : State) : (pullWord s).2.ppuScanline = s.ppuScanline := (congrArg State.ppuScanline (pullWord_state s)).trans rfl
@[simp] theorem pullWord_frameComplete (s : State) : (pullWord s).2.frameComplete = s.frameComplete := (congrArg State.frameComplete (pullWord_state s)).trans rfl
@[simp] theorem pullWord_params (s : State) : (pullWord s).2.params = s.params := (congrArg State.params (pullWord_state s)).trans rfl
@[simp] theorem pullWord_hasReset (s : State) : (pullWord s).2.hasReset = s.hasReset := (congrArg State.hasReset (pullWord_state s)).trans rfl

/-! `resolve` -/

@[simp] theorem resolve_a (mode : Operand) (s : State) : (resolve mode s).2.a = s.a := (congrArg State.a (resolve_state mode s)).trans rfl
@[simp] theorem resolve_x (mode : Operand) (s : State) : (resolve mode s).2.x = s.x := (congrArg State.x (resolve_state mode s)).trans rfl
@[simp] theorem resolve_y (mode : Operand) (s : State) : (resolve mode s).2.y = s.y := (congrArg State.y (resolve_state mode s)).trans rfl
@[simp] theorem resolve_sp (mode : Operand) (s : State) : (resolve mode s).2.sp = s.sp := (congrArg State.sp (resolve_state mode s)).trans rfl
@[simp] theorem resolve_pc (mode : Operand) (s : State) : (resolve mode s).2.pc = s.pc := (congrArg State.pc (resolve_state mode s)).trans rfl
@[simp] theorem resolve_p (mode : Operand) (s : State) : (resolve mode s).2.p = s.p := (congrArg State.p (resolve_state mode s)).trans rfl
@[simp] theorem resolve_cyc (mode : Operand) (s : State) : (resolve mode s).2.cyc = s.cyc := (congrArg State.cyc (resolve_state mode s)).trans rfl
@[simp] theorem resolve_opcode (mode : Operand) (s : State) : (resolve mode s).2.opcode = s.opcode := (congrArg State.opcode (resolve_state mode s)).trans rfl
@[simp] theorem resolve_clockCount (mode : Operand) (s : State) : (resolve mode s).2.clockCount = s.clockCount := (congrArg State.clockCount (resolve_state mode s)).trans rfl
@[simp] theorem resolve_ram (mode : Operand) (s : State) : (resolve mode s).2.ram = s.ram := (congrArg State.ram (resolve_state mode s)).trans rfl
@[simp] theorem resolve_busCtr (mode : Operand) (s : State) : (resolve mode s).2.busCtr = s.busCtr := (congrArg State.busCtr (resolve_state mode s)).trans rfl
@[simp] theorem resolve_cart (mode : Operand) (s : State) : (resolve mode s).2.cart = s.cart := (congrArg State.cart (resolve_state mode s)).trans rfl
@[simp] theorem resolve_ppuCycle (mode : Operand) (s : State) : (resolve mode s).2.ppuCycle = s.ppuCycle := (congrArg State.ppuCycle (resolve_state mode s)).trans rfl
@[simp] theorem resolve_ppuScanline (mode : Operand) (s : State) : (resolve mode s).2.ppuScanline = s.ppuScanline := (congrArg State.ppuScanline (resolve_state mode s)).trans rfl
@[simp] theorem resolve_frameComplete (mode : Operand) (s : State) : (resolve mode s).2.frameComplete = s.frameComplete := (congrArg State.frameComplete (resolve_state mode s)).trans rfl
@[simp] theorem resolve_params (mode : Operand) (s : State) : (resolve mode s).2.params = s.params := (congrArg State.params (resolve_state mode s)).trans rfl
@[simp] theorem resolve_hasReset (mode : Operand) (s : State) : (resolve mode s).2.hasReset = s.hasReset := (congrArg State.hasReset (resolve_state mode s)).trans rfl

/-! `readOperand` -/

@[simp] theorem readOperand_a (mode : Operand) (s : State) : (readOperand mode s).2.a = s.a := (congrArg State.a (readOperand_state mode s)).trans rfl
@[simp] theorem readOperand_x (mode : Operand) (s : State) : (readOperand mode s).2.x = s.x := (congrArg State.x (readOperand_state mode s)).trans rfl
@[simp] theorem readOperand_y (mode : Operand) (s : State) : (readOperand mode s).2.y = s.y := (congrArg State.y (readOperand_state mode s)).trans rfl
@[simp] theorem readOperand_sp (mode : Operand) (s : State) : (readOperand mode s).2.sp = s.sp := (congrArg State.sp (readOperand_state mode s)).trans rfl
@[simp] theorem readOperand_pc (mode : Operand) (s : State) : (readOperand mode s).2.pc = s.pc := (congrArg State.pc (readOperand_state mode s)).trans rfl
@[simp] theorem readOperand_p (mode : Operand) (s : State) : (readOperand mode s).2.p = s.p := (congrArg State.p (readOperand_state mode s)).trans rfl
@[simp] theorem readOperand_cyc (mode : Operand) (s : State) : (readOperand mode s).2.cyc = s.cyc := (congrArg State.cyc (readOperand_state mode s)).trans rfl
@[simp] theorem readOperand_opcode (mode : Operand) (s : State) : (readOperand mode s).2.opcode = s.opcode := (congrArg State.opcode (readOperand_state mode s)).trans rfl
@[simp] theorem readOperand_ea (mode : Operand) (s : State) : (readOperand mode s).2.ea = s.ea := (congrArg State.ea (readOperand_state mode s)).trans rfl
@[simp] theorem readOperand_clockCount (mode : Operand) (s : State) : (readOperand mode s).2.clockCount = s.clockCount := (congrArg State.clockCount (readOperand_state mode s)).trans rfl
@[simp] theorem readOperand_ram (mode : Operand) (s : State) : (readOperand mode s).2.ram = s.ram := (congrArg State.ram (readOperand_state mode s)).trans rfl
@[simp] theorem readOperand_busCtr (mode : Operand) (s : State) : (readOperand mode s).2.busCtr = s.busCtr := (congrArg State.busCtr (readOperand_state mode s)).trans rfl
@[simp] theorem readOperand_cart (mode : Operand) (s : State) : (readOperand mode s).2.cart = s.cart := (congrArg State.cart (readOperand_state mode s)).trans rfl
@[simp] theorem readOperand_ppuCycle (mode : Operand) (s : State) : (readOperand mode s).2.ppuCycle = s.ppuCycle := (congrArg State.ppuCycle (readOperand_state mode s)).trans rfl
@[simp] theorem readOperand_ppuScanline (mode : Operand) (s : State) : (readOperand mode s).2.ppuScanline = s.ppuScanline := (congrArg State.ppuScanline (readOperand_state mode s)).trans rfl
@[simp] theorem readOperand_frameComplete (mode : Operand) (s : State) : (readOperand mode s).2.frameComplete = s.frameComplete := (congrArg State.frameComplete (readOperand_state mode s)).trans rfl
@[simp] theorem readOperand_params (mode : Operand) (s : State) : (readOperand mode s).2.params = s.params := (congrArg State.params (readOperand_state mode s)).trans rfl
@[simp] theorem readOperand_hasReset (mode : Operand) (s : State) : (readOperand mode s).2.hasReset = s.hasReset := (congrArg State.hasReset (readOperand_state mode s)).trans rfl

@[simp] theorem push_sp (v : Byte) (s : State) : (push v s).sp = s.sp - 1#8 := (congrArg State.sp (push_state v s)).trans rfl
@[simp] theorem pushWord_sp (w : Word) (s : State) : (pushWord w s).sp = s.sp - 1#8 - 1#8 :=
  (congrArg State.sp (pushWord_state w s)).trans rfl
@[simp] theorem pull_sp (s : State) : (pull s).2.sp = s.sp + 1#8 := (congrArg State.sp (pull_state s)).trans rfl
@[simp] theorem pullWord_sp (s : State) : (pullWord s).2.sp = s.sp + 1#8 + 1#8 := (congrArg State.sp (pullWord_state s)).trans rfl

end Sys2Proof.Machine
end

