-- ==== Sys2Proof/Laws/Flags.lean ====
section
/-! SUPPORT. The laws of the status byte: what reading a flag gives after writing one, and what each flag computation writes. -/

namespace Sys2Proof.Machine

open Sys2Proof

/-- The bit a flag stands at (10_state R26). -/
def Flag.index : Flag → Nat
  | .C => 0
  | .Z => 1
  | .I => 2
  | .D => 3
  | .B => 4
  | .U => 5
  | .V => 6
  | .N => 7

theorem Flag.mask_bit (f : Flag) (i : Nat) (hi : i < 8) : f.mask.getLsbD i = decide (i = f.index) := by
  have : ∀ i : Fin 8, f.mask.getLsbD i.val = decide (i.val = f.index) := by cases f <;> decide
  exact this ⟨i, hi⟩

theorem Flag.index_lt (f : Flag) : f.index < 8 := by cases f <;> decide

theorem Flag.index_inj {f g : Flag} (h : f.index = g.index) : f = g := by
  cases f <;> cases g <;> first | rfl | exact absurd h (by decide)

/-- Reading a flag is reading its bit. -/
theorem getFlag_bit (f : Flag) (p : Byte) : getFlag f p = p.getLsbD f.index := by
  have hmask := f.mask_bit
  cases hp : p.getLsbD f.index
  · have : p &&& f.mask = 0#8 := by
      apply BitVec.eq_of_getLsbD_eq
      intro i hi
      rw [BitVec.getLsbD_and, hmask i hi]
      by_cases h : i = f.index <;> simp [h, hp]
    simp [getFlag, this]
  · have : p &&& f.mask ≠ 0#8 := by
      intro h
      have hbit := congrArg (fun q => q.getLsbD f.index) h
      simp [hmask f.index f.index_lt, hp] at hbit
    simp [getFlag, this]

theorem putFlag_bit (f : Flag) (b : Bool) (p : Byte) (i : Nat) (hi : i < 8) :
    (putFlag f b p).getLsbD i = if i = f.index then b else p.getLsbD i := by
  have hm := f.mask_bit i hi
  cases b <;> simp only [putFlag, if_true, if_false, Bool.false_eq_true, BitVec.getLsbD_or, BitVec.getLsbD_and,
    BitVec.getLsbD_not, hm] <;> by_cases h : i = f.index <;> simp [h, f.index_lt, hi]

/-- Reading any flag after writing any flag. -/
theorem getFlag_putFlag (f g : Flag) (b : Bool) (p : Byte) :
    getFlag f (putFlag g b p) = if f = g then b else getFlag f p := by
  rw [getFlag_bit, getFlag_bit, putFlag_bit g b p f.index f.index_lt]
  by_cases h : f = g
  · simp [h]
  · have hne : f.index ≠ g.index := fun he => h (Flag.index_inj he)
    simp [h, hne]

@[simp] theorem getFlag_putFlag_self (f : Flag) (b : Bool) (p : Byte) : getFlag f (putFlag f b p) = b := by
  simp [getFlag_putFlag]

/-- A status byte is its eight flags. -/
theorem status_ext {p q : Byte} (h : ∀ f, getFlag f p = getFlag f q) : p = q := by
  have bit : ∀ f : Flag, p.getLsbD f.index = q.getLsbD f.index := fun f => by rw [← getFlag_bit, ← getFlag_bit, h f]
  apply BitVec.eq_of_getLsbD_eq
  intro i hi
  match i, hi with
  | 0, _ => exact bit .C
  | 1, _ => exact bit .Z
  | 2, _ => exact bit .I
  | 3, _ => exact bit .D
  | 4, _ => exact bit .B
  | 5, _ => exact bit .U
  | 6, _ => exact bit .V
  | 7, _ => exact bit .N

theorem setZN_zn (v p : Byte) : ZNOf v (setZN v p) := by
  constructor
  · simp [setZN, getFlag_putFlag]
    rfl
  · simp [setZN]

theorem setZN_kept (v p : Byte) : FlagsKept [.Z, .N] p (setZN v p) := by
  intro f hf
  simp only [List.mem_cons, List.not_mem_nil, or_false, not_or] at hf
  simp [setZN, getFlag_putFlag, hf.1, hf.2]

theorem putFlag_kept (f : Flag) (b : Bool) (p : Byte) : FlagsKept [f] p (putFlag f b p) := by
  intro g hg
  simp only [List.mem_cons, List.not_mem_nil, or_false] at hg
  simp [getFlag_putFlag, hg]

theorem addWithCarry_kept (a m p : Byte) : FlagsKept [.C, .Z, .V, .N] p (addWithCarry a m p).2 := by
  intro f hf
  simp only [List.mem_cons, List.not_mem_nil, or_false, not_or] at hf
  simp [addWithCarry, setZN, getFlag_putFlag, hf.1, hf.2.1, hf.2.2.1, hf.2.2.2]

/-- The sum of `AddWithCarry` as a number (42_arith_logic R180). -/
theorem addWithCarry_toNat (a m p : Byte) :
    (addWithCarry a m p).1.toNat = (a.toNat + m.toNat + (getFlag .C p).toNat) % 256 := by
  simp [addWithCarry]

/-- C after `AddWithCarry` is the unsigned carry (42_arith_logic R180). -/
theorem addWithCarry_C (a m p : Byte) :
    getFlag .C (addWithCarry a m p).2 = decide (256 ≤ a.toNat + m.toNat + (getFlag .C p).toNat) := by
  simp [addWithCarry, setZN, getFlag_putFlag]
  omega

/-- V after `AddWithCarry` says that the signed sum does not fit (42_arith_logic R180). -/
theorem addWithCarry_V (a m p : Byte) :
    getFlag .V (addWithCarry a m p).2 =
      decide (a.toInt + m.toInt + (getFlag .C p).toInt ≠ (addWithCarry a m p).1.toInt) := by
  have hV : getFlag .V (addWithCarry a m p).2 = ((~~~(a ^^^ m) &&& (a ^^^ (addWithCarry a m p).1) &&& 0x80#8) != 0) := by
    simp [addWithCarry, setZN, getFlag_putFlag]
  have hr := addWithCarry_toNat a m p
  rw [hV]
  generalize (addWithCarry a m p).1 = r at *
  generalize getFlag .C p = c at *
  have hmsb : ((~~~(a ^^^ m) &&& (a ^^^ r) &&& 0x80#8) != 0) = ((a.msb == m.msb) && (a.msb != r.msb)) := by
    have bit7 : ∀ w : Byte, (w &&& 0x80#8 != 0) = w.msb := by decide
    rw [bit7]
    simp only [BitVec.msb_and, BitVec.msb_not, BitVec.msb_xor]
    cases a.msb <;> cases m.msb <;> cases r.msb <;> simp
  have ha := a.isLt
  have hm := m.isLt
  have hlt := r.isLt
  rw [hmsb, Bool.eq_iff_iff]
  simp only [BitVec.msb_eq_decide, BitVec.toInt_eq_toNat_cond, Bool.and_eq_true, beq_iff_eq, bne_iff_ne, ne_eq, decide_eq_true_eq,
    decide_eq_decide]
  cases c <;> simp only [Bool.toNat_true, Bool.toNat_false, Bool.toInt_true, Bool.toInt_false] at * <;> omega

theorem addWithCarry_zn (a m p : Byte) : ZNOf (addWithCarry a m p).1 (addWithCarry a m p).2 := setZN_zn _ _

/-- The one's complement of an operand, as SBC adds it (42_arith_logic R182). -/
theorem complement_toNat (m : Byte) : (m ^^^ 0xFF#8).toNat = 255 - m.toNat := by
  have all : ∀ m : Byte, (m ^^^ 0xFF#8).toNat = 255 - m.toNat := by decide
  exact all m

theorem complement_toInt (m : Byte) : (m ^^^ 0xFF#8).toInt = -1 - m.toInt := by
  have all : ∀ m : Byte, (m ^^^ 0xFF#8).toInt = -1 - m.toInt := by decide
  exact all m

/-- ROL as arithmetic (43_shift_rotate R213). -/
theorem rolByte_eq (v p : Byte) : (rolByte v p).1 = (v <<< 1) + BitVec.ofNat 8 (getFlag .C p).toNat := by
  have all : ∀ v : Byte, (v <<< 1) ||| 0x01#8 = (v <<< 1) + 1#8 := by decide
  cases h : getFlag .C p <;> simp [rolByte, h, all]

/-- ROR as arithmetic (43_shift_rotate R214). -/
theorem rorByte_eq (v p : Byte) : (rorByte v p).1 = (v >>> 1) + BitVec.ofNat 8 (128 * (getFlag .C p).toNat) := by
  have all : ∀ v : Byte, (v >>> 1) ||| 0x80#8 = (v >>> 1) + 128#8 := by decide
  cases h : getFlag .C p <;> simp [rorByte, h, all]

theorem compareFlags_kept (reg m p : Byte) : FlagsKept [.C, .Z, .N] p (compareFlags reg m p) := by
  intro f hf
  simp only [List.mem_cons, List.not_mem_nil, or_false, not_or] at hf
  simp [compareFlags, getFlag_putFlag, hf.1, hf.2.1, hf.2.2]

theorem bitFlags_kept (a m p : Byte) : FlagsKept [.Z, .N, .V] p (bitFlags a m p) := by
  intro f hf
  simp only [List.mem_cons, List.not_mem_nil, or_false, not_or] at hf
  simp [bitFlags, getFlag_putFlag, hf.1, hf.2.1, hf.2.2]

theorem compareFlags_czn (reg m p : Byte) :
    getFlag .C (compareFlags reg m p) = decide (m.toNat ≤ reg.toNat) ∧ getFlag .Z (compareFlags reg m p) = decide (reg = m) ∧
    getFlag .N (compareFlags reg m p) = (reg - m).msb := by
  refine ⟨?_, ?_, ?_⟩ <;> simp [compareFlags, getFlag_putFlag, BitVec.le_def]
  rfl

theorem bitFlags_znv (a m p : Byte) :
    getFlag .Z (bitFlags a m p) = decide (a &&& m = 0#8) ∧ getFlag .N (bitFlags a m p) = m.getLsbD 7 ∧
    getFlag .V (bitFlags a m p) = m.getLsbD 6 := by
  refine ⟨?_, ?_, ?_⟩ <;> simp [bitFlags, getFlag_putFlag, BitVec.msb_eq_getLsbD_last]
  rfl

/-- What an interrupt entry makes of each flag. -/
theorem getFlag_interruptStatus (f : Flag) (p : Byte) :
    getFlag f (interruptStatus p) = if f = .I ∨ f = .U then true else if f = .B then false else getFlag f p := by
  cases f <;> simp [interruptStatus, getFlag_putFlag]

/-- What PLP and RTI make of each flag of the pulled byte. -/
theorem getFlag_pulledStatus (f : Flag) (v : Byte) :
    getFlag f (pulledStatus v) = if f = .U then true else if f = .B then false else getFlag f v := by
  cases f <;> simp [getFlag_bit, pulledStatus, Flag.index]

/-- What PHP and BRK push of each flag. -/
theorem getFlag_pushedStatus (f : Flag) (p : Byte) :
    getFlag f (pushedStatus p) = if f = .U ∨ f = .B then true else getFlag f p := by
  cases f <;> simp [getFlag_bit, pushedStatus, Flag.index]

end Sys2Proof.Machine
end

