-- ==== Sys2Proof/Laws/Ops.lean ====
section
/-! SUPPORT. The laws of the stack, of the operand operations and of running an operation. -/

namespace Sys2Proof.Machine

open Sys2Proof

/-! The stack lies in RAM (20_memory R68). -/

theorem stackAddr_toNat (sp : Byte) : (stackAddr sp).toNat = 256 + sp.toNat := by
  have := sp.isLt
  simp only [stackAddr, zext16, BitVec.toNat_add, BitVec.toNat_setWidth]
  have e : (0x0100#16).toNat = 256 := rfl
  rw [e]
  omega

theorem stackAddr_low (sp : Byte) : stackAddr sp < 0x2000#16 := by
  rw [BitVec.lt_def, stackAddr_toNat]
  have := sp.isLt
  have e : (0x2000#16).toNat = 8192 := rfl
  omega

@[simp] theorem place_stackAddr (s : State) (sp : Byte) : s.place (stackAddr sp) = .ram (256 + sp.toNat) := by
  have h2 := stackAddr_low sp
  unfold State.place
  rw [if_pos h2, stackAddr_toNat]
  have := sp.isLt
  rw [Nat.mod_eq_of_lt (by omega)]

/-- A push writes the RAM byte at `0x0100 + SP` and decrements SP (00_scope R11). -/
theorem push_eq (v : Byte) (s : State) :
    push v s = (s.setRam (s.ram.write (256 + s.sp.toNat) v)).setSp (s.sp - 1#8) := by
  unfold push
  rw [busWrite_place, place_stackAddr]
  rfl

/-- A pull increments SP and reads the RAM byte at `0x0100 + SP`; it changes nothing else (00_scope R11). -/
theorem pull_eq (s : State) : pull s = (s.ram.read (256 + (s.sp + 1#8).toNat), s.setSp (s.sp + 1#8)) := by
  unfold pull memRead
  refine busRead_of_byteAt ?_ false
  rw [byteAt_place, place_stackAddr]
  rfl

theorem pullWord_eq (s : State) :
    pullWord s =
      (joinBytes (s.ram.read (256 + (s.sp + 1#8 + 1#8).toNat)) (s.ram.read (256 + (s.sp + 1#8).toNat)),
        s.setSp (s.sp + 1#8 + 1#8)) := by
  simp [pullWord, pull_eq]
  rfl

theorem pushWord_eq (w : Word) (s : State) :
    pushWord w s =
      (s.setRam ((s.ram.write (256 + s.sp.toNat) (hiByte w)).write (256 + (s.sp - 1#8).toNat) (loByte w))).setSp
        (s.sp - 1#8 - 1#8) := by
  simp [pushWord, push_eq]
  rfl

/-- The two bytes of a word join to it (20_memory R85). -/
@[simp] theorem joinBytes_hi_lo (w : Word) : joinBytes (hiByte w) (loByte w) = w := by
  apply BitVec.eq_of_getLsbD_eq
  intro i hi
  simp only [joinBytes, hiByte, loByte, BitVec.getLsbD_or, BitVec.getLsbD_shiftLeft, BitVec.getLsbD_setWidth,
    BitVec.getLsbD_extractLsb']
  by_cases h : i < 8
  · simp [h, hi]
  · have h1 : i - 8 < 8 := by omega
    have h2 : 8 + (i - 8) = i := by omega
    have h3 : i - 8 < 16 := by omega
    simp [h, hi, h1, h2, h3]

/-- A word has the two bytes it was joined from (20_memory R85). -/
@[simp] theorem loByte_joinBytes (h l : Byte) : loByte (joinBytes h l) = l := by
  apply BitVec.eq_of_getLsbD_eq
  intro i hi
  simp [joinBytes, loByte, hi]
  omega

@[simp] theorem hiByte_joinBytes (h l : Byte) : hiByte (joinBytes h l) = h := by
  apply BitVec.eq_of_getLsbD_eq
  intro i hi
  have h1 : 8 + i < 16 := by omega
  have h2 : ¬ 8 + i < 8 := by omega
  simp [joinBytes, hiByte, hi, h1, h2]

/-! The countdown plays no part in a mode or an operand. -/

theorem busRead_setCyc (addr : Word) (ro : Bool) (s : State) (n : Nat) :
    busRead addr ro (s.setCyc n) = ((busRead addr ro s).1, (busRead addr ro s).2.setCyc n) := by
  cases h : isPort addr with
  | true =>
    rw [busRead_port h, busRead_port h]
    cases ro with
    | true => rfl
    | false =>
      simp only [portRead, Bool.false_eq_true, if_false]
      split <;> rfl
  | false =>
    obtain ⟨v, hv, hr⟩ := busRead_storage h ro s
    rw [hr]
    exact busRead_of_byteAt (s := s.setCyc n) hv ro

theorem memReadPair_setCyc (low high : Word) (s : State) (n : Nat) :
    memReadPair low high (s.setCyc n) = ((memReadPair low high s).1, (memReadPair low high s).2.setCyc n) := by
  simp [memReadPair, memRead, busRead_setCyc]

theorem resolve_setCyc (mode : Operand) (s : State) (n : Nat) :
    resolve mode (s.setCyc n) = ((resolve mode s).1, (resolve mode s).2.setCyc n) := by
  cases mode with
  | ind ptr => simp only [resolve, memReadPair_setCyc]; rfl
  | izx z => simp only [resolve, zeroPagePointer, State.setCyc_x, memReadPair_setCyc]; rfl
  | izy z => simp only [resolve, zeroPagePointer, indexed, memReadPair_setCyc]; rfl
  | _ => rfl

theorem readOperand_setCyc (mode : Operand) (s : State) (n : Nat) :
    readOperand mode (s.setCyc n) = ((readOperand mode s).1, (readOperand mode s).2.setCyc n) := by
  cases mode with
  | acc => rfl
  | imm i => rfl
  | _ => exact busRead_setCyc _ false _ n

/-! Running an operation. -/

/-- What `runOp` answers, in terms of the state the instruction starts in: always a next state. -/
theorem runOp_eq (base : Nat) (mode : Operand) (pageCross : Bool) (effect : State → State) (s : State) :
    runOp base mode pageCross effect s =
      .next (let t := effect ((resolve mode s).2.setCyc base)
             t.setCyc (t.cyc + (pageCrossed mode s && pageCross).toNat)) := by
  simp only [runOp, resolve_setCyc]
  rfl

/-- An operation that reads its operand, in terms of the state the instruction starts in. -/
theorem withOperand_resolved (mode : Operand) (f : Byte → State → State) (s : State) (n : Nat) :
    withOperand mode f ((resolve mode s).2.setCyc n) = f (operandRead mode s).1 ((operandRead mode s).2.setCyc n) := by
  simp only [withOperand, readOperand_setCyc]
  rfl

/-- The operand read of an instruction changes at most `ea` and the traces of port reads. -/
theorem operandRead_state (mode : Operand) (s : State) : EaPortOnly s (operandRead mode s).2 := by
  have h1 : EaPortOnly s (resolve mode s).2 := resolve_state mode s
  have h2 : PortOnly _ (operandRead mode s).2 := readOperand_state mode (resolve mode s).2
  unfold EaPortOnly PortOnly at *
  rw [h2, h1]

/-- The effective address after the operand read is the mode's. -/
theorem operandRead_ea (mode : Operand) (s : State) : (operandRead mode s).2.ea = operandAddr mode s :=
  readOperand_ea mode (resolve mode s).2

/-- The state in which an instruction has read its operand. -/
theorem operandRead_afterRead (mode : Operand) (s : State) : (operandRead mode s).2 = s.afterRead mode := by
  have h : EaPortOnly s (operandRead mode s).2 := operandRead_state mode s
  unfold EaPortOnly at h
  rw [State.afterRead, ← operandRead_ea mode s]
  exact h

theorem keepsMemory_afterRead (s : State) (mode : Operand) : KeepsMemory s (s.afterRead mode) := keepsMemory_same rfl rfl

/-- The zero-page pointer modes read both pointer bytes in RAM and change nothing by it (40_dispatch R148, R149). -/
theorem zeroPagePointer_eq (z : Byte) (s : State) :
    zeroPagePointer z s = (joinBytes (s.ram.read (z + 1#8).toNat) (s.ram.read z.toNat), s) := by
  have byte : ∀ b : Byte, s.byteAt (zext16 b) = some (s.ram.read b.toNat) := fun b => by
    have hlt := b.isLt
    have hn : (zext16 b).toNat = b.toNat := by simp [zext16]; omega
    have hlow : zext16 b < 0x2000#16 := by rw [BitVec.lt_def, hn]; exact Nat.lt_trans hlt (by decide)
    rw [byteAt_place, State.place, if_pos hlow, hn, Nat.mod_eq_of_lt (by omega)]
  exact memReadPair_of_byteAt (byte z) (byte (z + 1#8))

/-- A mode that reads no port: all but the indirect jump (40_dispatch R137 to R149). -/
theorem resolve_ea_only (mode : Operand) (s : State) (h : ∀ ptr, mode ≠ .ind ptr) :
    mode = .imp ∨ mode = .acc ∨ (resolve mode s).2 = s.setEa (operandAddr mode s) := by
  cases mode with
  | imp => exact .inl rfl
  | acc => exact .inr (.inl rfl)
  | ind ptr => exact absurd rfl (h ptr)
  | izx z => exact .inr (.inr (by simp [operandAddr, resolve, zeroPagePointer_eq]))
  | izy z => exact .inr (.inr (by simp [operandAddr, resolve, zeroPagePointer_eq, indexed]))
  | _ => exact .inr (.inr rfl)

/-! Read-modify-write. -/

/-- A read-modify-write of the accumulator: no bus access (43_shift_rotate R210). -/
theorem modifyOperand_acc (f : Byte → Byte → Byte × Byte) (s : State) :
    modifyOperand .acc f s = (s.setA (f s.a s.p).1).setP (setZN (f s.a s.p).1 (f s.a s.p).2) := rfl

/-- A read-modify-write of memory: the operand is read once and the result stored once at the same address (40_dispatch R133). -/
theorem modifyOperand_mem {mode : Operand} (h : mode ≠ .acc) (f : Byte → Byte → Byte × Byte) (s : State) (n : Nat) :
    modifyOperand mode f ((resolve mode s).2.setCyc n) =
      let v := (operandRead mode s).1
      let r := f v s.p
      { busWrite (operandAddr mode s) r.1 (s.afterRead mode) with p := setZN r.1 r.2, cyc := n } := by
  have hw : ∀ v t, writeBack mode v t = busWrite t.ea v t := by cases mode <;> first | exact absurd rfl h | exact fun _ _ => rfl
  simp only [modifyOperand, withOperand_resolved, hw, operandRead_afterRead]
  rw [busWrite_same (s := s.afterRead mode) (t := ((s.afterRead mode).setCyc n).setP _) rfl rfl]
  have hm : MemOnly _ (busWrite (operandAddr mode s) (f (operandRead mode s).1 s.p).1 (s.afterRead mode)) := busWrite_state _ _ _
  unfold MemOnly at hm
  rw [hm]
  rfl

end Sys2Proof.Machine
end

