-- ==== Sys2Proof/Laws/Bits.lean ====
section
/-! SUPPORT. The byte, page and sign helpers as numbers and as bits (00_scope R9, R14). -/

namespace Sys2Proof.Machine

open Sys2Proof

theorem getLsbD_00FF (i : Nat) : (0x00FF#16).getLsbD i = decide (i < 8) := by
  by_cases h : i < 16
  · have all : ∀ i : Fin 16, (0x00FF#16).getLsbD i.val = decide (i.val < 8) := by decide
    exact all ⟨i, h⟩
  · rw [BitVec.getLsbD_of_ge _ _ (by omega)]
    simp
    omega

theorem getLsbD_FF00 (i : Nat) : (0xFF00#16).getLsbD i = (decide (8 ≤ i) && decide (i < 16)) := by
  by_cases h : i < 16
  · have all : ∀ i : Fin 16, (0xFF00#16).getLsbD i.val = (decide (8 ≤ i.val) && decide (i.val < 16)) := by decide
    exact all ⟨i, h⟩
  · rw [BitVec.getLsbD_of_ge _ _ (by omega)]
    simp [h]

theorem loByte_toNat (w : Word) : (loByte w).toNat = w.toNat % 256 := by simp [loByte]

theorem loByte_add_one (w : Word) : loByte (w + 1#16) = loByte w + 1#8 := by
  apply BitVec.eq_of_toNat_eq
  rw [loByte_toNat, BitVec.toNat_add, BitVec.toNat_add, loByte_toNat]
  have e1 : (1#16).toNat = 1 := rfl
  have e2 : (1#8).toNat = 1 := rfl
  omega

/-- Two words are on one page when their high bytes agree (00_scope R14). -/
theorem pageOf_eq_iff (v w : Word) : pageOf v = pageOf w ↔ hiByte v = hiByte w := by
  constructor
  · intro h
    apply BitVec.eq_of_getLsbD_eq
    intro i hi
    have hbit := congrArg (fun u => u.getLsbD (8 + i)) h
    have h1 : 8 ≤ 8 + i := by omega
    have h2 : 8 + i < 16 := by omega
    simp only [pageOf, BitVec.getLsbD_and, getLsbD_FF00, h1, h2, decide_true, Bool.and_true] at hbit
    simp only [hiByte, BitVec.getLsbD_extractLsb', hi, hbit]
  · intro h
    apply BitVec.eq_of_getLsbD_eq
    intro i hi
    simp only [pageOf, BitVec.getLsbD_and, getLsbD_FF00]
    by_cases hl : 8 ≤ i
    · have hbit := congrArg (fun u => u.getLsbD (i - 8)) h
      have h1 : i - 8 < 8 := by omega
      have h2 : 8 + (i - 8) = i := by omega
      simp only [hiByte, BitVec.getLsbD_extractLsb', h1, h2, decide_true, Bool.true_and] at hbit
      rw [hbit]
    · simp [hl]

theorem pageOf_bne (v w : Word) : (pageOf v != pageOf w) = decide (hiByte v ≠ hiByte w) := by
  by_cases h : pageOf v = pageOf w
  · simp [h, (pageOf_eq_iff v w).mp h]
  · have h' : hiByte v ≠ hiByte w := fun e => h ((pageOf_eq_iff v w).mpr e)
    simp [h, h']

/-- The next address of the same page: the high byte kept, the low byte plus one (40_dispatch R147). -/
theorem samePageNext_eq (ptr : Word) : samePageNext ptr = joinBytes (hiByte ptr) (loByte ptr + 1#8) := by
  rw [← loByte_add_one, samePageNext]
  generalize ptr + 1#16 = next
  apply BitVec.eq_of_getLsbD_eq
  intro i hi
  simp only [joinBytes, hiByte, loByte, BitVec.getLsbD_or, BitVec.getLsbD_and, BitVec.getLsbD_shiftLeft,
    BitVec.getLsbD_setWidth, BitVec.getLsbD_extractLsb', getLsbD_00FF, getLsbD_FF00]
  by_cases h : i < 8
  · have h1 : ¬ 8 ≤ i := by omega
    simp [h, h1, hi]
  · have h1 : 8 ≤ i := by omega
    have h2 : i - 8 < 8 := by omega
    have h3 : 8 + (i - 8) = i := by omega
    have h4 : i - 8 < 16 := by omega
    simp only [h, h1, h2, h3, h4, hi, decide_true, decide_false, Bool.true_and, Bool.and_true, Bool.and_false, Bool.or_false,
      Bool.false_and, Bool.not_false]

/-- Sign extension as an integer (00_scope R9). -/
theorem sext16_eq (b : Byte) : sext16 b = BitVec.ofInt 16 b.toInt := by
  have all : ∀ b : Byte, sext16 b = BitVec.ofInt 16 b.toInt := by decide
  exact all b

/-- A branch target (40_dispatch R143). -/
theorem add_sext16 (w : Word) (b : Byte) : w + sext16 b = BitVec.ofInt 16 (w.toNat + b.toInt) := by
  rw [sext16_eq, BitVec.ofInt_add]
  congr 1
  rw [BitVec.ofInt_natCast]
  simp

theorem zext16_eq (b : Byte) : zext16 b = BitVec.ofNat 16 b.toNat := by
  apply BitVec.eq_of_toNat_eq
  simp [zext16]

theorem add_zext16 (w : Word) (b : Byte) : w + zext16 b = BitVec.ofNat 16 (w.toNat + b.toNat) := by
  apply BitVec.eq_of_toNat_eq
  simp [zext16]

end Sys2Proof.Machine
end

