-- ==== Sys2Proof/Laws/Decode.lean ====
section
/-! SUPPORT. What each cell of the opcode map says, cell by cell, and what decoding a form gives (30_encoding R100, R101, R104). -/

namespace Sys2Proof

open Sys2Proof.Machine (joinBytes hiByte loByte joinBytes_hi_lo)

/-- A cell of the opcode map agrees with the encoder: the instructions it gives are well formed and are encoded with its opcode
byte and operand bytes; a cell marked `--` is listed as undefined. -/
def CellAgrees (op : Byte) : Form → Prop
  | .implied i => i.wf = true ∧ (i = .brk ∧ op = 0x00 ∨ i ≠ .brk ∧ encode i = [op])
  | .byte f => ∀ b, (f b).wf = true ∧ f b ≠ .brk ∧ encode (f b) = [op, b]
  | .word f => ∀ w, (f w).wf = true ∧ f w ≠ .brk ∧ encode (f w) = wordForm op w
  | .undefined => op ∈ undefinedOpcodes

/-- Every cell of a row that begins at an opcode byte agrees with the encoder. -/
def RowAgrees : Nat → List Form → Prop
  | _, [] => True
  | n, cell :: rest => CellAgrees (BitVec.ofNat 8 n) cell ∧ RowAgrees (n + 1) rest

theorem RowAgrees.cell {n i : Nat} {row : List Form} (h : RowAgrees n row) (hi : i < row.length) :
    CellAgrees (BitVec.ofNat 8 (n + i)) (row.getD i .undefined) := by
  induction row generalizing n i with
  | nil => simp at hi
  | cons cell rest ih =>
    cases i with
    | zero => exact h.1
    | succ i =>
      have := ih h.2 (i := i) (by simpa using hi)
      rwa [Nat.add_right_comm] at this

theorem RowAgrees.append {n : Nat} {r₁ r₂ : List Form} (h₁ : RowAgrees n r₁) (h₂ : RowAgrees (n + r₁.length) r₂) :
    RowAgrees n (r₁ ++ r₂) := by
  induction r₁ generalizing n with
  | nil => exact h₂
  | cons cell rest ih =>
    refine ⟨h₁.1, ih h₁.2 ?_⟩
    rwa [List.length_cons, Nat.add_comm rest.length 1, ← Nat.add_assoc] at h₂

theorem cell_implied {op : Byte} {i : Instr} (hwf : i.wf = true) (hne : i ≠ .brk) (henc : encode i = [op]) :
    CellAgrees op (.implied i) := ⟨hwf, .inr ⟨hne, henc⟩⟩

theorem cell_byte {op : Byte} {f : Byte → Instr} (h : ∀ b, (f b).wf = true ∧ f b ≠ .brk ∧ encode (f b) = [op, b]) :
    CellAgrees op (.byte f) := h

theorem cell_word {op : Byte} {f : Word → Instr} (h : ∀ w, (f w).wf = true ∧ f w ≠ .brk ∧ encode (f w) = wordForm op w) :
    CellAgrees op (.word f) := h

theorem cell_undefined {op : Byte} (h : op ∈ undefinedOpcodes) : CellAgrees op .undefined := h

theorem row0 : RowAgrees 0 opcodeRow0 := by
  refine ⟨?_, ?_, ?_, ?_, ?_, ?_, ?_, ?_, ?_, ?_, ?_, ?_, ?_, ?_, ?_, ?_, trivial⟩ <;>
    first
      | exact cell_byte fun _ => ⟨rfl, nofun, rfl⟩
      | exact cell_word fun _ => ⟨rfl, nofun, rfl⟩
      | exact cell_implied rfl nofun rfl
      | exact cell_undefined (by decide)
      | exact ⟨rfl, .inl ⟨rfl, rfl⟩⟩

theorem row1 : RowAgrees 16 opcodeRow1 := by
  refine ⟨?_, ?_, ?_, ?_, ?_, ?_, ?_, ?_, ?_, ?_, ?_, ?_, ?_, ?_, ?_, ?_, trivial⟩ <;>
    first
      | exact cell_byte fun _ => ⟨rfl, nofun, rfl⟩
      | exact cell_word fun _ => ⟨rfl, nofun, rfl⟩
      | exact cell_implied rfl nofun rfl
      | exact cell_undefined (by decide)

theorem row2 : RowAgrees 32 opcodeRow2 := by
  refine ⟨?_, ?_, ?_, ?_, ?_, ?_, ?_, ?_, ?_, ?_, ?_, ?_, ?_, ?_, ?_, ?_, trivial⟩ <;>
    first
      | exact cell_byte fun _ => ⟨rfl, nofun, rfl⟩
      | exact cell_word fun _ => ⟨rfl, nofun, rfl⟩
      | exact cell_implied rfl nofun rfl
      | exact cell_undefined (by decide)

theorem row3 : RowAgrees 48 opcodeRow3 := by
  refine ⟨?_, ?_, ?_, ?_, ?_, ?_, ?_, ?_, ?_, ?_, ?_, ?_, ?_, ?_, ?_, ?_, trivial⟩ <;>
    first
      | exact cell_byte fun _ => ⟨rfl, nofun, rfl⟩
      | exact cell_word fun _ => ⟨rfl, nofun, rfl⟩
      | exact cell_implied rfl nofun rfl
      | exact cell_undefined (by decide)

theorem row4 : RowAgrees 64 opcodeRow4 := by
  refine ⟨?_, ?_, ?_, ?_, ?_, ?_, ?_, ?_, ?_, ?_, ?_, ?_, ?_, ?_, ?_, ?_, trivial⟩ <;>
    first
      | exact cell_byte fun _ => ⟨rfl, nofun, rfl⟩
      | exact cell_word fun _ => ⟨rfl, nofun, rfl⟩
      | exact cell_implied rfl nofun rfl
      | exact cell_undefined (by decide)

theorem row5 : RowAgrees 80 opcodeRow5 := by
  refine ⟨?_, ?_, ?_, ?_, ?_, ?_, ?_, ?_, ?_, ?_, ?_, ?_, ?_, ?_, ?_, ?_, trivial⟩ <;>
    first
      | exact cell_byte fun _ => ⟨rfl, nofun, rfl⟩
      | exact cell_word fun _ => ⟨rfl, nofun, rfl⟩
      | exact cell_implied rfl nofun rfl
      | exact cell_undefined (by decide)

theorem row6 : RowAgrees 96 opcodeRow6 := by
  refine ⟨?_, ?_, ?_, ?_, ?_, ?_, ?_, ?_, ?_, ?_, ?_, ?_, ?_, ?_, ?_, ?_, trivial⟩ <;>
    first
      | exact cell_byte fun _ => ⟨rfl, nofun, rfl⟩
      | exact cell_word fun _ => ⟨rfl, nofun, rfl⟩
      | exact cell_implied rfl nofun rfl
      | exact cell_undefined (by decide)

theorem row7 : RowAgrees 112 opcodeRow7 := by
  refine ⟨?_, ?_, ?_, ?_, ?_, ?_, ?_, ?_, ?_, ?_, ?_, ?_, ?_, ?_, ?_, ?_, trivial⟩ <;>
    first
      | exact cell_byte fun _ => ⟨rfl, nofun, rfl⟩
      | exact cell_word fun _ => ⟨rfl, nofun, rfl⟩
      | exact cell_implied rfl nofun rfl
      | exact cell_undefined (by decide)

theorem row8 : RowAgrees 128 opcodeRow8 := by
  refine ⟨?_, ?_, ?_, ?_, ?_, ?_, ?_, ?_, ?_, ?_, ?_, ?_, ?_, ?_, ?_, ?_, trivial⟩ <;>
    first
      | exact cell_byte fun _ => ⟨rfl, nofun, rfl⟩
      | exact cell_word fun _ => ⟨rfl, nofun, rfl⟩
      | exact cell_implied rfl nofun rfl
      | exact cell_undefined (by decide)

theorem row9 : RowAgrees 144 opcodeRow9 := by
  refine ⟨?_, ?_, ?_, ?_, ?_, ?_, ?_, ?_, ?_, ?_, ?_, ?_, ?_, ?_, ?_, ?_, trivial⟩ <;>
    first
      | exact cell_byte fun _ => ⟨rfl, nofun, rfl⟩
      | exact cell_word fun _ => ⟨rfl, nofun, rfl⟩
      | exact cell_implied rfl nofun rfl
      | exact cell_undefined (by decide)

theorem rowA : RowAgrees 160 opcodeRowA := by
  refine ⟨?_, ?_, ?_, ?_, ?_, ?_, ?_, ?_, ?_, ?_, ?_, ?_, ?_, ?_, ?_, ?_, trivial⟩ <;>
    first
      | exact cell_byte fun _ => ⟨rfl, nofun, rfl⟩
      | exact cell_word fun _ => ⟨rfl, nofun, rfl⟩
      | exact cell_implied rfl nofun rfl
      | exact cell_undefined (by decide)

theorem rowB : RowAgrees 176 opcodeRowB := by
  refine ⟨?_, ?_, ?_, ?_, ?_, ?_, ?_, ?_, ?_, ?_, ?_, ?_, ?_, ?_, ?_, ?_, trivial⟩ <;>
    first
      | exact cell_byte fun _ => ⟨rfl, nofun, rfl⟩
      | exact cell_word fun _ => ⟨rfl, nofun, rfl⟩
      | exact cell_implied rfl nofun rfl
      | exact cell_undefined (by decide)

theorem rowC : RowAgrees 192 opcodeRowC := by
  refine ⟨?_, ?_, ?_, ?_, ?_, ?_, ?_, ?_, ?_, ?_, ?_, ?_, ?_, ?_, ?_, ?_, trivial⟩ <;>
    first
      | exact cell_byte fun _ => ⟨rfl, nofun, rfl⟩
      | exact cell_word fun _ => ⟨rfl, nofun, rfl⟩
      | exact cell_implied rfl nofun rfl
      | exact cell_undefined (by decide)

theorem rowD : RowAgrees 208 opcodeRowD := by
  refine ⟨?_, ?_, ?_, ?_, ?_, ?_, ?_, ?_, ?_, ?_, ?_, ?_, ?_, ?_, ?_, ?_, trivial⟩ <;>
    first
      | exact cell_byte fun _ => ⟨rfl, nofun, rfl⟩
      | exact cell_word fun _ => ⟨rfl, nofun, rfl⟩
      | exact cell_implied rfl nofun rfl
      | exact cell_undefined (by decide)

theorem rowE : RowAgrees 224 opcodeRowE := by
  refine ⟨?_, ?_, ?_, ?_, ?_, ?_, ?_, ?_, ?_, ?_, ?_, ?_, ?_, ?_, ?_, ?_, trivial⟩ <;>
    first
      | exact cell_byte fun _ => ⟨rfl, nofun, rfl⟩
      | exact cell_word fun _ => ⟨rfl, nofun, rfl⟩
      | exact cell_implied rfl nofun rfl
      | exact cell_undefined (by decide)

theorem rowF : RowAgrees 240 opcodeRowF := by
  refine ⟨?_, ?_, ?_, ?_, ?_, ?_, ?_, ?_, ?_, ?_, ?_, ?_, ?_, ?_, ?_, ?_, trivial⟩ <;>
    first
      | exact cell_byte fun _ => ⟨rfl, nofun, rfl⟩
      | exact cell_word fun _ => ⟨rfl, nofun, rfl⟩
      | exact cell_implied rfl nofun rfl
      | exact cell_undefined (by decide)

theorem opcodeMap_agrees : RowAgrees 0 opcodeMap := by
  simp only [opcodeMap, List.append_assoc]
  exact row0.append (row1.append (row2.append (row3.append (row4.append (row5.append (row6.append (row7.append (row8.append
    (row9.append (rowA.append (rowB.append (rowC.append (rowD.append (rowE.append rowF))))))))))))))

/-- Every cell of the opcode map agrees with the encoder. -/
theorem formOf_agrees (op : Byte) : CellAgrees op (formOf op) := by
  have hlen : opcodeMap.length = 256 := by
    simp only [opcodeMap, List.length_append]
    rfl
  have hcell := opcodeMap_agrees.cell (i := op.toNat) (by rw [hlen]; exact op.isLt)
  simpa [formOf] using hcell

/-- A decoded instruction comes from the cell of its opcode byte. -/
theorem decode_cases {op : Byte} {rest : List Byte} {i : Instr} (h : decode (op :: rest) = .ok i) :
    formOf op = .implied i ∨ (formOf op = .undefined ∧ i = .undef op) ∨
    (∃ f b tail, formOf op = .byte f ∧ rest = b :: tail ∧ i = f b) ∨
    (∃ f l h tail, formOf op = .word f ∧ rest = l :: h :: tail ∧ i = f (joinBytes h l)) := by
  simp only [decode] at h
  split at h <;> first | (cases h; done) | skip
  all_goals
    rename_i hf
    injection h with h
    subst h
  · exact .inl hf
  · exact .inr (.inl ⟨hf, rfl⟩)
  · exact .inr (.inr (.inl ⟨_, _, _, hf, rfl, rfl⟩))
  · exact .inr (.inr (.inr ⟨_, _, _, _, hf, rfl, rfl⟩))

theorem formOf_undefined {op : Byte} (h : op ∈ undefinedOpcodes) : formOf op = .undefined := by
  have all : ∀ o ∈ undefinedOpcodes, formOf o = .undefined := by
    unfold undefinedOpcodes
    simp only [List.forall_mem_append, List.forall_mem_cons, List.not_mem_nil, false_imp_iff, implies_true, and_true]
    refine ⟨⟨⟨⟨⟨⟨⟨?_, ?_⟩, ?_⟩, ?_⟩, ?_⟩, ?_⟩, ?_⟩, ?_⟩ <;> (repeat' constructor)
  exact all op h

theorem decode_undefined {op : Byte} (h : op ∈ undefinedOpcodes) (rest : List Byte) : decode (op :: rest) = .ok (.undef op) := by
  simp only [decode, formOf_undefined h]

/-- The bytes of a word instruction decode to it. -/
theorem decode_word {op : Byte} {f : Word → Instr} (h : formOf op = .word f) (w : Word) (rest : List Byte) :
    decode (wordForm op w ++ rest) = .ok (f w) := by
  simp [wordForm, decode, h]

/-- The bytes of a one-operand-byte instruction decode to it. -/
theorem decode_byte {op : Byte} {f : Byte → Instr} (h : formOf op = .byte f) (b : Byte) (rest : List Byte) :
    decode ([op, b] ++ rest) = .ok (f b) := by
  simp [decode, h]

end Sys2Proof
end

