-- ==== Sys2Proof/Laws/Exec.lean ====
section
/-! SUPPORT. The shapes an instruction takes, as equations in terms of the state it starts in: a read operand that goes to a register,
a read operand that goes to the status, a store, and a read-modify-write. -/

namespace Sys2Proof.Machine

open Sys2Proof

/-- An instruction that reads its operand and goes on with the byte: the state after the read, with the countdown set. -/
theorem runOp_withOperand (base : Nat) (mode : Operand) (pageCross : Bool) (f : Byte → State → State) (s : State) :
    runOp base mode pageCross (withOperand mode f) s =
      .next (let t := f (operandRead mode s).1 ((s.afterRead mode).setCyc base)
             t.setCyc (t.cyc + (pageCrossed mode s && pageCross).toNat)) := by
  simp only [runOp_eq, withOperand_resolved, operandRead_afterRead]

/-- A store: one bus write of a register at the mode's address, and nothing else (41_load_store R164 to R166). -/
theorem runOp_store (base : Nat) (mode : Operand) (reg : State → Byte) (s : State)
    (hmode : (resolve mode s).2 = s.setEa (operandAddr mode s))
    (hreg : reg ((s.setEa (operandAddr mode s)).setCyc base) = reg s) :
    runOp base mode false (fun t => busWrite t.ea (reg t) t) s =
      .next { busWrite (operandAddr mode s) (reg s) s with ea := operandAddr mode s, cyc := base } := by
  have hm : MemOnly s (busWrite (operandAddr mode s) (reg s) s) := busWrite_state _ _ _
  have hw := busWrite_same (s := s) (t := (s.setEa (operandAddr mode s)).setCyc base) rfl rfl (operandAddr mode s) (reg s)
  unfold MemOnly at hm
  rw [runOp_eq, hmode]
  simp only [State.setCyc_ea, State.setEa_ea, Bool.and_false, hreg]
  rw [hw, hm]
  rfl

/-! The countdown of an instruction whose effect does not write it: the base count and the page-cross cycle (40_dispatch R130). -/

theorem runOp_cyc (base : Nat) (mode : Operand) (pageCross : Bool) {effect : State → State} (h : ∀ t, (effect t).cyc = t.cyc)
    (s : State) :
    ∃ t, runOp base mode pageCross effect s = .next t ∧ t.cyc = base + (pageCrossed mode s && pageCross).toNat := by
  rw [runOp_eq]
  exact ⟨_, rfl, by simp [h]⟩

theorem withOperand_cyc (mode : Operand) {f : Byte → State → State} (h : ∀ v t, (f v t).cyc = t.cyc) (t : State) :
    (withOperand mode f t).cyc = t.cyc := by
  rw [withOperand, h]
  exact readOperand_cyc mode t

theorem modifyOperand_cyc (mode : Operand) (f : Byte → Byte → Byte × Byte) (t : State) : (modifyOperand mode f t).cyc = t.cyc := by
  apply withOperand_cyc
  intro v t
  cases mode <;> simp [writeBack, State.mapP]

/-- A branch: whether it is taken is its condition on the status (44_control R220, decision D4). -/
theorem runOp_branch (d : Byte) (cond : Byte → Bool) (s : State) :
    runOp 2 (.rel d) false (fun t => branchIf (cond t.p) t) s =
      .next (if cond s.p then
          (((s.setEa (s.pc + sext16 d)).setPc (s.pc + sext16 d)).setCyc
            (3 + (decide (hiByte (s.pc + sext16 d) ≠ hiByte s.pc)).toNat))
        else (s.setEa (s.pc + sext16 d)).setCyc 2) := by
  simp only [runOp, resolve, Bool.false_and, branchIf, State.setCyc_pc, State.setEa_ea, State.setEa_pc, State.setEa_p,
    State.setCyc_p, State.setEa_cyc, State.setCyc_cyc, pageOf_bne]
  cases cond s.p <;> rfl

/-- A read-modify-write of memory (40_dispatch R133; 42_arith_logic R190; 43_shift_rotate R210). -/
theorem runOp_modify {mode : Operand} (h : mode ≠ .acc) (base : Nat) (f : Byte → Byte → Byte × Byte) (s : State) :
    runOp base mode false (modifyOperand mode f) s =
      .next (let v := (operandRead mode s).1
             let r := f v s.p
             { busWrite (operandAddr mode s) r.1 (s.afterRead mode) with p := setZN r.1 r.2, cyc := base }) := by
  rw [runOp_eq, modifyOperand_mem h]
  simp only [Bool.and_false]
  rfl

/-- The store of a read-modify-write is the only change of storage. -/
theorem storesOnly_modify (mode : Operand) (ea : Word) (v q : Byte) (n : Nat) (s : State) :
    StoresOnly ea v s { busWrite ea v (s.afterRead mode) with p := q, cyc := n } := by
  have hw := busWrite_same (s := s) (t := s.afterRead mode) rfl rfl ea v
  apply storesOnly_same <;> rw [hw]

/-- The status after a read-modify-write keeps every flag but C, Z and N when its operation writes C alone. -/
theorem setZN_of_kept {p q r : Byte} (h : FlagsKept [.C] p q) : FlagsKept [.C, .Z, .N] p (setZN r q) := by
  intro f hf
  simp only [List.mem_cons, List.not_mem_nil, or_false, not_or] at hf
  rw [setZN_kept r q f (by simp [hf.2.1, hf.2.2]), h f (by simp [hf.1])]

end Sys2Proof.Machine
end

