-- ==== Sys2Proof/Laws/Trap.lean ====
section
/-! SUPPORT. Taking a trap and returning from one, as equations on the state (44_control R230, R233; 60_exceptions R272, R273). -/

namespace Sys2Proof.Machine

open Sys2Proof

theorem sub_two (sp : Byte) : sp - 1#8 - 1#8 = sp - 2#8 := by
  rw [BitVec.sub_sub]
  rfl

theorem add_two (sp : Byte) : sp + 1#8 + 1#8 = sp + 2#8 := by
  rw [BitVec.add_assoc]
  rfl

/-- Above RAM, storage does not depend on RAM. -/
theorem byteAt_high {s t : State} {addr : Word} (h : ¬ addr ≤ 0x1FFF#16) (hc : t.cart = s.cart) : t.byteAt addr = s.byteAt addr := by
  simp only [State.byteAt, if_neg h, hc]

/-- The vectors lie in cartridge space, where every address is storage (20_memory R67). -/
theorem byteAt_storage {addr : Word} (h : isPort addr = false) (s : State) : ∃ v, s.byteAt addr = some v := by
  obtain ⟨v, hv, -⟩ := busRead_storage h false s
  exact ⟨v, hv⟩

/-- The three bytes a trap pushes. -/
theorem push_pushWord (v : Byte) (w : Word) (s : State) :
    push v (pushWord w s) =
      { s with
        ram := ((s.ram.write (stackOffset s.sp) (hiByte w)).write (stackOffset (s.sp - 1#8)) (loByte w)).write
          (stackOffset (s.sp - 2#8)) v
        sp := s.sp - 3#8 } := by
  rw [push_eq, pushWord_eq]
  simp only [State.setSp_sp, State.setSp_ram, State.setRam_ram, sub_two]
  rw [show s.sp - 2#8 - 1#8 = s.sp - 3#8 from BitVec.sub_sub ..]
  rfl

/-- Taking a trap through a vector outside RAM (44_control R230; 60_exceptions R272, R273). -/
theorem enterTrap_eq {s : State} {vector : Word} {l h : Byte} (returnAddr : Word) (pushedP newP : Byte)
    (hv : ¬ vector ≤ 0x1FFF#16) (hv' : ¬ vector + 1#16 ≤ 0x1FFF#16) (hl : s.byteAt vector = some l)
    (hh : s.byteAt (vector + 1#16) = some h) :
    enterTrap returnAddr pushedP newP vector s =
      { s with
        ram := ((s.ram.write (stackOffset s.sp) (hiByte returnAddr)).write (stackOffset (s.sp - 1#8)) (loByte returnAddr)).write
          (stackOffset (s.sp - 2#8)) pushedP
        sp := s.sp - 3#8, p := newP, pc := joinBytes h l } := by
  have target : ∀ t : State, t.cart = s.cart → memRead16 vector t = (joinBytes h l, t) := fun t hc =>
    memReadPair_of_byteAt ((byteAt_high hv hc).trans hl) ((byteAt_high hv' hc).trans hh)
  have pushed : ((push pushedP (pushWord returnAddr s)).setP newP).cart = s.cart := by rw [push_pushWord]; rfl
  simp only [enterTrap, target _ pushed]
  rw [push_pushWord]
  rfl

/-- An interrupt entry through a vector outside RAM (60_exceptions R272 to R274). -/
theorem interruptEntry_eq {s : State} {vector : Word} {l h : Byte} (countdown : Nat) (hv : ¬ vector ≤ 0x1FFF#16)
    (hv' : ¬ vector + 1#16 ≤ 0x1FFF#16) (hl : s.byteAt vector = some l) (hh : s.byteAt (vector + 1#16) = some h) :
    interruptEntry vector countdown s =
      { s with
        ram := ((s.ram.write (stackOffset s.sp) (hiByte s.pc)).write (stackOffset (s.sp - 1#8)) (loByte s.pc)).write
          (stackOffset (s.sp - 2#8)) (interruptStatus s.p)
        sp := s.sp - 3#8, p := interruptStatus s.p, pc := joinBytes h l, cyc := countdown } := by
  rw [interruptEntry, enterTrap_eq _ _ _ hv hv' hl hh]
  rfl

/-- Returning from a trap (44_control R233). -/
theorem returnFromTrap_eq (s : State) :
    returnFromTrap s =
      { s with
        p := pulledStatus (s.ram.read (stackOffset (s.sp + 1#8)))
        pc := joinBytes (s.ram.read (stackOffset (s.sp + 3#8))) (s.ram.read (stackOffset (s.sp + 2#8)))
        sp := s.sp + 3#8 } := by
  simp only [returnFromTrap, pull_eq, pullWord_eq, State.setP_sp, State.setSp_sp, add_two]
  rw [show s.sp + 2#8 + 1#8 = s.sp + 3#8 from BitVec.add_assoc ..]
  rfl

/-- Changes confined to some RAM bytes keep every other byte of storage. -/
theorem keepsMemoryBut_ram {s t : State} {offsets : List Nat} (hc : t.cart = s.cart)
    (h : s.memoriesWf = true → ∀ o, o ∉ offsets → t.ram.read o = s.ram.read o) : KeepsMemoryBut offsets s t := by
  intro hwf b hb
  rw [byteAt_place, byteAt_place, place_same hc]
  cases hp : s.place b with
  | ram o => simp only [h hwf o fun ho => hb o ho hp]
  | port n => rfl
  | prg o => rw [hc]
  | unmapped => rfl

theorem stackOffset_lt (sp : Byte) : stackOffset sp < 2048 := by
  have := sp.isLt
  unfold stackOffset
  omega

/-- Three writes into RAM keep every other byte. -/
theorem read_write_three {m : Memory} (hwf : Memory.wf 2048 m = true) {a b c o : Nat} (u v w : Byte) (ha : a < 2048) (hb : b < 2048)
    (ho : o ∉ [a, b, c]) : (((m.write a u).write b v).write c w).read o = m.read o := by
  simp only [List.mem_cons, List.not_mem_nil, or_false, not_or] at ho
  have h1 := Memory.wf_write m a u hwf ha
  have h2 := Memory.wf_write _ b v h1 hb
  rw [Memory.read_write (lo := 0) _ _ _ _ h2, if_neg ho.2.2, Memory.read_write (lo := 0) _ _ _ _ h1, if_neg ho.2.1,
    Memory.read_write (lo := 0) _ _ _ _ hwf, if_neg ho.1]

theorem stackOffset_inj {a b : Byte} (h : stackOffset a = stackOffset b) : a = b := by
  unfold stackOffset at h
  exact BitVec.eq_of_toNat_eq (by omega)

/-- The three bytes a trap pushed, read back from below (44_control R230, R233). -/
theorem read_pushed_three {s : State} (hwf : s.memoriesWf = true) (u v w : Byte) :
    let m := ((s.ram.write (stackOffset s.sp) u).write (stackOffset (s.sp - 1#8)) v).write (stackOffset (s.sp - 2#8)) w
    m.read (stackOffset (s.sp - 3#8 + 1#8)) = w ∧ m.read (stackOffset (s.sp - 3#8 + 2#8)) = v ∧
    m.read (stackOffset (s.sp - 3#8 + 3#8)) = u := by
  have n1 : stackOffset s.sp ≠ stackOffset (s.sp - 1#8) := fun h => by
    have := congrArg BitVec.toNat (stackOffset_inj h)
    rw [BitVec.toNat_sub] at this
    have := s.sp.isLt
    simp at *; omega
  have n2 : stackOffset s.sp ≠ stackOffset (s.sp - 2#8) := fun h => by
    have := congrArg BitVec.toNat (stackOffset_inj h)
    rw [BitVec.toNat_sub] at this
    have := s.sp.isLt
    simp at *; omega
  have n3 : stackOffset (s.sp - 1#8) ≠ stackOffset (s.sp - 2#8) := fun h => by
    have := congrArg BitVec.toNat (stackOffset_inj h)
    rw [BitVec.toNat_sub, BitVec.toNat_sub] at this
    have := s.sp.isLt
    simp at *; omega
  have e3 : s.sp - 3#8 + 3#8 = s.sp := BitVec.sub_add_cancel ..
  have e2 : s.sp - 3#8 + 2#8 = s.sp - 1#8 := by
    rw [show s.sp - 3#8 = s.sp - 1#8 - 2#8 from by rw [BitVec.sub_sub]; rfl]; exact BitVec.sub_add_cancel ..
  have e1 : s.sp - 3#8 + 1#8 = s.sp - 2#8 := by
    rw [show s.sp - 3#8 = s.sp - 2#8 - 1#8 from by rw [BitVec.sub_sub]; rfl]; exact BitVec.sub_add_cancel ..
  have h0 := memoriesWf_ram hwf
  have h1 := Memory.wf_write _ _ u h0 (stackOffset_lt s.sp)
  have h2 := Memory.wf_write _ _ v h1 (stackOffset_lt (s.sp - 1#8))
  rw [e1, e2, e3]
  have r1 := fun j => Memory.read_write (lo := 0) _ (stackOffset s.sp) j u h0
  have r2 := fun j => Memory.read_write (lo := 0) _ (stackOffset (s.sp - 1#8)) j v h1
  have r3 := fun j => Memory.read_write (lo := 0) _ (stackOffset (s.sp - 2#8)) j w h2
  refine ⟨?_, ?_, ?_⟩
  · rw [r3, if_pos rfl]
  · rw [r3, if_neg n3, r2, if_pos rfl]
  · rw [r3, if_neg n2, r2, if_neg n1, r1, if_pos rfl]

end Sys2Proof.Machine
end

