-- ==== Sys2Proof/Laws/Frame.lean ====
section
/-! SUPPORT. What no instruction touches: `Kept s t` lists it once, every operation satisfies it, and so does every instruction. -/

namespace Sys2Proof.Machine

open Sys2Proof

/-- From `s` to `t`: the stub's counters and frame flag, the ratio counter, the clock count, the opcode, the parameters and `hasReset`
are as before, the cartridge differs at most in its program memory, the memories stay canonical, the vertical-blank flag is not
set, and a stored B = 0 and U = 1 is held. -/
structure Kept (s t : State) : Prop where
  ppuCycle : t.ppuCycle = s.ppuCycle
  ppuScanline : t.ppuScanline = s.ppuScanline
  frameComplete : t.frameComplete = s.frameComplete
  busCtr : t.busCtr = s.busCtr
  clockCount : t.clockCount = s.clockCount
  opcode : t.opcode = s.opcode
  params : t.params = s.params
  hasReset : t.hasReset = s.hasReset
  cart : ∃ prg, t.cart = s.cart.map (fun c => { c with prg := prg })
  memories : s.memoriesWf = true → t.memoriesWf = true
  vblank : t.vblank = true → s.vblank = true
  status : s.statusHeld = true → t.statusHeld = true

theorem cart_self (s : State) : ∃ prg, s.cart = s.cart.map (fun c => { c with prg := prg }) := by
  cases h : s.cart with
  | none => exact ⟨[], rfl⟩
  | some c => exact ⟨c.prg, rfl⟩

theorem Kept.refl (s : State) : Kept s s :=
  ⟨rfl, rfl, rfl, rfl, rfl, rfl, rfl, rfl, cart_self s, id, id, id⟩

theorem Kept.trans {s t u : State} (h : Kept s t) (k : Kept t u) : Kept s u where
  ppuCycle := k.ppuCycle.trans h.ppuCycle
  ppuScanline := k.ppuScanline.trans h.ppuScanline
  frameComplete := k.frameComplete.trans h.frameComplete
  busCtr := k.busCtr.trans h.busCtr
  clockCount := k.clockCount.trans h.clockCount
  opcode := k.opcode.trans h.opcode
  params := k.params.trans h.params
  hasReset := k.hasReset.trans h.hasReset
  cart := by
    obtain ⟨a, ha⟩ := h.cart
    obtain ⟨b, hb⟩ := k.cart
    exact ⟨b, by rw [hb, ha, Option.map_map]; rfl⟩
  memories := k.memories ∘ h.memories
  vblank := h.vblank ∘ k.vblank
  status := k.status ∘ h.status

/-! The status register. -/

theorem statusHeld_iff (s : State) : s.statusHeld = true ↔ getFlag .B s.p = false ∧ getFlag .U s.p = true := by
  have all : ∀ p : Byte, (p &&& 0x30#8 = 0x20#8) ↔ (getFlag .B p = false ∧ getFlag .U p = true) := by decide
  simp only [State.statusHeld, decide_eq_true_eq]
  exact all s.p

theorem Kept.setP {s : State} {q : Byte} (h : s.statusHeld = true → getFlag .B q = false ∧ getFlag .U q = true) :
    Kept s (s.setP q) :=
  ⟨rfl, rfl, rfl, rfl, rfl, rfl, rfl, rfl, cart_self s, id, id, fun hs => (statusHeld_iff _).mpr (h hs)⟩

theorem Kept.withP {s t : State} {q : Byte} (k : Kept s t)
    (h : s.statusHeld = true → getFlag .B q = false ∧ getFlag .U q = true) : Kept s (t.setP q) where
  ppuCycle := k.ppuCycle
  ppuScanline := k.ppuScanline
  frameComplete := k.frameComplete
  busCtr := k.busCtr
  clockCount := k.clockCount
  opcode := k.opcode
  params := k.params
  hasReset := k.hasReset
  cart := k.cart
  memories := k.memories
  vblank := k.vblank
  status := fun hs => (statusHeld_iff _).mpr (h hs)

theorem Kept.pulledStatus (s : State) (v : Byte) : Kept s (s.setP (pulledStatus v)) :=
  Kept.setP fun _ => ⟨getFlag_pulledStatus .B v, getFlag_pulledStatus .U v⟩

/-- A status computation that leaves B and U alone. -/
theorem Kept.setP_of_flags {s : State} {q : Byte} {written : List Flag} (h : FlagsKept written s.p q) (hB : Flag.B ∉ written)
    (hU : Flag.U ∉ written) : Kept s (s.setP q) :=
  Kept.setP fun hs => by
    rw [statusHeld_iff] at hs
    rwa [h _ hB, h _ hU]

theorem Kept.mapP {s : State} {f : Byte → Byte} {written : List Flag} (h : FlagsKept written s.p (f s.p)) (hB : Flag.B ∉ written)
    (hU : Flag.U ∉ written) : Kept s (s.mapP f) := Kept.setP_of_flags h hB hU

/-! The other registers. -/

theorem Kept.setA (s : State) (v : Byte) : Kept s (s.setA v) :=
  ⟨rfl, rfl, rfl, rfl, rfl, rfl, rfl, rfl, cart_self s, id, id, id⟩

theorem Kept.setX (s : State) (v : Byte) : Kept s (s.setX v) :=
  ⟨rfl, rfl, rfl, rfl, rfl, rfl, rfl, rfl, cart_self s, id, id, id⟩

theorem Kept.setY (s : State) (v : Byte) : Kept s (s.setY v) :=
  ⟨rfl, rfl, rfl, rfl, rfl, rfl, rfl, rfl, cart_self s, id, id, id⟩

theorem Kept.setSp (s : State) (v : Byte) : Kept s (s.setSp v) :=
  ⟨rfl, rfl, rfl, rfl, rfl, rfl, rfl, rfl, cart_self s, id, id, id⟩

theorem Kept.setPc (s : State) (v : Word) : Kept s (s.setPc v) :=
  ⟨rfl, rfl, rfl, rfl, rfl, rfl, rfl, rfl, cart_self s, id, id, id⟩

theorem Kept.setEa (s : State) (v : Word) : Kept s (s.setEa v) :=
  ⟨rfl, rfl, rfl, rfl, rfl, rfl, rfl, rfl, cart_self s, id, id, id⟩

theorem Kept.setCyc (s : State) (n : Nat) : Kept s (s.setCyc n) :=
  ⟨rfl, rfl, rfl, rfl, rfl, rfl, rfl, rfl, cart_self s, id, id, id⟩

/-! Bus, stack and operands. -/

theorem busRead_vblank (addr : Word) (ro : Bool) (s : State) : (busRead addr ro s).2.vblank = true → s.vblank = true := by
  cases h : isPort addr with
  | true =>
    rw [busRead_port h, portRead_state]
    dsimp only
    split
    · exact fun h => by cases h
    · exact id
  | false =>
    obtain ⟨v, -, hr⟩ := busRead_storage h ro s
    rw [hr]
    exact id

theorem Kept.busRead (addr : Word) (ro : Bool) (s : State) : Kept s (busRead addr ro s).2 := by
  have h : PortOnly s (Machine.busRead addr ro s).2 := busRead_state addr ro s
  have hv := busRead_vblank addr ro s
  unfold PortOnly at h
  generalize (Machine.busRead addr ro s).2 = t at *
  rw [h]
  exact ⟨rfl, rfl, rfl, rfl, rfl, rfl, rfl, rfl, cart_self s, id, hv, id⟩

theorem Kept.memRead (addr : Word) (s : State) : Kept s (memRead addr s).2 := Kept.busRead addr false s

theorem Kept.memReadPair (low high : Word) (s : State) : Kept s (memReadPair low high s).2 :=
  (Kept.memRead low s).trans (Kept.memRead high _)

theorem Kept.busWrite (addr : Word) (v : Byte) (s : State) : Kept s (busWrite addr v s) := by
  have h : MemOnly s (Machine.busWrite addr v s) := busWrite_state addr v s
  have hw := fun hwf => memoriesWf_busWrite (s := s) hwf addr v
  have hcart : ∃ prg, (Machine.busWrite addr v s).cart = s.cart.map (fun c => { c with prg := prg }) := by
    rw [busWrite_place]
    cases hp : s.place addr with
    | prg o =>
      obtain ⟨c, hc, -⟩ := place_prg_cart hp
      exact ⟨c.prg.write o v, by simp [hc]⟩
    | _ => exact cart_self s
  unfold MemOnly at h
  generalize Machine.busWrite addr v s = t at *
  exact
    { ppuCycle := by rw [h], ppuScanline := by rw [h], frameComplete := by rw [h], busCtr := by rw [h], clockCount := by rw [h]
      opcode := by rw [h], params := by rw [h], hasReset := by rw [h], cart := hcart, memories := hw
      vblank := fun hv => by rw [h] at hv; exact hv
      status := fun hs => by rw [statusHeld_iff] at hs ⊢; rw [h]; exact hs }

theorem Kept.push (v : Byte) (s : State) : Kept s (push v s) := (Kept.busWrite _ v s).trans (Kept.setSp _ _)

theorem Kept.pushWord (w : Word) (s : State) : Kept s (pushWord w s) := (Kept.push _ s).trans (Kept.push _ _)

theorem Kept.pull (s : State) : Kept s (pull s).2 := (Kept.setSp s _).trans (Kept.memRead _ _)

theorem Kept.pullWord (s : State) : Kept s (pullWord s).2 := (Kept.pull s).trans (Kept.pull _)

theorem Kept.resolve (mode : Operand) (s : State) : Kept s (resolve mode s).2 := by
  cases mode with
  | imp => exact Kept.refl s
  | acc => exact Kept.refl s
  | ind ptr => exact (Kept.memReadPair _ _ s).trans (Kept.setEa _ _)
  | izx z => exact (Kept.memReadPair _ _ s).trans (Kept.setEa _ _)
  | izy z => exact (Kept.memReadPair _ _ s).trans (Kept.setEa _ _)
  | _ => exact Kept.setEa s _

theorem Kept.readOperand (mode : Operand) (s : State) : Kept s (readOperand mode s).2 := by
  cases mode with
  | acc => exact Kept.refl s
  | imm i => exact Kept.refl s
  | _ => exact Kept.memRead s.ea s

theorem Kept.writeBack (mode : Operand) (v : Byte) (s : State) : Kept s (writeBack mode v s) := by
  cases mode with
  | acc => exact Kept.setA s v
  | _ => exact Kept.busWrite s.ea v s

theorem Kept.withOperand (mode : Operand) {f : Byte → State → State} (hf : ∀ v t, Kept t (f v t)) (s : State) :
    Kept s (withOperand mode f s) := (Kept.readOperand mode s).trans (hf _ _)

theorem Kept.putZN {put : State → Byte → State} (hput : ∀ t v, Kept t (put t v)) (v : Byte) (s : State) : Kept s (putZN put v s) :=
  (hput s v).trans (Kept.mapP (setZN_kept v _) (by decide) (by decide))

theorem Kept.modifyOperand (mode : Operand) {f : Byte → Byte → Byte × Byte} (hf : ∀ v p, FlagsKept [.C] p (f v p).2) (s : State) :
    Kept s (modifyOperand mode f s) :=
  Kept.withOperand mode
    (fun v t => ((Kept.setP_of_flags (hf v t.p) (by decide) (by decide)).trans (Kept.writeBack mode _ _)).trans
      (Kept.mapP (setZN_kept _ _) (by decide) (by decide))) s

theorem Kept.branchIf (cond : Bool) (s : State) : Kept s (branchIf cond s) := by
  cases cond with
  | true => exact (Kept.setCyc s _).trans (Kept.setPc _ _)
  | false => exact Kept.refl s

theorem Kept.enterTrap (returnAddr : Word) (pushedP newP : Byte) (vector : Word) (s : State)
    (h : s.statusHeld = true → getFlag .B newP = false ∧ getFlag .U newP = true) :
    Kept s (enterTrap returnAddr pushedP newP vector s) := by
  have k : Kept s (Machine.push pushedP (Machine.pushWord returnAddr s)) := (Kept.pushWord returnAddr s).trans (Kept.push pushedP _)
  exact ((k.withP h).trans (Kept.memReadPair vector (vector + 1#16) _)).trans (Kept.setPc _ _)

theorem Kept.returnFromTrap (s : State) : Kept s (returnFromTrap s) :=
  (((Kept.pull s).trans (.pulledStatus _ _)).trans (Kept.pullWord _)).trans (Kept.setPc _ _)

theorem Kept.interruptEntry (vector : Word) (countdown : Nat) (s : State) : Kept s (interruptEntry vector countdown s) :=
  (Kept.enterTrap s.pc (interruptStatus s.p) (interruptStatus s.p) vector s fun _ =>
    ⟨getFlag_interruptStatus .B s.p, getFlag_interruptStatus .U s.p⟩).trans (Kept.setCyc _ countdown)

theorem Kept.irqRequest (s : State) : Kept s (irqRequest s) := by
  unfold Machine.irqRequest
  split
  · exact Kept.refl s
  · exact Kept.interruptEntry _ _ s

theorem Kept.nmiRequest (s : State) : Kept s (nmiRequest s) := Kept.interruptEntry _ _ s

/-! Every instruction. -/

/-- Running an operation answers a next state, and keeps what its effect keeps. -/
theorem runOp_kept (base : Nat) (mode : Operand) (pageCross : Bool) {effect : State → State} (h : ∀ t, Kept t (effect t)) (s : State) :
    ∃ t, runOp base mode pageCross effect s = .next t ∧ Kept s t :=
  ⟨_, rfl, (((Kept.setCyc s base).trans (Kept.resolve mode _)).trans (h _)).trans (Kept.setCyc _ _)⟩

theorem Kept.flags {f : Byte → Byte} {written : List Flag} (h : ∀ p, FlagsKept written p (f p)) (hB : Flag.B ∉ written)
    (hU : Flag.U ∉ written) (t : State) : Kept t (t.mapP f) := Kept.mapP (h t.p) hB hU

theorem execLda_kept (m : AccOperand) (s : State) : ∃ t, execLda m s = .next t ∧ Kept s t :=
  runOp_kept _ _ _ (.withOperand _ (.putZN .setA)) s

theorem execLdx_kept (m : LdxOperand) (s : State) : ∃ t, execLdx m s = .next t ∧ Kept s t :=
  runOp_kept _ _ _ (.withOperand _ (.putZN .setX)) s

theorem execLdy_kept (m : LdyOperand) (s : State) : ∃ t, execLdy m s = .next t ∧ Kept s t :=
  runOp_kept _ _ _ (.withOperand _ (.putZN .setY)) s

theorem execSta_kept (m : StaOperand) (s : State) : ∃ t, execSta m s = .next t ∧ Kept s t :=
  runOp_kept _ _ _ (fun t => .busWrite _ _ t) s

theorem execStx_kept (m : StxOperand) (s : State) : ∃ t, execStx m s = .next t ∧ Kept s t :=
  runOp_kept _ _ _ (fun t => .busWrite _ _ t) s

theorem execSty_kept (m : StyOperand) (s : State) : ∃ t, execSty m s = .next t ∧ Kept s t :=
  runOp_kept _ _ _ (fun t => .busWrite _ _ t) s

theorem execTax_kept (s : State) : ∃ t, execTax s = .next t ∧ Kept s t :=
  runOp_kept _ _ _ (fun t => .putZN .setX _ t) s

theorem execTay_kept (s : State) : ∃ t, execTay s = .next t ∧ Kept s t :=
  runOp_kept _ _ _ (fun t => .putZN .setY _ t) s

theorem execTxa_kept (s : State) : ∃ t, execTxa s = .next t ∧ Kept s t :=
  runOp_kept _ _ _ (fun t => .putZN .setA _ t) s

theorem execTya_kept (s : State) : ∃ t, execTya s = .next t ∧ Kept s t :=
  runOp_kept _ _ _ (fun t => .putZN .setA _ t) s

theorem execTsx_kept (s : State) : ∃ t, execTsx s = .next t ∧ Kept s t :=
  runOp_kept _ _ _ (fun t => .putZN .setX _ t) s

theorem execTxs_kept (s : State) : ∃ t, execTxs s = .next t ∧ Kept s t :=
  runOp_kept _ _ _ (fun t => .setSp t _) s

theorem execAdc_kept (m : AccOperand) (s : State) : ∃ t, execAdc m s = .next t ∧ Kept s t :=
  runOp_kept _ _ _ (.withOperand _ fun _ _ =>
    (Kept.setP_of_flags (addWithCarry_kept _ _ _) (by decide) (by decide)).trans (.setA _ _)) s

theorem execSbc_kept (m : AccOperand) (s : State) : ∃ t, execSbc m s = .next t ∧ Kept s t :=
  runOp_kept _ _ _ (.withOperand _ fun _ _ =>
    (Kept.setP_of_flags (addWithCarry_kept _ _ _) (by decide) (by decide)).trans (.setA _ _)) s

theorem execAnd_kept (m : AccOperand) (s : State) : ∃ t, execAnd m s = .next t ∧ Kept s t :=
  runOp_kept _ _ _ (.withOperand _ fun _ t => .putZN .setA _ t) s

theorem execOra_kept (m : AccOperand) (s : State) : ∃ t, execOra m s = .next t ∧ Kept s t :=
  runOp_kept _ _ _ (.withOperand _ fun _ t => .putZN .setA _ t) s

theorem execEor_kept (m : AccOperand) (s : State) : ∃ t, execEor m s = .next t ∧ Kept s t :=
  runOp_kept _ _ _ (.withOperand _ fun _ t => .putZN .setA _ t) s

theorem execBit_kept (m : BitOperand) (s : State) : ∃ t, execBit m s = .next t ∧ Kept s t :=
  runOp_kept _ _ _ (.withOperand _ fun _ t => .mapP (bitFlags_kept _ _ _) (by decide) (by decide)) s

theorem execCmp_kept (m : AccOperand) (s : State) : ∃ t, execCmp m s = .next t ∧ Kept s t :=
  runOp_kept _ _ _ (.withOperand _ fun _ t => .mapP (compareFlags_kept _ _ _) (by decide) (by decide)) s

theorem execCpx_kept (m : CpOperand) (s : State) : ∃ t, execCpx m s = .next t ∧ Kept s t :=
  runOp_kept _ _ _ (.withOperand _ fun _ t => .mapP (compareFlags_kept _ _ _) (by decide) (by decide)) s

theorem execCpy_kept (m : CpOperand) (s : State) : ∃ t, execCpy m s = .next t ∧ Kept s t :=
  runOp_kept _ _ _ (.withOperand _ fun _ t => .mapP (compareFlags_kept _ _ _) (by decide) (by decide)) s

theorem execInc_kept (m : IncOperand) (s : State) : ∃ t, execInc m s = .next t ∧ Kept s t :=
  runOp_kept _ _ _ (.modifyOperand _ fun _ _ _ _ => rfl) s

theorem execDec_kept (m : IncOperand) (s : State) : ∃ t, execDec m s = .next t ∧ Kept s t :=
  runOp_kept _ _ _ (.modifyOperand _ fun _ _ _ _ => rfl) s

theorem execInx_kept (s : State) : ∃ t, execInx s = .next t ∧ Kept s t :=
  runOp_kept _ _ _ (fun t => .putZN .setX _ t) s

theorem execIny_kept (s : State) : ∃ t, execIny s = .next t ∧ Kept s t :=
  runOp_kept _ _ _ (fun t => .putZN .setY _ t) s

theorem execDex_kept (s : State) : ∃ t, execDex s = .next t ∧ Kept s t :=
  runOp_kept _ _ _ (fun t => .putZN .setX _ t) s

theorem execDey_kept (s : State) : ∃ t, execDey s = .next t ∧ Kept s t :=
  runOp_kept _ _ _ (fun t => .putZN .setY _ t) s

theorem execAsl_kept (m : ShiftOperand) (s : State) : ∃ t, execAsl m s = .next t ∧ Kept s t :=
  runOp_kept _ _ _ (.modifyOperand _ fun _ p => putFlag_kept .C _ p) s

theorem execLsr_kept (m : ShiftOperand) (s : State) : ∃ t, execLsr m s = .next t ∧ Kept s t :=
  runOp_kept _ _ _ (.modifyOperand _ fun _ p => putFlag_kept .C _ p) s

theorem execRol_kept (m : ShiftOperand) (s : State) : ∃ t, execRol m s = .next t ∧ Kept s t :=
  runOp_kept _ _ _ (.modifyOperand _ fun _ p => putFlag_kept .C _ p) s

theorem execRor_kept (m : ShiftOperand) (s : State) : ∃ t, execRor m s = .next t ∧ Kept s t :=
  runOp_kept _ _ _ (.modifyOperand _ fun _ p => putFlag_kept .C _ p) s

theorem execBpl_kept (d : Byte) (s : State) : ∃ t, execBpl d s = .next t ∧ Kept s t :=
  runOp_kept _ _ _ (fun t => .branchIf _ t) s

theorem execBmi_kept (d : Byte) (s : State) : ∃ t, execBmi d s = .next t ∧ Kept s t :=
  runOp_kept _ _ _ (fun t => .branchIf _ t) s

theorem execBvc_kept (d : Byte) (s : State) : ∃ t, execBvc d s = .next t ∧ Kept s t :=
  runOp_kept _ _ _ (fun t => .branchIf _ t) s

theorem execBvs_kept (d : Byte) (s : State) : ∃ t, execBvs d s = .next t ∧ Kept s t :=
  runOp_kept _ _ _ (fun t => .branchIf _ t) s

theorem execBcc_kept (d : Byte) (s : State) : ∃ t, execBcc d s = .next t ∧ Kept s t :=
  runOp_kept _ _ _ (fun t => .branchIf _ t) s

theorem execBcs_kept (d : Byte) (s : State) : ∃ t, execBcs d s = .next t ∧ Kept s t :=
  runOp_kept _ _ _ (fun t => .branchIf _ t) s

theorem execBne_kept (d : Byte) (s : State) : ∃ t, execBne d s = .next t ∧ Kept s t :=
  runOp_kept _ _ _ (fun t => .branchIf _ t) s

theorem execBeq_kept (d : Byte) (s : State) : ∃ t, execBeq d s = .next t ∧ Kept s t :=
  runOp_kept _ _ _ (fun t => .branchIf _ t) s

theorem execJmp_kept (m : JmpOperand) (s : State) : ∃ t, execJmp m s = .next t ∧ Kept s t :=
  runOp_kept _ _ _ (fun t => .setPc t _) s

theorem execBrk_kept (s : State) : ∃ t, execBrk s = .next t ∧ Kept s t := by
  unfold execBrk
  refine runOp_kept 7 .imp false (fun t => ?_) s
  refine Kept.enterTrap (t.pc + 1#16) (pushedStatus t.p) (putFlag .I true t.p) irqVector t fun hs => ?_
  rw [statusHeld_iff] at hs
  rw [getFlag_putFlag, getFlag_putFlag]
  exact hs

theorem execJsr_kept (target : Word) (s : State) : ∃ t, execJsr target s = .next t ∧ Kept s t :=
  runOp_kept _ _ _ (fun t => (Kept.pushWord _ t).trans (.setPc _ _)) s

theorem execRts_kept (s : State) : ∃ t, execRts s = .next t ∧ Kept s t :=
  runOp_kept _ _ _ (fun t => (Kept.pullWord t).trans (.setPc _ _)) s

theorem execRti_kept (s : State) : ∃ t, execRti s = .next t ∧ Kept s t :=
  runOp_kept _ _ _ (fun t => .returnFromTrap t) s

theorem execPha_kept (s : State) : ∃ t, execPha s = .next t ∧ Kept s t :=
  runOp_kept _ _ _ (fun t => .push _ t) s

theorem execPhp_kept (s : State) : ∃ t, execPhp s = .next t ∧ Kept s t :=
  runOp_kept _ _ _ (fun t => .push _ t) s

theorem execPla_kept (s : State) : ∃ t, execPla s = .next t ∧ Kept s t :=
  runOp_kept _ _ _ (fun t => (Kept.pull t).trans (.putZN .setA _ _)) s

theorem execPlp_kept (s : State) : ∃ t, execPlp s = .next t ∧ Kept s t :=
  runOp_kept _ _ _ (fun t => (Kept.pull t).trans (.pulledStatus _ _)) s

theorem execClc_kept (s : State) : ∃ t, execClc s = .next t ∧ Kept s t :=
  runOp_kept _ _ _ (fun t => .mapP (putFlag_kept .C _ t.p) (by decide) (by decide)) s

theorem execSec_kept (s : State) : ∃ t, execSec s = .next t ∧ Kept s t :=
  runOp_kept _ _ _ (fun t => .mapP (putFlag_kept .C _ t.p) (by decide) (by decide)) s

theorem execCli_kept (s : State) : ∃ t, execCli s = .next t ∧ Kept s t :=
  runOp_kept _ _ _ (fun t => .mapP (putFlag_kept .I _ t.p) (by decide) (by decide)) s

theorem execSei_kept (s : State) : ∃ t, execSei s = .next t ∧ Kept s t :=
  runOp_kept _ _ _ (fun t => .mapP (putFlag_kept .I _ t.p) (by decide) (by decide)) s

theorem execClv_kept (s : State) : ∃ t, execClv s = .next t ∧ Kept s t :=
  runOp_kept _ _ _ (fun t => .mapP (putFlag_kept .V _ t.p) (by decide) (by decide)) s

theorem execCld_kept (s : State) : ∃ t, execCld s = .next t ∧ Kept s t :=
  runOp_kept _ _ _ (fun t => .mapP (putFlag_kept .D _ t.p) (by decide) (by decide)) s

theorem execSed_kept (s : State) : ∃ t, execSed s = .next t ∧ Kept s t :=
  runOp_kept _ _ _ (fun t => .mapP (putFlag_kept .D _ t.p) (by decide) (by decide)) s

theorem execNop_kept (s : State) : ∃ t, execNop s = .next t ∧ Kept s t :=
  runOp_kept _ _ _ (fun t => .refl t) s

theorem execUndef_kept (op : Byte) (s : State) : ∃ t, execUndef op s = .next t ∧ Kept s t :=
  runOp_kept _ _ _ (fun t => .setPc t _) s

/-- Every instruction answers a next state that keeps what no instruction touches (60_exceptions R270, R303). -/
theorem exec_kept (i : Instr) (s : State) : ∃ t, exec i s = .next t ∧ Kept s t := by
  cases i with
  | lda m => exact execLda_kept m s
  | ldx m => exact execLdx_kept m s
  | ldy m => exact execLdy_kept m s
  | sta m => exact execSta_kept m s
  | stx m => exact execStx_kept m s
  | sty m => exact execSty_kept m s
  | tax => exact execTax_kept s
  | tay => exact execTay_kept s
  | txa => exact execTxa_kept s
  | tya => exact execTya_kept s
  | tsx => exact execTsx_kept s
  | txs => exact execTxs_kept s
  | adc m => exact execAdc_kept m s
  | sbc m => exact execSbc_kept m s
  | and m => exact execAnd_kept m s
  | ora m => exact execOra_kept m s
  | eor m => exact execEor_kept m s
  | bit m => exact execBit_kept m s
  | cmp m => exact execCmp_kept m s
  | cpx m => exact execCpx_kept m s
  | cpy m => exact execCpy_kept m s
  | inc m => exact execInc_kept m s
  | dec m => exact execDec_kept m s
  | inx => exact execInx_kept s
  | iny => exact execIny_kept s
  | dex => exact execDex_kept s
  | dey => exact execDey_kept s
  | asl m => exact execAsl_kept m s
  | lsr m => exact execLsr_kept m s
  | rol m => exact execRol_kept m s
  | ror m => exact execRor_kept m s
  | bpl d => exact execBpl_kept d s
  | bmi d => exact execBmi_kept d s
  | bvc d => exact execBvc_kept d s
  | bvs d => exact execBvs_kept d s
  | bcc d => exact execBcc_kept d s
  | bcs d => exact execBcs_kept d s
  | bne d => exact execBne_kept d s
  | beq d => exact execBeq_kept d s
  | jmp m => exact execJmp_kept m s
  | brk => exact execBrk_kept s
  | jsr target => exact execJsr_kept target s
  | rts => exact execRts_kept s
  | rti => exact execRti_kept s
  | pha => exact execPha_kept s
  | php => exact execPhp_kept s
  | pla => exact execPla_kept s
  | plp => exact execPlp_kept s
  | clc => exact execClc_kept s
  | sec => exact execSec_kept s
  | cli => exact execCli_kept s
  | sei => exact execSei_kept s
  | clv => exact execClv_kept s
  | cld => exact execCld_kept s
  | sed => exact execSed_kept s
  | nop => exact execNop_kept s
  | undef op => exact execUndef_kept op s

end Sys2Proof.Machine
end

