-- ==== Sys2Proof/Laws/PerInstr.lean ====
section
/-! SUPPORT. The per-instruction family `EncodedForm`: an encoded instruction is an opcode byte and the operand bytes that opcode has
(30_encoding R100, R101, R108), one lemma per constructor of `Instr`. -/

namespace Sys2Proof.Laws.EncodedForm

open Sys2Proof

/-- A well-formed instruction is encoded as an opcode byte and at most two bytes, and, but for BRK's unread padding byte, exactly the
operand bytes the processor reads after that opcode. -/
def Statement (i : Instr) : Prop :=
  i.wf = true → ∃ op tail, encode i = op :: tail ∧ tail.length ≤ 2 ∧ (i ≠ .brk → tail.length = operandBytes op)

theorem lda (m : AccOperand) : Statement (.lda m) := by
  cases m <;> exact fun _ => ⟨_, _, rfl, by simp, fun _ => rfl⟩

theorem ldx (m : LdxOperand) : Statement (.ldx m) := by
  cases m <;> exact fun _ => ⟨_, _, rfl, by simp, fun _ => rfl⟩

theorem ldy (m : LdyOperand) : Statement (.ldy m) := by
  cases m <;> exact fun _ => ⟨_, _, rfl, by simp, fun _ => rfl⟩

theorem sta (m : StaOperand) : Statement (.sta m) := by
  cases m <;> exact fun _ => ⟨_, _, rfl, by simp, fun _ => rfl⟩

theorem stx (m : StxOperand) : Statement (.stx m) := by
  cases m <;> exact fun _ => ⟨_, _, rfl, by simp, fun _ => rfl⟩

theorem sty (m : StyOperand) : Statement (.sty m) := by
  cases m <;> exact fun _ => ⟨_, _, rfl, by simp, fun _ => rfl⟩

theorem tax : Statement .tax := fun _ => ⟨_, _, rfl, by simp, fun _ => rfl⟩

theorem tay : Statement .tay := fun _ => ⟨_, _, rfl, by simp, fun _ => rfl⟩

theorem txa : Statement .txa := fun _ => ⟨_, _, rfl, by simp, fun _ => rfl⟩

theorem tya : Statement .tya := fun _ => ⟨_, _, rfl, by simp, fun _ => rfl⟩

theorem tsx : Statement .tsx := fun _ => ⟨_, _, rfl, by simp, fun _ => rfl⟩

theorem txs : Statement .txs := fun _ => ⟨_, _, rfl, by simp, fun _ => rfl⟩

theorem adc (m : AccOperand) : Statement (.adc m) := by
  cases m <;> exact fun _ => ⟨_, _, rfl, by simp, fun _ => rfl⟩

theorem sbc (m : AccOperand) : Statement (.sbc m) := by
  cases m <;> exact fun _ => ⟨_, _, rfl, by simp, fun _ => rfl⟩

theorem and (m : AccOperand) : Statement (.and m) := by
  cases m <;> exact fun _ => ⟨_, _, rfl, by simp, fun _ => rfl⟩

theorem ora (m : AccOperand) : Statement (.ora m) := by
  cases m <;> exact fun _ => ⟨_, _, rfl, by simp, fun _ => rfl⟩

theorem eor (m : AccOperand) : Statement (.eor m) := by
  cases m <;> exact fun _ => ⟨_, _, rfl, by simp, fun _ => rfl⟩

theorem bit (m : BitOperand) : Statement (.bit m) := by
  cases m <;> exact fun _ => ⟨_, _, rfl, by simp, fun _ => rfl⟩

theorem cmp (m : AccOperand) : Statement (.cmp m) := by
  cases m <;> exact fun _ => ⟨_, _, rfl, by simp, fun _ => rfl⟩

theorem cpx (m : CpOperand) : Statement (.cpx m) := by
  cases m <;> exact fun _ => ⟨_, _, rfl, by simp, fun _ => rfl⟩

theorem cpy (m : CpOperand) : Statement (.cpy m) := by
  cases m <;> exact fun _ => ⟨_, _, rfl, by simp, fun _ => rfl⟩

theorem inc (m : IncOperand) : Statement (.inc m) := by
  cases m <;> exact fun _ => ⟨_, _, rfl, by simp, fun _ => rfl⟩

theorem dec (m : IncOperand) : Statement (.dec m) := by
  cases m <;> exact fun _ => ⟨_, _, rfl, by simp, fun _ => rfl⟩

theorem inx : Statement .inx := fun _ => ⟨_, _, rfl, by simp, fun _ => rfl⟩

theorem iny : Statement .iny := fun _ => ⟨_, _, rfl, by simp, fun _ => rfl⟩

theorem dex : Statement .dex := fun _ => ⟨_, _, rfl, by simp, fun _ => rfl⟩

theorem dey : Statement .dey := fun _ => ⟨_, _, rfl, by simp, fun _ => rfl⟩

theorem asl (m : ShiftOperand) : Statement (.asl m) := by
  cases m <;> exact fun _ => ⟨_, _, rfl, by simp, fun _ => rfl⟩

theorem lsr (m : ShiftOperand) : Statement (.lsr m) := by
  cases m <;> exact fun _ => ⟨_, _, rfl, by simp, fun _ => rfl⟩

theorem rol (m : ShiftOperand) : Statement (.rol m) := by
  cases m <;> exact fun _ => ⟨_, _, rfl, by simp, fun _ => rfl⟩

theorem ror (m : ShiftOperand) : Statement (.ror m) := by
  cases m <;> exact fun _ => ⟨_, _, rfl, by simp, fun _ => rfl⟩

theorem bpl (d : Byte) : Statement (.bpl d) := fun _ => ⟨_, _, rfl, by simp, fun _ => rfl⟩

theorem bmi (d : Byte) : Statement (.bmi d) := fun _ => ⟨_, _, rfl, by simp, fun _ => rfl⟩

theorem bvc (d : Byte) : Statement (.bvc d) := fun _ => ⟨_, _, rfl, by simp, fun _ => rfl⟩

theorem bvs (d : Byte) : Statement (.bvs d) := fun _ => ⟨_, _, rfl, by simp, fun _ => rfl⟩

theorem bcc (d : Byte) : Statement (.bcc d) := fun _ => ⟨_, _, rfl, by simp, fun _ => rfl⟩

theorem bcs (d : Byte) : Statement (.bcs d) := fun _ => ⟨_, _, rfl, by simp, fun _ => rfl⟩

theorem bne (d : Byte) : Statement (.bne d) := fun _ => ⟨_, _, rfl, by simp, fun _ => rfl⟩

theorem beq (d : Byte) : Statement (.beq d) := fun _ => ⟨_, _, rfl, by simp, fun _ => rfl⟩

theorem jmp (m : JmpOperand) : Statement (.jmp m) := by
  cases m <;> exact fun _ => ⟨_, _, rfl, by simp, fun _ => rfl⟩

theorem brk : Statement .brk := fun _ => ⟨_, _, rfl, by decide, fun h => absurd rfl h⟩

theorem jsr (target : Word) : Statement (.jsr target) := fun _ => ⟨_, _, rfl, by simp, fun _ => rfl⟩

theorem rts : Statement .rts := fun _ => ⟨_, _, rfl, by simp, fun _ => rfl⟩

theorem rti : Statement .rti := fun _ => ⟨_, _, rfl, by simp, fun _ => rfl⟩

theorem pha : Statement .pha := fun _ => ⟨_, _, rfl, by simp, fun _ => rfl⟩

theorem php : Statement .php := fun _ => ⟨_, _, rfl, by simp, fun _ => rfl⟩

theorem pla : Statement .pla := fun _ => ⟨_, _, rfl, by simp, fun _ => rfl⟩

theorem plp : Statement .plp := fun _ => ⟨_, _, rfl, by simp, fun _ => rfl⟩

theorem clc : Statement .clc := fun _ => ⟨_, _, rfl, by simp, fun _ => rfl⟩

theorem sec : Statement .sec := fun _ => ⟨_, _, rfl, by simp, fun _ => rfl⟩

theorem cli : Statement .cli := fun _ => ⟨_, _, rfl, by simp, fun _ => rfl⟩

theorem sei : Statement .sei := fun _ => ⟨_, _, rfl, by simp, fun _ => rfl⟩

theorem clv : Statement .clv := fun _ => ⟨_, _, rfl, by simp, fun _ => rfl⟩

theorem cld : Statement .cld := fun _ => ⟨_, _, rfl, by simp, fun _ => rfl⟩

theorem sed : Statement .sed := fun _ => ⟨_, _, rfl, by simp, fun _ => rfl⟩

theorem nop : Statement .nop := fun _ => ⟨_, _, rfl, by simp, fun _ => rfl⟩

theorem undef (op : Byte) : Statement (.undef op) := fun h =>
  ⟨op, [], rfl, by decide, fun _ => by
    have hf := formOf_undefined (op := op) (List.contains_iff_mem.mp h)
    simp [operandBytes, hf]⟩

end Sys2Proof.Laws.EncodedForm
end

