-- ==== Sys2Proof/Laws/Step.lean ====
section
/-! SUPPORT. The laws of fetching, of the two clocks and of a step: what each can do, said once (40_dispatch R130, R133; 60_exceptions
R280, R290). -/

namespace Sys2Proof.Machine

open Sys2Proof

/-! Fetching. -/

theorem fetchByte_kept (s : State) : Kept s (fetchByte s).2 := (Kept.memRead s.pc s).trans (Kept.setPc _ _)

/-- A byte of storage at PC is fetched without a side effect. -/
theorem fetchByte_of_byteAt {s : State} {b : Byte} (h : s.byteAt s.pc = some b) : fetchByte s = (b, s.setPc (s.pc + 1#16)) := by
  simp [fetchByte, memRead, busRead_of_byteAt h]

/-- Kept up to the opcode register, through a change that keeps everything. -/
theorem Kept.underOpcode {s t u : State} (h : Kept s (t.setOpcode s.opcode)) (k : Kept t u) : Kept s (u.setOpcode s.opcode) where
  ppuCycle := k.ppuCycle.trans h.ppuCycle
  ppuScanline := k.ppuScanline.trans h.ppuScanline
  frameComplete := k.frameComplete.trans h.frameComplete
  busCtr := k.busCtr.trans h.busCtr
  clockCount := k.clockCount.trans h.clockCount
  opcode := rfl
  params := k.params.trans h.params
  hasReset := k.hasReset.trans h.hasReset
  cart := by
    obtain ⟨a, ha⟩ := h.cart
    obtain ⟨b, hb⟩ := k.cart
    refine ⟨b, ?_⟩
    rw [State.setOpcode_cart] at ha ⊢
    rw [hb, ha, Option.map_map]
    rfl
  memories := k.memories ∘ h.memories
  vblank := h.vblank ∘ k.vblank
  status := k.status ∘ h.status

theorem Kept.setOpcode {s t : State} (h : Kept s t) (op : Byte) : Kept s ((t.setOpcode op).setOpcode s.opcode) :=
  ⟨h.ppuCycle, h.ppuScanline, h.frameComplete, h.busCtr, h.clockCount, rfl, h.params, h.hasReset, h.cart, h.memories, h.vblank,
    h.status⟩

/-- Fetching keeps what no instruction touches, but for the opcode register. -/
theorem fetch_kept (s : State) : Kept s ((fetch s).2.setOpcode s.opcode) := by
  have h := (fetchByte_kept s).setOpcode (fetchByte s).1
  unfold fetch
  dsimp only
  generalize (fetchByte s).2.setOpcode (fetchByte s).1 = t at *
  split
  · exact h
  · exact h
  · exact h.underOpcode (fetchByte_kept t)
  · exact (h.underOpcode (fetchByte_kept t)).underOpcode (fetchByte_kept _)

/-- Bytes of storage at PC that decode to an instruction are fetched as it (20_memory R93). -/
theorem fetch_of_byteAt {s : State} {b0 b1 b2 : Byte} {i : Instr} (h0 : s.byteAt s.pc = some b0)
    (h1 : s.byteAt (s.pc + 1#16) = some b1) (h2 : s.byteAt (s.pc + 2#16) = some b2) (hi : decode [b0, b1, b2] = .ok i) :
    fetch s = (i, (s.setOpcode b0).setPc (s.pc + 1#16 + BitVec.ofNat 16 (operandBytes b0))) := by
  have e0 := fetchByte_of_byteAt h0
  have e1 : ∀ t : State, t.byteAt = s.byteAt → t.pc = s.pc + 1#16 → fetchByte t = (b1, t.setPc (t.pc + 1#16)) := fun t ht hp =>
    fetchByte_of_byteAt (by rw [ht, hp, h1])
  have e2 : ∀ t : State, t.byteAt = s.byteAt → t.pc = s.pc + 1#16 + 1#16 → fetchByte t = (b2, t.setPc (t.pc + 1#16)) :=
    fun t ht hp => fetchByte_of_byteAt (by rw [ht, hp, BitVec.add_assoc]; exact h2)
  unfold fetch operandBytes
  rw [e0]
  dsimp only
  rcases decode_cases hi with hf | ⟨hf, rfl⟩ | ⟨f, b, tail, hf, hb, rfl⟩ | ⟨f, l, h, tail, hf, hb, rfl⟩
  · rw [hf]
    simp only [BitVec.add_zero]
    rfl
  · rw [hf]
    simp only [BitVec.add_zero]
    rfl
  · rw [hf]
    injection hb with hb1 hb2
    subst hb1
    dsimp only
    rw [e1 ((s.setPc (s.pc + 1#16)).setOpcode b0) rfl rfl]
    rfl
  · rw [hf]
    injection hb with hb1 hb2
    injection hb2 with hb2 hb3
    subst hb1 hb2
    dsimp only
    rw [e1 ((s.setPc (s.pc + 1#16)).setOpcode b0) rfl rfl]
    dsimp only [State.setOpcode_pc, State.setPc_pc]
    rw [e2 (((s.setPc (s.pc + 1#16)).setOpcode b0).setPc (s.pc + 1#16 + 1#16)) rfl rfl]
    refine Prod.ext rfl ?_
    show State.setPc _ (s.pc + 1#16 + 1#16 + 1#16) = _
    rw [BitVec.add_assoc (s.pc + 1#16)]
    rfl

/-! The stub. -/

/-- Everything one tick of the stub can change (60_exceptions R290). -/
theorem ppuClock_state (s : State) :
    ppuClock s =
      { s with
        ppuCycle := (ppuClock s).ppuCycle, ppuScanline := (ppuClock s).ppuScanline, frameComplete := (ppuClock s).frameComplete } := by
  unfold ppuClock
  split
  · dsimp only
    split <;> rfl
  · rfl

@[simp] theorem ppuClock_a (s : State) : (ppuClock s).a = s.a := (congrArg State.a (ppuClock_state s)).trans rfl
@[simp] theorem ppuClock_x (s : State) : (ppuClock s).x = s.x := (congrArg State.x (ppuClock_state s)).trans rfl
@[simp] theorem ppuClock_y (s : State) : (ppuClock s).y = s.y := (congrArg State.y (ppuClock_state s)).trans rfl
@[simp] theorem ppuClock_sp (s : State) : (ppuClock s).sp = s.sp := (congrArg State.sp (ppuClock_state s)).trans rfl
@[simp] theorem ppuClock_pc (s : State) : (ppuClock s).pc = s.pc := (congrArg State.pc (ppuClock_state s)).trans rfl
@[simp] theorem ppuClock_p (s : State) : (ppuClock s).p = s.p := (congrArg State.p (ppuClock_state s)).trans rfl
@[simp] theorem ppuClock_cyc (s : State) : (ppuClock s).cyc = s.cyc := (congrArg State.cyc (ppuClock_state s)).trans rfl
@[simp] theorem ppuClock_opcode (s : State) : (ppuClock s).opcode = s.opcode := (congrArg State.opcode (ppuClock_state s)).trans rfl
@[simp] theorem ppuClock_ea (s : State) : (ppuClock s).ea = s.ea := (congrArg State.ea (ppuClock_state s)).trans rfl
@[simp] theorem ppuClock_clockCount (s : State) : (ppuClock s).clockCount = s.clockCount :=
  (congrArg State.clockCount (ppuClock_state s)).trans rfl
@[simp] theorem ppuClock_ram (s : State) : (ppuClock s).ram = s.ram := (congrArg State.ram (ppuClock_state s)).trans rfl
@[simp] theorem ppuClock_busCtr (s : State) : (ppuClock s).busCtr = s.busCtr := (congrArg State.busCtr (ppuClock_state s)).trans rfl
@[simp] theorem ppuClock_cart (s : State) : (ppuClock s).cart = s.cart := (congrArg State.cart (ppuClock_state s)).trans rfl
@[simp] theorem ppuClock_vblank (s : State) : (ppuClock s).vblank = s.vblank := (congrArg State.vblank (ppuClock_state s)).trans rfl
@[simp] theorem ppuClock_params (s : State) : (ppuClock s).params = s.params := (congrArg State.params (ppuClock_state s)).trans rfl
@[simp] theorem ppuClock_hasReset (s : State) : (ppuClock s).hasReset = s.hasReset :=
  (congrArg State.hasReset (ppuClock_state s)).trans rfl
@[simp] theorem ppuClock_draws (s : State) : (ppuClock s).draws = s.draws := (congrArg State.draws (ppuClock_state s)).trans rfl

/-- The next values of the stub's counters and flag depend on them alone. -/
theorem ppuClock_counters {s t : State} (hc : t.ppuCycle = s.ppuCycle) (hs : t.ppuScanline = s.ppuScanline)
    (hf : t.frameComplete = s.frameComplete) :
    (ppuClock t).ppuCycle = (ppuClock s).ppuCycle ∧ (ppuClock t).ppuScanline = (ppuClock s).ppuScanline ∧
    (ppuClock t).frameComplete = (ppuClock s).frameComplete := by
  simp only [ppuClock, hc, hs]
  split
  · split <;> simp [hf]
  · simp [hs, hf]

/-- The stub's counters stay in range (10_state R42). -/
theorem ppuClock_inRange {s : State} (h : s.stubInRange = true) : (ppuClock s).stubInRange = true := by
  simp only [State.stubInRange, Bool.and_eq_true, decide_eq_true_eq] at h ⊢
  unfold ppuClock
  split
  · dsimp only
    split
    · simp
    · simp
      omega
  · simp
    omega

/-- A tick of the stub does not clear the frame flag (60_exceptions R294). -/
theorem ppuClock_frame {s : State} (h : s.frameComplete = true) : (ppuClock s).frameComplete = true := by
  unfold ppuClock
  split
  · dsimp only
    split
    · rfl
    · simpa using h
  · simpa using h

/-! The bus clock and the step. -/

/-- Everything a bus clock can do (60_exceptions R280; 40_dispatch R130). -/
theorem busClock_cases (s : State) :
    (s.busCtr ≠ s.params.cpuPhase ∧ busClock s = .next (advanceBusCtr (ppuClock s))) ∨
    (s.busCtr = s.params.cpuPhase ∧ s.cyc ≠ 0 ∧ busClock s = .next (advanceBusCtr (countDown (ppuClock s)))) ∨
    (s.busCtr = s.params.cpuPhase ∧ s.cyc = 0 ∧
      ∃ t, exec (fetch (ppuClock s)).1 (fetch (ppuClock s)).2 = .next t ∧ Kept (fetch (ppuClock s)).2 t ∧
        busClock s = .next (advanceBusCtr (countDown t))) := by
  by_cases hp : s.busCtr = s.params.cpuPhase
  · by_cases hc : s.cyc = 0
    · obtain ⟨t, ht, hk⟩ := exec_kept (fetch (ppuClock s)).1 (fetch (ppuClock s)).2
      exact .inr (.inr ⟨hp, hc, t, ht, hk, by simp [busClock, cpuClock, hp, hc, ht, onNext]⟩)
    · exact .inr (.inl ⟨hp, hc, by simp [busClock, cpuClock, hp, hc, onNext]⟩)
  · exact .inl ⟨hp, by simp [busClock, hp, onNext]⟩

/-- After the first bus reset a step is a bus clock. -/
theorem step_busClock {s : State} (h : s.hasReset = true) : step s = busClock s := by simp [step, h]

/-- A step that answers a next state is a bus clock of a machine that has been reset. -/
theorem step_next {s t : State} (h : step s = .next t) : s.hasReset = true ∧ busClock s = .next t := by
  unfold step at h
  split at h
  · exact ⟨‹_›, h⟩
  · cases h

/-- What a step that answers `next t` keeps, whatever it ran, beside the counters of its clocks. -/
theorem step_kept {s t : State} (h : step s = .next t) :
    t.ppuCycle = (ppuClock s).ppuCycle ∧ t.ppuScanline = (ppuClock s).ppuScanline ∧
    t.frameComplete = (ppuClock s).frameComplete ∧ t.busCtr = s.busCtr + 1 ∧ t.params = s.params ∧ t.hasReset = s.hasReset ∧
    (s.memoriesWf = true → t.memoriesWf = true) ∧ (t.vblank = true → s.vblank = true) ∧
    (s.statusHeld = true → t.statusHeld = true) := by
  obtain ⟨-, hb⟩ := step_next h
  have hm : (ppuClock s).memoriesWf = s.memoriesWf := memoriesWf_same (by simp) (by simp)
  have hst : (ppuClock s).statusHeld = s.statusHeld := by simp [State.statusHeld]
  have hbus : (ppuClock s).busCtr = s.busCtr := ppuClock_busCtr s
  have hpar : (ppuClock s).params = s.params := ppuClock_params s
  have hres : (ppuClock s).hasReset = s.hasReset := ppuClock_hasReset s
  have hvb : (ppuClock s).vblank = s.vblank := ppuClock_vblank s
  have hcases := busClock_cases s
  rw [← hm, ← hst, ← hbus, ← hpar, ← hres, ← hvb]
  clear hm hst
  generalize ppuClock s = q at *
  rcases hcases with ⟨-, he⟩ | ⟨-, -, he⟩ | ⟨-, -, u, -, hk, he⟩
  · rw [he] at hb
    injection hb with hb
    subst hb
    exact ⟨rfl, rfl, rfl, rfl, rfl, rfl, id, id, id⟩
  · rw [he] at hb
    injection hb with hb
    subst hb
    exact ⟨rfl, rfl, rfl, rfl, rfl, rfl, id, id, id⟩
  · rw [he] at hb
    injection hb with hb
    subst hb
    have hf := fetch_kept q
    generalize (fetch q).2 = g at *
    exact ⟨hk.ppuCycle.trans hf.ppuCycle, hk.ppuScanline.trans hf.ppuScanline, hk.frameComplete.trans hf.frameComplete,
      congrArg (· + 1) (hk.busCtr.trans hf.busCtr), hk.params.trans hf.params, hk.hasReset.trans hf.hasReset,
      hk.memories ∘ hf.memories, hf.vblank ∘ hk.vblank, hk.status ∘ hf.status⟩

/-- After the first bus reset every step answers a next state (60_exceptions R303). -/
theorem step_answers {s : State} (h : s.hasReset = true) : ∃ t, step s = .next t := by
  rw [step_busClock h]
  rcases busClock_cases s with ⟨-, he⟩ | ⟨-, -, he⟩ | ⟨-, -, u, -, -, he⟩ <;> exact ⟨_, he⟩

/-! Runs. -/

theorem core_run_next (M : Host.Core) {k : Nat} {s t : M.State} (h : M.step s = .next t) : M.run (k + 1) s = M.run k t := by
  simp only [Host.Core.run, h]

theorem core_run_add (M : Host.Core) {a : Nat} (b : Nat) {s t : M.State} (h : M.run a s = .next t) : M.run (a + b) s = M.run b t := by
  induction a generalizing s with
  | zero =>
    injection h with h
    rw [Nat.zero_add, h]
  | succ a ih =>
    rw [Nat.add_right_comm]
    cases hs : M.step s with
    | next u =>
      rw [core_run_next M hs] at h ⊢
      exact ih h
    | fault r => simp [Host.Core.run, hs] at h
    | refused r => simp [Host.Core.run, hs] at h

/-- A run goes on from its first step. -/
theorem run_next {k : Nat} {s t : State} (h : step s = .next t) :
    Host.Core.run Sys2Proof.core (k + 1) s = Host.Core.run Sys2Proof.core k t := core_run_next Sys2Proof.core h

/-- A run goes on from where a shorter run ends. -/
theorem run_add {a : Nat} (b : Nat) {s t : State} (h : Host.Core.run Sys2Proof.core a s = .next t) :
    Host.Core.run Sys2Proof.core (a + b) s = Host.Core.run Sys2Proof.core b t := core_run_add Sys2Proof.core b h

end Sys2Proof.Machine
end

