-- ==== Sys2Proof/Tests/Slice0.lean ====
section
/-! SUPPORT. The model's own tests, each about one decode or one step, with results from the tables of 95_test_vectors or from the rule
named; and for every statement with hypotheses a witness that meets them. -/

namespace Sys2Proof.Tests

open Sys2Proof Sys2Proof.Machine

/-! WellFormed: the one check, and a term it refuses. -/

theorem test_wf_refuses_undef_of_nop : (Instr.undef 0xEA).wf = false := by decide

theorem test_wf_accepts_undef_of_02 : (Instr.undef 0x02).wf = true := by decide

/-! Decoding: for every constructor a word written out from the encodings of 30_encoding R101 and R104, first byte in bits 7..0. -/

theorem test_decode_lda : decodeTableWord 24 0x44FFB9 = some (.lda (.aby 0x44FF)) := by decide
theorem test_decode_ldx : decodeTableWord 16 0x01B6 = some (.ldx (.zpy 0x01)) := by decide
theorem test_decode_ldy : decodeTableWord 24 0x0280BC = some (.ldy (.abx 0x0280)) := by decide
theorem test_decode_sta : decodeTableWord 24 0x02FF9D = some (.sta (.abx 0x02FF)) := by decide
theorem test_decode_stx : decodeTableWord 16 0xFE96 = some (.stx (.zpy 0xFE)) := by decide
theorem test_decode_sty : decodeTableWord 24 0x07FF8C = some (.sty (.abs 0x07FF)) := by decide
theorem test_decode_tax : decodeTableWord 8 0xAA = some (.tax) := by decide
theorem test_decode_tay : decodeTableWord 8 0xA8 = some (.tay) := by decide
theorem test_decode_txa : decodeTableWord 8 0x8A = some (.txa) := by decide
theorem test_decode_tya : decodeTableWord 8 0x98 = some (.tya) := by decide
theorem test_decode_tsx : decodeTableWord 8 0xBA = some (.tsx) := by decide
theorem test_decode_txs : decodeTableWord 8 0x9A = some (.txs) := by decide
theorem test_decode_adc : decodeTableWord 16 0x2071 = some (.adc (.izy 0x20)) := by decide
theorem test_decode_sbc : decodeTableWord 16 0xF0E9 = some (.sbc (.imm 0xF0)) := by decide
theorem test_decode_and : decodeTableWord 16 0x0F29 = some (.and (.imm 0x0F)) := by decide
theorem test_decode_ora : decodeTableWord 16 0xFE01 = some (.ora (.izx 0xFE)) := by decide
theorem test_decode_eor : decodeTableWord 16 0xFF49 = some (.eor (.imm 0xFF)) := by decide
theorem test_decode_bit : decodeTableWord 24 0x02102C = some (.bit (.abs 0x0210)) := by decide
theorem test_decode_cmp : decodeTableWord 24 0x02FFD9 = some (.cmp (.aby 0x02FF)) := by decide
theorem test_decode_cpx : decodeTableWord 24 0x0300EC = some (.cpx (.abs 0x0300)) := by decide
theorem test_decode_cpy : decodeTableWord 16 0x33C4 = some (.cpy (.zp0 0x33)) := by decide
theorem test_decode_inc : decodeTableWord 24 0x02FFFE = some (.inc (.abx 0x02FF)) := by decide
theorem test_decode_dec : decodeTableWord 16 0x10C6 = some (.dec (.zp0 0x10)) := by decide
theorem test_decode_inx : decodeTableWord 8 0xE8 = some (.inx) := by decide
theorem test_decode_iny : decodeTableWord 8 0xC8 = some (.iny) := by decide
theorem test_decode_dex : decodeTableWord 8 0xCA = some (.dex) := by decide
theorem test_decode_dey : decodeTableWord 8 0x88 = some (.dey) := by decide
theorem test_decode_asl : decodeTableWord 16 0x1006 = some (.asl (.zp0 0x10)) := by decide
theorem test_decode_lsr : decodeTableWord 8 0x4A = some (.lsr .acc) := by decide
theorem test_decode_rol : decodeTableWord 24 0x02102E = some (.rol (.abs 0x0210)) := by decide
theorem test_decode_ror : decodeTableWord 16 0xFF76 = some (.ror (.zpx 0xFF)) := by decide
theorem test_decode_bpl : decodeTableWord 16 0x0510 = some (.bpl 0x05) := by decide
theorem test_decode_bmi : decodeTableWord 16 0x0530 = some (.bmi 0x05) := by decide
theorem test_decode_bvc : decodeTableWord 16 0x0550 = some (.bvc 0x05) := by decide
theorem test_decode_bvs : decodeTableWord 16 0x0570 = some (.bvs 0x05) := by decide
theorem test_decode_bcc : decodeTableWord 16 0x0590 = some (.bcc 0x05) := by decide
theorem test_decode_bcs : decodeTableWord 16 0x05B0 = some (.bcs 0x05) := by decide
theorem test_decode_bne : decodeTableWord 16 0xFCD0 = some (.bne 0xFC) := by decide
theorem test_decode_beq : decodeTableWord 16 0xFBF0 = some (.beq 0xFB) := by decide
theorem test_decode_jmp : decodeTableWord 24 0x02FF6C = some (.jmp (.ind 0x02FF)) := by decide
theorem test_decode_brk : decodeTableWord 16 0xEA00 = some (.brk) := by decide
theorem test_decode_jsr : decodeTableWord 24 0x801020 = some (.jsr 0x8010) := by decide
theorem test_decode_rts : decodeTableWord 8 0x60 = some (.rts) := by decide
theorem test_decode_rti : decodeTableWord 8 0x40 = some (.rti) := by decide
theorem test_decode_pha : decodeTableWord 8 0x48 = some (.pha) := by decide
theorem test_decode_php : decodeTableWord 8 0x08 = some (.php) := by decide
theorem test_decode_pla : decodeTableWord 8 0x68 = some (.pla) := by decide
theorem test_decode_plp : decodeTableWord 8 0x28 = some (.plp) := by decide
theorem test_decode_clc : decodeTableWord 8 0x18 = some (.clc) := by decide
theorem test_decode_sec : decodeTableWord 8 0x38 = some (.sec) := by decide
theorem test_decode_cli : decodeTableWord 8 0x58 = some (.cli) := by decide
theorem test_decode_sei : decodeTableWord 8 0x78 = some (.sei) := by decide
theorem test_decode_clv : decodeTableWord 8 0xB8 = some (.clv) := by decide
theorem test_decode_cld : decodeTableWord 8 0xD8 = some (.cld) := by decide
theorem test_decode_sed : decodeTableWord 8 0xF8 = some (.sed) := by decide
theorem test_decode_nop : decodeTableWord 8 0xEA = some (.nop) := by decide
theorem test_decode_undef : decodeTableWord 8 0xFF = some (.undef 0xFF) := by decide

theorem test_decode_missing_byte : decode [0xAD, 0x34] matches .error (.missingOperand 0xAD) := by decide

theorem test_encode_low_byte_first : encode (.jsr 0x8010) = [0x20, 0x10, 0x80] := by decide

/-! One step each. `boot` is the machine of 95_test_vectors: one bank of program memory with the vectors 0xA000, 0x8000 and 0x9000, at an
instruction boundary in a bus clock that ticks the processor. -/

def cartridge1 : Cartridge :=
  { valid := true, prgBanks := 1#8, chrBanks := 0#8, mapperId := 0#8, mirroring := .horizontal, trainer := false
    prg := [(0x3FFB, 0xA0#8), (0x3FFD, 0x80#8), (0x3FFF, 0x90#8)], chr := [] }

def boot : State := { State.reset with cart := some cartridge1, cyc := 0 }

/-- `s` with PC at an address and the bytes of an instruction there. -/
def atPc (pc : Word) (code : List Byte) (s : State) : State := storeBytes pc code { s with pc := pc }

/-- What one step leaves, where it answers a next state. -/
def after {α : Type} (s : State) (f : State → α) : Option α :=
  match step s with
  | .next t => some (f t)
  | .fault _ => none
  | .refused _ => none

/-- AM4 of 95_test_vectors: LDX $01,Y. -/
theorem test_ldx_zpy_wraps :
    after (atPc 0x8000#16 [0xB6#8, 0x01#8] (busWrite 0x0000#16 0x07#8 { boot with y := 0xFF#8 })) (fun t => (t.x, t.ea, t.cyc)) =
      some (0x07#8, 0x0000#16, 3) := by decide

/-- AM7 of 95_test_vectors: LDA $02FF,X. -/
theorem test_lda_abx_crosses :
    after (atPc 0x8000#16 [0xBD#8, 0xFF#8, 0x02#8] (busWrite 0x0300#16 0x04#8 { boot with x := 0x01#8 })) (fun t => (t.a, t.ea, t.cyc)) =
      some (0x04#8, 0x0300#16, 4) := by decide

/-- AM10 of 95_test_vectors: JMP ($02FF). -/
theorem test_jmp_ind_same_page :
    after (atPc 0x8000#16 [0x6C#8, 0xFF#8, 0x02#8] (busWrite 0x0300#16 0x99#8 (busWrite 0x0200#16 0x12#8 (busWrite 0x02FF#16 0x30#8 boot)))) (fun t => (t.pc, t.cyc)) =
      some (0x1230#16, 4) := by decide

/-- AM13 of 95_test_vectors: LDA ($20),Y. -/
theorem test_lda_izy_crosses :
    after (atPc 0x8000#16 [0xB1#8, 0x20#8] (busWrite 0x0300#16 0x0C#8 (busWrite 0x0021#16 0x02#8 (busWrite 0x0020#16 0xFF#8 { boot with y := 0x01#8 })))) (fun t => (t.a, t.ea, t.cyc)) =
      some (0x0C#8, 0x0300#16, 5) := by decide

/-- AM8 of 95_test_vectors: STA $02FF,X. -/
theorem test_sta_abx_no_extra :
    after (atPc 0x8000#16 [0x9D#8, 0xFF#8, 0x02#8] { boot with x := 0x01#8, a := 0x77#8 }) (fun t => (t.ea, t.byteAt 0x0300#16, t.cyc)) =
      some (0x0300#16, some 0x77#8, 4) := by decide

/-- LS2 of 95_test_vectors: LDX #$FF. -/
theorem test_ldx_imm_flags :
    after (atPc 0x8000#16 [0xA2#8, 0xFF#8] { boot with p := 0x65#8 }) (fun t => (t.x, t.p, t.cyc)) =
      some (0xFF#8, 0xE5#8, 1) := by decide

/-- LS3 of 95_test_vectors: LDY $44. -/
theorem test_ldy_zp0 :
    after (atPc 0x8000#16 [0xA4#8, 0x44#8] (busWrite 0x0044#16 0x80#8 boot)) (fun t => (t.y, t.p, t.cyc)) =
      some (0x80#8, 0xA4#8, 2) := by decide

/-- LS5 of 95_test_vectors: STA $8100. -/
theorem test_sta_program_memory :
    after (atPc 0x8000#16 [0x8D#8, 0x00#8, 0x81#8] { boot with a := 0xAB#8 }) (fun t => (t.byteAt 0x8100#16, t.byteAt 0xC100#16, t.cyc)) =
      some (some 0xAB#8, some 0xAB#8, 3) := by decide

/-- LS7 of 95_test_vectors: STX $FE,Y. -/
theorem test_stx_zpy_wraps :
    after (atPc 0x8000#16 [0x96#8, 0xFE#8] { boot with x := 0x3C#8, y := 0x05#8 }) (fun t => (t.byteAt 0x0003#16, t.cyc)) =
      some (some 0x3C#8, 3) := by decide

/-- LS8 of 95_test_vectors: STY $07FF. -/
theorem test_sty_abs :
    after (atPc 0x8000#16 [0x8C#8, 0xFF#8, 0x07#8] { boot with y := 0x9A#8 }) (fun t => (t.byteAt 0x07FF#16, t.byteAt 0x1FFF#16, t.cyc)) =
      some (some 0x9A#8, some 0x9A#8, 3) := by decide

/-- LS9 of 95_test_vectors: TAX. -/
theorem test_tax :
    after (atPc 0x8000#16 [0xAA#8] { boot with a := 0x00#8, x := 0x7F#8 }) (fun t => (t.x, t.p, t.cyc)) =
      some (0x00#8, 0x26#8, 1) := by decide

/-- LS10 of 95_test_vectors: TAY. -/
theorem test_tay :
    after (atPc 0x8000#16 [0xA8#8] { boot with a := 0x80#8 }) (fun t => (t.y, t.p, t.cyc)) =
      some (0x80#8, 0xA4#8, 1) := by decide

/-- LS11 of 95_test_vectors: TXA. -/
theorem test_txa :
    after (atPc 0x8000#16 [0x8A#8] { boot with x := 0x00#8, a := 0x12#8 }) (fun t => (t.a, t.p, t.cyc)) =
      some (0x00#8, 0x26#8, 1) := by decide

/-- LS12 of 95_test_vectors: TYA. -/
theorem test_tya :
    after (atPc 0x8000#16 [0x98#8] { boot with y := 0xF0#8 }) (fun t => (t.a, t.p, t.cyc)) =
      some (0xF0#8, 0xA4#8, 1) := by decide

/-- LS13 of 95_test_vectors: TSX. -/
theorem test_tsx :
    after (atPc 0x8000#16 [0xBA#8] { boot with sp := 0xFD#8 }) (fun t => (t.x, t.p, t.cyc)) =
      some (0xFD#8, 0xA4#8, 1) := by decide

/-- LS14 of 95_test_vectors: TXS. -/
theorem test_txs_no_flag :
    after (atPc 0x8000#16 [0x9A#8] { boot with x := 0x00#8, p := 0x24#8 }) (fun t => (t.sp, t.p, t.cyc)) =
      some (0x00#8, 0x24#8, 1) := by decide

/-- AR1 of 95_test_vectors: ADC #$50. -/
theorem test_adc_overflow :
    after (atPc 0x8000#16 [0x69#8, 0x50#8] { boot with a := 0x50#8, p := 0x24#8 }) (fun t => (t.a, t.p, t.cyc)) =
      some (0xA0#8, 0xE4#8, 1) := by decide

/-- AR10 of 95_test_vectors: ADC $02FF,X. -/
theorem test_adc_abx_crosses :
    after (atPc 0x8000#16 [0x7D#8, 0xFF#8, 0x02#8] (busWrite 0x0300#16 0x01#8 { boot with a := 0x01#8, x := 0x01#8 })) (fun t => (t.a, t.p, t.cyc)) =
      some (0x02#8, 0x24#8, 4) := by decide

/-- AR6 of 95_test_vectors: SBC #$B0. -/
theorem test_sbc_overflow :
    after (atPc 0x8000#16 [0xE9#8, 0xB0#8] { boot with a := 0x50#8, p := 0x25#8 }) (fun t => (t.a, t.p, t.cyc)) =
      some (0xA0#8, 0xE4#8, 1) := by decide

/-- AR8 of 95_test_vectors: SBC #$01. -/
theorem test_sbc_borrows :
    after (atPc 0x8000#16 [0xE9#8, 0x01#8] { boot with a := 0x05#8, p := 0x24#8 }) (fun t => (t.a, t.p, t.cyc)) =
      some (0x03#8, 0x25#8, 1) := by decide

/-- AR11 of 95_test_vectors: AND #$0F. -/
theorem test_and_imm :
    after (atPc 0x8000#16 [0x29#8, 0x0F#8] { boot with a := 0xF0#8 }) (fun t => (t.a, t.p, t.cyc)) =
      some (0x00#8, 0x26#8, 1) := by decide

/-- AR12 of 95_test_vectors: ORA #$01. -/
theorem test_ora_imm :
    after (atPc 0x8000#16 [0x09#8, 0x01#8] { boot with a := 0x80#8 }) (fun t => (t.a, t.p, t.cyc)) =
      some (0x81#8, 0xA4#8, 1) := by decide

/-- AR13 of 95_test_vectors: EOR #$FF. -/
theorem test_eor_imm :
    after (atPc 0x8000#16 [0x49#8, 0xFF#8] { boot with a := 0xFF#8 }) (fun t => (t.a, t.p, t.cyc)) =
      some (0x00#8, 0x26#8, 1) := by decide

/-- AR14 of 95_test_vectors: BIT $10. -/
theorem test_bit_zp0 :
    after (atPc 0x8000#16 [0x24#8, 0x10#8] (busWrite 0x0010#16 0xC0#8 { boot with a := 0x01#8 })) (fun t => (t.a, t.p, t.cyc)) =
      some (0x01#8, 0xE6#8, 2) := by decide

/-- AR15 of 95_test_vectors: BIT $0210. -/
theorem test_bit_abs :
    after (atPc 0x8000#16 [0x2C#8, 0x10#8, 0x02#8] (busWrite 0x0210#16 0x3F#8 { boot with a := 0xFF#8, p := 0xE4#8 })) (fun t => (t.p, t.cyc)) =
      some (0x24#8, 3) := by decide

/-- AR18 of 95_test_vectors: CMP #$C0. -/
theorem test_cmp_negative_difference :
    after (atPc 0x8000#16 [0xC9#8, 0xC0#8] { boot with a := 0x40#8 }) (fun t => (t.p, t.cyc)) =
      some (0xA4#8, 1) := by decide

/-- AR21 of 95_test_vectors: CMP $02FF,Y. -/
theorem test_cmp_aby_crosses :
    after (atPc 0x8000#16 [0xD9#8, 0xFF#8, 0x02#8] (busWrite 0x0300#16 0x10#8 { boot with a := 0x10#8, y := 0x01#8 })) (fun t => (t.p, t.cyc)) =
      some (0x27#8, 4) := by decide

/-- AR19 of 95_test_vectors: CPX #$00. -/
theorem test_cpx_imm :
    after (atPc 0x8000#16 [0xE0#8, 0x00#8] { boot with x := 0x00#8 }) (fun t => (t.p, t.cyc)) =
      some (0x27#8, 1) := by decide

/-- AR22 of 95_test_vectors: CPX $0300. -/
theorem test_cpx_abs :
    after (atPc 0x8000#16 [0xEC#8, 0x00#8, 0x03#8] (busWrite 0x0300#16 0x01#8 { boot with x := 0x01#8 })) (fun t => (t.p, t.cyc)) =
      some (0x27#8, 3) := by decide

/-- AR20 of 95_test_vectors: CPY $33. -/
theorem test_cpy_zp0 :
    after (atPc 0x8000#16 [0xC4#8, 0x33#8] (busWrite 0x0033#16 0x80#8 { boot with y := 0x7F#8 })) (fun t => (t.p, t.cyc)) =
      some (0xA4#8, 2) := by decide

/-- AR23 of 95_test_vectors: INC $10. -/
theorem test_inc_wraps :
    after (atPc 0x8000#16 [0xE6#8, 0x10#8] (busWrite 0x0010#16 0xFF#8 boot)) (fun t => (t.p, t.byteAt 0x0010#16, t.cyc)) =
      some (0x26#8, some 0x00#8, 4) := by decide

/-- AR25 of 95_test_vectors: INC $02FF,X. -/
theorem test_inc_abx_no_extra :
    after (atPc 0x8000#16 [0xFE#8, 0xFF#8, 0x02#8] (busWrite 0x0300#16 0x7F#8 { boot with x := 0x01#8 })) (fun t => (t.p, t.byteAt 0x0300#16, t.cyc)) =
      some (0xA4#8, some 0x80#8, 6) := by decide

/-- AR24 of 95_test_vectors: DEC $10. -/
theorem test_dec_wraps :
    after (atPc 0x8000#16 [0xC6#8, 0x10#8] (busWrite 0x0010#16 0x00#8 boot)) (fun t => (t.p, t.byteAt 0x0010#16, t.cyc)) =
      some (0xA4#8, some 0xFF#8, 4) := by decide

/-- AR26 of 95_test_vectors: INX. -/
theorem test_inx :
    after (atPc 0x8000#16 [0xE8#8] { boot with x := 0xFF#8 }) (fun t => (t.x, t.p, t.cyc)) =
      some (0x00#8, 0x26#8, 1) := by decide

/-- AR27 of 95_test_vectors: INY. -/
theorem test_iny :
    after (atPc 0x8000#16 [0xC8#8] { boot with y := 0x7F#8 }) (fun t => (t.y, t.p, t.cyc)) =
      some (0x80#8, 0xA4#8, 1) := by decide

/-- AR28 of 95_test_vectors: DEX. -/
theorem test_dex :
    after (atPc 0x8000#16 [0xCA#8] { boot with x := 0x00#8 }) (fun t => (t.x, t.p, t.cyc)) =
      some (0xFF#8, 0xA4#8, 1) := by decide

/-- AR29 of 95_test_vectors: DEY. -/
theorem test_dey :
    after (atPc 0x8000#16 [0x88#8] { boot with y := 0x01#8 }) (fun t => (t.y, t.p, t.cyc)) =
      some (0x00#8, 0x26#8, 1) := by decide

/-- SH1 of 95_test_vectors: ASL A. -/
theorem test_asl_acc :
    after (atPc 0x8000#16 [0x0A#8] { boot with a := 0x81#8 }) (fun t => (t.a, t.p, t.cyc)) =
      some (0x02#8, 0x25#8, 1) := by decide

/-- SH6 of 95_test_vectors: ASL $10. -/
theorem test_asl_zp0 :
    after (atPc 0x8000#16 [0x06#8, 0x10#8] (busWrite 0x0010#16 0x40#8 boot)) (fun t => (t.a, t.p, t.byteAt 0x0010#16, t.cyc)) =
      some (0x00#8, 0xA4#8, some 0x80#8, 4) := by decide

/-- SH2 of 95_test_vectors: LSR A. -/
theorem test_lsr_acc :
    after (atPc 0x8000#16 [0x4A#8] { boot with a := 0x01#8 }) (fun t => (t.a, t.p, t.cyc)) =
      some (0x00#8, 0x27#8, 1) := by decide

/-- SH7 of 95_test_vectors: LSR $02FF,X. -/
theorem test_lsr_abx :
    after (atPc 0x8000#16 [0x5E#8, 0xFF#8, 0x02#8] (busWrite 0x0300#16 0x03#8 { boot with x := 0x01#8 })) (fun t => (t.p, t.byteAt 0x0300#16, t.cyc)) =
      some (0x25#8, some 0x01#8, 6) := by decide

/-- SH3 of 95_test_vectors: ROL A. -/
theorem test_rol_acc :
    after (atPc 0x8000#16 [0x2A#8] { boot with a := 0x80#8, p := 0x25#8 }) (fun t => (t.a, t.p, t.cyc)) =
      some (0x01#8, 0x25#8, 1) := by decide

/-- SH8 of 95_test_vectors: ROL $0210. -/
theorem test_rol_abs :
    after (atPc 0x8000#16 [0x2E#8, 0x10#8, 0x02#8] (busWrite 0x0210#16 0xFF#8 { boot with p := 0x24#8 })) (fun t => (t.p, t.byteAt 0x0210#16, t.cyc)) =
      some (0xA5#8, some 0xFE#8, 5) := by decide

/-- SH4 of 95_test_vectors: ROR A. -/
theorem test_ror_acc :
    after (atPc 0x8000#16 [0x6A#8] { boot with a := 0x01#8, p := 0x25#8 }) (fun t => (t.a, t.p, t.cyc)) =
      some (0x80#8, 0xA5#8, 1) := by decide

/-- SH9 of 95_test_vectors: ROR $FF,X. -/
theorem test_ror_zpx :
    after (atPc 0x8000#16 [0x76#8, 0xFF#8] (busWrite 0x0001#16 0x02#8 { boot with x := 0x02#8, p := 0x25#8 })) (fun t => (t.p, t.byteAt 0x0001#16, t.cyc)) =
      some (0xA4#8, some 0x81#8, 5) := by decide

/-- CT3 of 95_test_vectors: BNE $8112. -/
theorem test_bne_crosses :
    after (atPc 0x80F0#16 [0xD0#8, 0x20#8] { boot with p := 0x24#8 }) (fun t => (t.pc, t.cyc)) =
      some (0x8112#16, 3) := by decide

/-- CT5 of 95_test_vectors: BNE $7F82. -/
theorem test_bne_backward_crosses :
    after (atPc 0x8000#16 [0xD0#8, 0x80#8] { boot with p := 0x24#8 }) (fun t => (t.pc, t.cyc)) =
      some (0x7F82#16, 3) := by decide

/-- CT6 of 95_test_vectors: BPL $8007. -/
theorem test_bpl_not_taken :
    after (atPc 0x8000#16 [0x10#8, 0x05#8] { boot with p := 0xA4#8 }) (fun t => (t.pc, t.cyc)) =
      some (0x8002#16, 1) := by decide

/-- CT7 of 95_test_vectors: BMI $8007. -/
theorem test_bmi_taken :
    after (atPc 0x8000#16 [0x30#8, 0x05#8] { boot with p := 0xA4#8 }) (fun t => (t.pc, t.cyc)) =
      some (0x8007#16, 2) := by decide

/-- CT8 of 95_test_vectors: BVC $8007. -/
theorem test_bvc_not_taken :
    after (atPc 0x8000#16 [0x50#8, 0x05#8] { boot with p := 0x64#8 }) (fun t => (t.pc, t.cyc)) =
      some (0x8002#16, 1) := by decide

/-- CT9 of 95_test_vectors: BVS $8007. -/
theorem test_bvs_taken :
    after (atPc 0x8000#16 [0x70#8, 0x05#8] { boot with p := 0x64#8 }) (fun t => (t.pc, t.cyc)) =
      some (0x8007#16, 2) := by decide

/-- CT10 of 95_test_vectors: BCC $8007. -/
theorem test_bcc_not_taken :
    after (atPc 0x8000#16 [0x90#8, 0x05#8] { boot with p := 0x25#8 }) (fun t => (t.pc, t.cyc)) =
      some (0x8002#16, 1) := by decide

/-- CT11 of 95_test_vectors: BCS $8007. -/
theorem test_bcs_taken :
    after (atPc 0x8000#16 [0xB0#8, 0x05#8] { boot with p := 0x25#8 }) (fun t => (t.pc, t.cyc)) =
      some (0x8007#16, 2) := by decide

/-- CT12 of 95_test_vectors: BEQ $800D. -/
theorem test_beq_backward :
    after (atPc 0x8010#16 [0xF0#8, 0xFB#8] { boot with p := 0x26#8 }) (fun t => (t.pc, t.cyc)) =
      some (0x800D#16, 2) := by decide

/-- CT13 of 95_test_vectors: JMP $9234. -/
theorem test_jmp_abs :
    after (atPc 0x8000#16 [0x4C#8, 0x34#8, 0x92#8] boot) (fun t => (t.pc, t.cyc)) =
      some (0x9234#16, 2) := by decide

/-- CT15 of 95_test_vectors: JSR $8010. -/
theorem test_jsr :
    after (atPc 0x8000#16 [0x20#8, 0x10#8, 0x80#8] { boot with sp := 0xFD#8 }) (fun t => (t.pc, t.sp, t.byteAt 0x01FD#16, t.byteAt 0x01FC#16, t.cyc)) =
      some (0x8010#16, 0xFB#8, some 0x80#8, some 0x02#8, 5) := by decide

/-- CT16 of 95_test_vectors: RTS. -/
theorem test_rts :
    after (atPc 0x8010#16 [0x60#8] (busWrite 0x01FD#16 0x80#8 (busWrite 0x01FC#16 0x02#8 { boot with sp := 0xFB#8 }))) (fun t => (t.pc, t.sp, t.cyc)) =
      some (0x8003#16, 0xFD#8, 5) := by decide

/-- CT17 of 95_test_vectors: BRK with its padding byte. -/
theorem test_brk_registers :
    after (atPc 0x8000#16 [0x00#8, 0xEA#8] { boot with p := 0x21#8 }) (fun t => (t.pc, t.sp, t.p, t.cyc)) =
      some (0x9000#16, 0xFA#8, 0x25#8, 6) := by decide

/-- CT17 of 95_test_vectors: the bytes BRK pushes. -/
theorem test_brk_stack :
    after (atPc 0x8000#16 [0x00#8, 0xEA#8] { boot with p := 0x21#8 })
        (fun t => (t.byteAt 0x01FD#16, t.byteAt 0x01FC#16, t.byteAt 0x01FB#16)) =
      some (some 0x80#8, some 0x02#8, some 0x31#8) := by decide

/-- CT18 of 95_test_vectors: RTI. -/
theorem test_rti :
    after (atPc 0x9000#16 [0x40#8] (busWrite 0x01FD#16 0x80#8 (busWrite 0x01FC#16 0x02#8 (busWrite 0x01FB#16 0xFF#8 { boot with sp := 0xFA#8 })))) (fun t => (t.pc, t.sp, t.p, t.cyc)) =
      some (0x8002#16, 0xFD#8, 0xEF#8, 5) := by decide

/-- CT19 of 95_test_vectors: RTI. -/
theorem test_rti_forces_u :
    after (atPc 0x9000#16 [0x40#8] (busWrite 0x01FD#16 0x80#8 (busWrite 0x01FC#16 0x06#8 (busWrite 0x01FB#16 0x00#8 { boot with sp := 0xFA#8 })))) (fun t => (t.pc, t.sp, t.p, t.cyc)) =
      some (0x8006#16, 0xFD#8, 0x20#8, 5) := by decide

/-- ST1 of 95_test_vectors: PHA. -/
theorem test_pha :
    after (atPc 0x8000#16 [0x48#8] { boot with a := 0x5A#8, sp := 0xFD#8 }) (fun t => (t.sp, t.byteAt 0x01FD#16, t.cyc)) =
      some (0xFC#8, some 0x5A#8, 2) := by decide

/-- ST6 of 95_test_vectors: PHA. -/
theorem test_pha_wraps :
    after (atPc 0x8000#16 [0x48#8] { boot with sp := 0x00#8, a := 0x11#8 }) (fun t => (t.sp, t.byteAt 0x0100#16, t.cyc)) =
      some (0xFF#8, some 0x11#8, 2) := by decide

/-- ST2 of 95_test_vectors: PHP. -/
theorem test_php :
    after (atPc 0x8000#16 [0x08#8] { boot with p := 0x24#8 }) (fun t => (t.sp, t.p, t.byteAt 0x01FD#16, t.cyc)) =
      some (0xFC#8, 0x24#8, some 0x34#8, 2) := by decide

/-- ST3 of 95_test_vectors: PLA. -/
theorem test_pla :
    after (atPc 0x8000#16 [0x68#8] (busWrite 0x01FD#16 0x00#8 { boot with sp := 0xFC#8, p := 0xA4#8 })) (fun t => (t.a, t.sp, t.p, t.cyc)) =
      some (0x00#8, 0xFD#8, 0x26#8, 3) := by decide

/-- ST7 of 95_test_vectors: PLA. -/
theorem test_pla_wraps :
    after (atPc 0x8000#16 [0x68#8] (busWrite 0x0100#16 0x22#8 { boot with sp := 0xFF#8 })) (fun t => (t.a, t.sp, t.cyc)) =
      some (0x22#8, 0x00#8, 3) := by decide

/-- ST4 of 95_test_vectors: PLP. -/
theorem test_plp :
    after (atPc 0x8000#16 [0x28#8] (busWrite 0x01FD#16 0xFF#8 { boot with sp := 0xFC#8 })) (fun t => (t.sp, t.p, t.cyc)) =
      some (0xFD#8, 0xEF#8, 3) := by decide

/-- ST5 of 95_test_vectors: PLP. -/
theorem test_plp_clears_i :
    after (atPc 0x8000#16 [0x28#8] (busWrite 0x01FD#16 0x00#8 { boot with sp := 0xFC#8 })) (fun t => (t.sp, t.p, t.cyc)) =
      some (0xFD#8, 0x20#8, 3) := by decide

/-- ST8 of 95_test_vectors: CLC. -/
theorem test_clc :
    after (atPc 0x8000#16 [0x18#8] { boot with p := 0x25#8 }) (fun t => (t.p, t.cyc)) =
      some (0x24#8, 1) := by decide

/-- ST9 of 95_test_vectors: SEC. -/
theorem test_sec :
    after (atPc 0x8000#16 [0x38#8] { boot with p := 0x24#8 }) (fun t => (t.p, t.cyc)) =
      some (0x25#8, 1) := by decide

/-- ST10 of 95_test_vectors: CLI. -/
theorem test_cli :
    after (atPc 0x8000#16 [0x58#8] { boot with p := 0x24#8 }) (fun t => (t.p, t.cyc)) =
      some (0x20#8, 1) := by decide

/-- ST11 of 95_test_vectors: SEI. -/
theorem test_sei :
    after (atPc 0x8000#16 [0x78#8] { boot with p := 0x20#8 }) (fun t => (t.p, t.cyc)) =
      some (0x24#8, 1) := by decide

/-- ST12 of 95_test_vectors: CLV. -/
theorem test_clv :
    after (atPc 0x8000#16 [0xB8#8] { boot with p := 0x64#8 }) (fun t => (t.p, t.cyc)) =
      some (0x24#8, 1) := by decide

/-- ST13 of 95_test_vectors: CLD. -/
theorem test_cld :
    after (atPc 0x8000#16 [0xD8#8] { boot with p := 0x2C#8 }) (fun t => (t.p, t.cyc)) =
      some (0x24#8, 1) := by decide

/-- ST14 of 95_test_vectors: SED. -/
theorem test_sed :
    after (atPc 0x8000#16 [0xF8#8] { boot with p := 0x24#8 }) (fun t => (t.p, t.cyc)) =
      some (0x2C#8, 1) := by decide

/-- ST15 of 95_test_vectors: NOP. -/
theorem test_nop :
    after (atPc 0x8000#16 [0xEA#8] { boot with a := 0x01#8, p := 0xE7#8 }) (fun t => (t.a, t.p, t.pc, t.cyc)) =
      some (0x01#8, 0xE7#8, 0x8001#16, 1) := by decide

/-- ST16 of 95_test_vectors: byte $02 (undefined). -/
theorem test_undef_02 :
    after (atPc 0x8000#16 [0x02#8] { boot with a := 0x01#8, p := 0xE7#8 }) (fun t => (t.a, t.p, t.pc, t.cyc)) =
      some (0x01#8, 0xE7#8, 0x8001#16, 1) := by decide

/-- ST17 of 95_test_vectors: byte $FF (undefined). -/
theorem test_undef_ff :
    after (atPc 0x8000#16 [0xFF#8] boot) (fun t => (t.pc, t.cyc)) =
      some (0x8001#16, 6) := by decide

/-! The bus, the stub and the host's calls. -/

/-- BU6 of 95_test_vectors: a read of port 2 clears the vertical-blank flag. -/
theorem test_port_2_clears_vblank :
    after (atPc 0x8000#16 [0xAD#8, 0x02#8, 0x20#8] { boot with vblank := true }) (fun t => (t.vblank, t.cyc)) = some (false, 3) := by
  decide

/-- BU8 of 95_test_vectors: a read of another port does not. -/
theorem test_port_3_keeps_vblank :
    after (atPc 0x8000#16 [0xAD#8, 0x03#8, 0x20#8] { boot with vblank := true }) (fun t => t.vblank) = some true := by decide

/-- BU9 of 95_test_vectors: a peek has no such side effect. -/
theorem test_peek_keeps_vblank : (busRead 0x2002#16 true { boot with vblank := true }).2.vblank = true := by decide

/-- BU4 of 95_test_vectors: the scanline counter wraps and raises the frame flag. -/
theorem test_frame_complete :
    (let t := ppuClock { boot with ppuCycle := 340, ppuScanline := 260 }; (t.ppuCycle, t.ppuScanline, t.frameComplete)) =
      (0, -1, true) := by decide

/-- IN1 of 95_test_vectors: an IRQ entry whose stack wraps. -/
theorem test_irq_stack_wraps :
    (let t := irqRequest { boot with pc := 0x8000#16, p := 0x20#8, sp := 0x01#8 }; (t.sp, t.p, t.pc, t.cyc, t.byteAt 0x01FF#16)) =
      (0xFE#8, 0x24#8, 0x9000#16, 7, some 0x24#8) := by decide

/-- S4 of 95_test_vectors: an NMI entry. -/
theorem test_nmi :
    (let t := nmiRequest { boot with pc := 0x8123#16, p := 0xE3#8 }; (t.sp, t.p, t.pc, t.cyc, t.byteAt 0x01FB#16)) =
      (0xFA#8, 0xE7#8, 0xA000#16, 8, some 0xE7#8) := by decide

/-- S3 of 95_test_vectors: the reset vector and countdown. -/
theorem test_bus_reset : (let t := busReset boot; (t.pc, t.sp, t.p, t.cyc, t.busCtr)) = (0x8000#16, 0xFD#8, 0x24#8, 8, 0) := by
  decide

/-- HD4 of 95_test_vectors: the mapper id takes its nibbles from both flag bytes; the spec refuses it (20_memory R82). -/
theorem test_mapper_id :
    (Cartridge.ofHeader 0x00#8 0x00#8 0x10#8 0x20#8 []).mapperId = 33#8 ∧
    (insertCartridge (Cartridge.ofHeader 0x00#8 0x00#8 0x10#8 0x20#8 []) boot matches .refused (.unsupportedMapper 33#8)) := by decide

/-- MP3 and MP5 of 95_test_vectors: the mapper's masks for one and for two banks. -/
theorem test_mapper_masks :
    cartridge1.mapCpu 0xFFFC#16 = some 0x3FFC ∧ ({ cartridge1 with prgBanks := 2#8 } : Cartridge).mapCpu 0xFFFC#16 = some 0x7FFC := by
  decide

/-- The word that withFetchWord stores is the instruction the next step runs: `A9 80`, AM1 of 95_test_vectors. -/
theorem test_withFetchWord :
    after (State.reset.withFetchWord 16 0x80A9) (fun t => (t.opcode, t.a, t.p, t.cyc)) = some (0xA9#8, 0x80#8, 0xA4#8, 1) := by decide

/-! Witnesses: for every statement with hypotheses, values that meet them; where it has several clauses, values for each. -/

theorem witness_DecodeOfEncodeIsIdentity : (Instr.undef 0x02).wf = true ∧ (Instr.lda (.abs 0xFFFF)).wf = true := by decide

theorem witness_DecodeIsTotalAndExact :
    decode (0x20 :: [0x10, 0x80]) = .ok (.jsr 0x8010) ∧ Instr.jsr 0x8010 ≠ .brk := ⟨rfl, nofun⟩

theorem witness_RamIsMirrored :
    boot.memoriesWf = true ∧ 0x1FFF#16 ≤ 0x1FFF#16 ∧ 0x07FF#16 &&& 0x07FF#16 = 0x1FFF#16 &&& 0x07FF#16 ∧ 0x0000#16 ≤ 0x1FFF#16 := by
  decide

theorem witness_PortWindowSelectsPort : 0x2000#16 ≤ 0x2000#16 ∧ 0x2000#16 ≤ 0x3FFF#16 ∧ 0x3FFF#16 ≤ 0x3FFF#16 := by decide

/-- The window's ends and the byte before it (a read there is idempotent, as is a peek), and the bounds of the clauses about a
write. -/
theorem witness_BusSideEffects :
    isPort 0x2000#16 = true ∧ isPort 0x3FFF#16 = true ∧ isPort 0x1FFF#16 = false ∧ 0x1FFF#16 < 0x2000#16 ∧ 0x7FFF#16 < 0x8000#16 := by
  decide

/-- Three clauses: a mirror of the written byte, another location, and a location that keeps nothing. -/
theorem witness_ReadGivesMostRecentWrite :
    boot.memoriesWf = true ∧ boot.place 0x1FFF#16 = boot.place 0x07FF#16 ∧ (boot.place 0x07FF#16).keeps = true ∧
    boot.place 0x0800#16 ≠ boot.place 0x07FF#16 ∧ boot.place 0xC000#16 = boot.place 0x8000#16 ∧
    (boot.place 0x8000#16).keeps = true ∧ (boot.place 0x2000#16).keeps = false ∧ (boot.place 0x7FFF#16).keeps = false := by decide

theorem witness_UnmappedReadsZeroAndDiscards :
    (0x4000#16 ≤ 0x4000#16 ∧ 0x4000#16 ≤ 0x7FFF#16) ∧ 0x7FFF#16 ≤ 0x7FFF#16 ∧ (0x4000#16 ≤ 0xFFFF#16 ∧ State.reset.cart = none) := by
  decide

def cartridgeEmpty : Cartridge := { cartridge1 with prgBanks := 0#8, prg := [] }

def cartridgePattern : Cartridge := { cartridge1 with chrBanks := 1#8, chr := [(0x1FFF, 0xC1#8)] }

/-- Six clauses: mapped within the length at both ends, another offset, unmapped, and beyond the length, on both sides. -/
theorem witness_CartridgeAccesses :
    (cartridge1.wf = true ∧ cartridge1.mapCpu 0x8000#16 = some 0 ∧ cartridge1.mapCpu 0xFFFF#16 = some 0x3FFF ∧
      0x3FFF < cartridge1.prgSize ∧ cartridge1.mapCpu 0x8001#16 ≠ some 0 ∧ cartridge1.mapCpu 0x7FFF#16 = none) ∧
    (cartridgeEmpty.wf = true ∧ cartridgeEmpty.mapCpu 0x8000#16 = some 0 ∧ cartridgeEmpty.prgSize ≤ 0) ∧
    (cartridgePattern.wf = true ∧ cartridgePattern.mapPpu 0x1FFF#16 = some 0x1FFF ∧ 0x1FFF < cartridgePattern.chrSize ∧
      cartridgePattern.mapPpu 0x0000#16 ≠ some 0x1FFF ∧ cartridgePattern.mapPpu 0x2000#16 = none) ∧
    (cartridge1.mapPpu 0x0000#16 = some 0 ∧ cartridge1.chrSize ≤ 0) := by decide

/-- A file that is valid, with one bank of program memory. -/
theorem witness_CartridgeParser :
    (Cartridge.ofFile (some ([0, 0, 0, 0, 1, 0, 0, 0, 0, 0, 0, 0, 0, 0, 0, 0] ++ List.replicate 16384 0xA1#8))).valid = true := by
  have h1 : ¬ ([0, 0, 0, 0, 1, 0, 0, 0, 0, 0, 0, 0, 0, 0, 0, 0] ++ List.replicate 16384 0xA1#8 : List Byte).length < 16 := by
    rw [List.length_append, List.length_replicate]
    decide
  have h2 : ([0, 0, 0, 0, 1, 0, 0, 0, 0, 0, 0, 0, 0, 0, 0, 0] ++ List.replicate 16384 0xA1#8 : List Byte).drop 16 =
      List.replicate 16384 0xA1#8 := rfl
  rw [Cartridge.ofFile, if_neg h1, h2]
  show (Cartridge.ofHeader 1 0 0 0 (List.replicate 16384 0xA1#8)).valid = true
  simp only [Cartridge.ofHeader, List.length_replicate]
  rw [if_neg (by decide)]

def unreset : State := { State.reset with hasReset := false }

def badParams : State := { State.reset with params := { Config.defaultParams with undefCycles := [(0x02#8, 0)] } }

def badLength : State := { State.reset with params := { Config.defaultParams with undefLen := [(0x02#8, 4)] } }

/-- Each premise, and for the last clause a state refused for its cycles, one refused for a length, and one that is not refused. -/
theorem witness_InsertCartridgeAndRefusals :
    (cartridge1.valid = true ∧ cartridge1.mapperId = 0#8) ∧ Cartridge.invalid.valid = false ∧
    (({ cartridge1 with mapperId := 33#8 } : Cartridge).valid = true ∧ ({ cartridge1 with mapperId := 33#8 } : Cartridge).mapperId ≠ 0#8) ∧
    unreset.hasReset = false ∧ (0x02#8, 0) ∈ badParams.params.undefCycles ∧
    ((0x02#8, 4) ∈ badLength.params.undefLen ∧ 4 ∉ [1, 2, 3]) ∧ paramsLegal boot.params = true := by decide

/-- An operand in RAM at the last mirrored address, and one in the cartridge. -/
theorem witness_OperandIsTheByteAtTheAddress :
    Operand.abs 0x1FFF#16 ≠ .acc ∧ (∀ i, Operand.abs 0x1FFF#16 ≠ .imm i) ∧
    boot.byteAt (operandAddr (.abs 0x1FFF#16) boot) = some 0x00#8 ∧ boot.byteAt (operandAddr (.abs 0xFFFF#16) boot) = some 0x90#8 := by
  refine ⟨by decide, fun i h => ?_, by decide, by decide⟩
  cases h

/-- A pointer that ends in 0xFF. -/
theorem witness_JumpTargets :
    boot.byteAt 0x02FF#16 = some 0x00#8 ∧ boot.byteAt (joinBytes (hiByte 0x02FF#16) (loByte 0x02FF#16 + 1#8)) = some 0x00#8 := by
  decide

/-- The premise inside `StoresOnly` and `KeepsMemoryBut`, and each clause of `StoresOnly` for a store to RAM, to a port and to an
unmapped address. -/
theorem witness_StoresOnly :
    boot.memoriesWf = true ∧ boot.place 0x0800#16 = boot.place 0x0000#16 ∧ (boot.place 0x0000#16).keeps = true ∧
    boot.place 0x0001#16 ≠ boot.place 0x0000#16 ∧ (boot.place 0x3FFF#16).keeps = false ∧
    (∀ o ∈ [stackOffset 0xFD#8], boot.place 0x01FC#16 ≠ .ram o) := by decide

theorem witness_ShiftsOfMemory : ShiftOperand.zp0 0x10 ≠ .acc := by decide

theorem witness_BranchesFollowTheirFlag : getFlag .Z boot.p = false ∧ getFlag .Z boot.p ≠ true := by decide

theorem witness_ReturnUndoesCall :
    boot.memoriesWf = true ∧ ∃ t u, exec (.jsr 0x8010) boot = .next t ∧ exec .rts t = .next u := ⟨by decide, _, _, rfl, rfl⟩

theorem witness_BrkTakesTheTrap : boot.byteAt 0xFFFE#16 = some 0x00#8 ∧ boot.byteAt 0xFFFF#16 = some 0x90#8 := by decide

theorem witness_RtiUndoesBrk :
    boot.memoriesWf = true ∧ ∃ t u, exec .brk boot = .next t ∧ exec .rti t = .next u := ⟨by decide, _, _, rfl, rfl⟩

theorem witness_UndefinedOpcodesAreNoOps :
    0x02#8 ∈ undefinedOpcodes ∧ 0xFF#8 ∈ undefinedOpcodes ∧ boot.params = Config.defaultParams := by decide

theorem witness_StackWrapsInPageOne :
    ({ boot with sp := 0x00#8 } : State).sp = 0x00#8 ∧ ({ boot with sp := 0xFF#8 } : State).sp = 0xFF#8 ∧
    ({ boot with sp := 0x01#8 } : State).sp = 0x01#8 := by decide

theorem witness_CycleCountsFollowTheOpcodeMap :
    decode [0xB9, 0xFF, 0x44] = .ok (.lda (.aby 0x44FF)) ∧ boot.params = Config.defaultParams ∧ paramsLegal boot.params = true :=
  ⟨rfl, by decide, by decide⟩

/-- `LDA $44FF,Y` at 0x8000, S7 of 95_test_vectors. -/
def fetching : State := atPc 0x8000#16 [0xB9, 0xFF, 0x44] boot

theorem witness_StepRunsDecodedInstruction :
    fetching.hasReset = true ∧ fetching.cyc = 0 ∧ fetching.busCtr = fetching.params.cpuPhase ∧
    fetching.byteAt fetching.pc = some 0xB9#8 ∧ fetching.byteAt (fetching.pc + 1#16) = some 0xFF#8 ∧
    fetching.byteAt (fetching.pc + 2#16) = some 0x44#8 ∧ decode [0xB9#8, 0xFF#8, 0x44#8] = .ok (.lda (.aby 0x44FF)) :=
  ⟨by decide, by decide, by decide, by decide, by decide, by decide, rfl⟩

theorem witness_FetchReadsThroughTheBus :
    operandBytes (memRead (atPc 0x8000#16 [0xEA] boot).pc (atPc 0x8000#16 [0xEA] boot)).1 = 0 ∧
    operandBytes (memRead (atPc 0x8000#16 [0xA9] boot).pc (atPc 0x8000#16 [0xA9] boot)).1 = 1 ∧
    operandBytes (memRead fetching.pc fetching).1 = 2 := by decide

theorem witness_StepBetweenBoundaries :
    ({ boot with busCtr := 1 } : State).busCtr ≠ boot.params.cpuPhase ∧ boot.hasReset = true ∧
    ({ boot with cyc := 1 } : State).busCtr = boot.params.cpuPhase ∧ 0 < ({ boot with cyc := 1 } : State).cyc := by decide

theorem witness_PictureUnitAdvancesFirst :
    boot.hasReset = true ∧ boot.busCtr = boot.params.cpuPhase ∧ ∃ t, cpuClock (ppuClock { boot with cyc := 1 }) = .next t :=
  ⟨by decide, by decide, _, rfl⟩

theorem witness_ThreeBusClocksTickOnce : boot.hasReset = true := by decide

theorem witness_PictureUnitTick :
    boot.ppuCycle < 340 ∧ (({ boot with ppuCycle := 340 } : State).ppuCycle = 340 ∧ boot.ppuScanline < 260) ∧
    ({ boot with ppuCycle := 340, ppuScanline := 260 } : State).ppuScanline = 260 ∧
    ∃ t, step { boot with cyc := 1, frameComplete := true, vblank := true } = .next t ∧ t.frameComplete = true ∧ t.vblank = true :=
  ⟨by decide, by decide, by decide, _, rfl, rfl, rfl⟩

theorem witness_FramePeriod :
    boot.stubInRange = true ∧ boot.ppuCycle = 0 ∧ boot.ppuScanline = 0 ∧ boot.frameComplete = false := by decide

theorem witness_IrqEntry :
    boot.hasReset = true ∧ boot.byteAt 0xFFFE#16 = some 0x00#8 ∧ boot.byteAt 0xFFFF#16 = some 0x90#8 ∧ getFlag .I boot.p = true ∧
    getFlag .I ({ boot with p := 0x20#8 } : State).p = false := by decide

theorem witness_NmiEntry :
    boot.hasReset = true ∧ boot.byteAt 0xFFFA#16 = some 0x00#8 ∧ boot.byteAt 0xFFFB#16 = some 0xA0#8 := by decide

theorem witness_RtiAfterInterruptLeavesMasked :
    boot.memoriesWf = true ∧ (∃ u, exec .rti (nmiRequest boot) = .next u) ∧
    getFlag .I ({ boot with p := 0x20#8 } : State).p = false ∧ ∃ u, exec .rti (irqRequest { boot with p := 0x20#8 }) = .next u :=
  ⟨by decide, ⟨_, rfl⟩, by decide, _, rfl⟩

theorem witness_InterruptCallsInOneGap :
    boot.hasReset = true ∧ boot.memoriesWf = true ∧ getFlag .I ({ boot with p := 0x20#8 } : State).p = false := by decide

theorem witness_BusResetValues :
    (paramsLegal boot.params = true ∧ boot.byteAt 0xFFFC#16 = some 0x00#8 ∧ boot.byteAt 0xFFFD#16 = some 0x80#8) ∧
    (unreset.cart = none ∧ unreset.ram = [] ∧ unreset.params = Config.defaultParams ∧
      ({ unreset with draws := 0 } : State).draws = 0) := by decide

theorem witness_FirstFetchIsInTheNinthClock : boot.params.cpuPhase = 0 := by decide

theorem witness_NeverStopsTicking : State.reset.hasReset = true := by decide

theorem witness_InstructionsKeepCountersAndCartridgeHeader : ∃ t, exec .brk boot = .next t := ⟨_, rfl⟩

theorem boot_inv : boot.Inv := ⟨by decide, by decide, by decide, by decide⟩

theorem witness_StepKeepsTheInvariant : boot.Inv ∧ ∃ t, step boot = .next t := ⟨boot_inv, _, rfl⟩

theorem witness_HostActionsKeepTheInvariant :
    boot.Inv ∧ cartridge1.wf = true ∧ ∃ t, hostAction (.insertCartridge cartridge1) boot = .next t := ⟨boot_inv, by decide, _, rfl⟩

theorem witness_StoredBAndUAreHeld :
    boot.statusHeld = true ∧ (∃ t, step boot = .next t) ∧ ∃ t, hostAction .irq boot = .next t := ⟨by decide, ⟨_, rfl⟩, _, rfl⟩

end Sys2Proof.Tests
end

section
/-! PROOFS. The statements about the state and what a run keeps (10_state): instructions keep `Kept`, a step keeps `State.Inv`, and
steps, the processor clock and interrupt calls keep the stored B and U. -/

namespace Sys2Proof.Machine

open Sys2Proof

/-- An instruction that answers a next state keeps what no instruction touches. -/
theorem kept_of_exec_next {i : Instr} {s t : State} (h : exec i s = .next t) : Kept s t := by
  obtain ⟨u, hu, hk⟩ := exec_kept i s
  obtain rfl : t = u := Host.Outcome.next.inj (h.symm.trans hu)
  exact hk

/-- The range of the stub's counters is a matter of the two counters alone (10_state R42). -/
theorem stubInRange_congr {s t : State} (hc : t.ppuCycle = s.ppuCycle) (hs : t.ppuScanline = s.ppuScanline) :
    t.stubInRange = s.stubInRange := by
  simp only [State.stubInRange, hc, hs]

@[simp] theorem statusHeld_countDown (s : State) : (countDown s).statusHeld = s.statusHeld := rfl

/-- The opcode register plays no part in the stored B and U, so a fetch holds them (10_state R28). -/
theorem fetch_statusHeld {s : State} (h : s.statusHeld = true) : (fetch s).2.statusHeld = true := (fetch_kept s).status h

/-- Everything the processor clock can do: count down, or run the instruction it fetches and count down (40_dispatch R130). -/
theorem cpuClock_cases (s : State) :
    (s.cyc ≠ 0 ∧ cpuClock s = .next (countDown s)) ∨
    (s.cyc = 0 ∧ ∃ t, exec (fetch s).1 (fetch s).2 = .next t ∧ Kept (fetch s).2 t ∧ cpuClock s = .next (countDown t)) := by
  by_cases hc : s.cyc = 0
  · obtain ⟨t, ht, hk⟩ := exec_kept (fetch s).1 (fetch s).2
    exact .inr ⟨hc, t, ht, hk, by simp [cpuClock, hc, ht, onNext]⟩
  · exact .inl ⟨hc, by simp [cpuClock, hc]⟩

/-- The processor clock holds the stored B and U (10_state R28, decision D2). -/
theorem cpuClock_statusHeld {s t : State} (hs : s.statusHeld = true) (h : cpuClock s = .next t) : t.statusHeld = true := by
  rcases cpuClock_cases s with ⟨-, he⟩ | ⟨-, u, -, hk, he⟩
  · obtain rfl : countDown s = t := Host.Outcome.next.inj (he.symm.trans h)
    rwa [statusHeld_countDown]
  · obtain rfl : countDown u = t := Host.Outcome.next.inj (he.symm.trans h)
    rw [statusHeld_countDown]
    exact hk.status (fetch_statusHeld hs)

/-- An action that answers a next state was not refused for want of a first bus reset (70_reset R313). -/
theorem afterReset_next {s t : State} {o : Host.Outcome State Fault Refusal} (h : afterReset s o = .next t) : o = .next t := by
  unfold afterReset at h
  split at h
  · exact h
  · cases h

/-- An interrupt call or the processor clock alone holds the stored B and U (10_state R28, decisions D2 and D31). -/
theorem hostAction_statusHeld {act : HostAction} (hact : act ∈ [HostAction.irq, .nmi, .cpuClock]) {s t : State}
    (hs : s.statusHeld = true) (h : hostAction act s = .next t) : t.statusHeld = true := by
  simp only [List.mem_cons, List.not_mem_nil, or_false] at hact
  rcases hact with rfl | rfl | rfl
  · exact Host.Outcome.next.inj (afterReset_next h) ▸ (Kept.irqRequest s).status hs
  · exact Host.Outcome.next.inj (afterReset_next h) ▸ (Kept.nmiRequest s).status hs
  · exact cpuClock_statusHeld hs (afterReset_next h)

/-- A step keeps the invariant of a run: its clocks tick the stub within its range, and what it executes keeps the rest. -/
theorem step_inv {s t : State} (hi : s.Inv) (h : step s = .next t) : t.Inv := by
  obtain ⟨hcycle, hscanline, -, -, hparams, hreset, hmem, -, -⟩ := step_kept h
  exact
    { started := hreset.trans hi.started
      legal := hparams ▸ hi.legal
      memories := hmem hi.memories
      stub := (stubInRange_congr hcycle hscanline).trans (ppuClock_inRange hi.stub) }

/-- A step holds the stored B and U (10_state R28, decision D2). -/
theorem step_statusHeld {s t : State} (hs : s.statusHeld = true) (h : step s = .next t) : t.statusHeld = true := by
  obtain ⟨-, -, -, -, -, -, -, -, hstatus⟩ := step_kept h
  exact hstatus hs

/-- Settles O58: the stub's tick stays in range, and every instruction keeps the memories, the parameters and `hasReset`. -/
theorem stepKeepsTheInvariant : Obligations.StepKeepsTheInvariant := fun _ _ hi h => step_inv hi h

/-- Settles O56: the fields of `Kept`, which every instruction satisfies. -/
theorem instructionsKeepCountersAndCartridgeHeader : Obligations.InstructionsKeepCountersAndCartridgeHeader := by
  intro i s t h
  have k := kept_of_exec_next h
  exact ⟨k.ppuCycle, k.ppuScanline, k.frameComplete, k.vblank, k.busCtr, k.clockCount, k.opcode, k.params, k.hasReset, k.cart⟩

/-- Settles O60: by the step for the bus clock, and by the three host actions. -/
theorem storedBAndUAreHeld : Obligations.StoredBAndUAreHeld :=
  fun _ _ hs => ⟨step_statusHeld hs, fun _ hact => hostAction_statusHeld hact hs⟩

/-- Settles O57: the fields of the invariant at the state after reset, whose vertical-blank draw none of them reads. -/
theorem resetMeetsTheInvariant : Obligations.ResetMeetsTheInvariant :=
  ⟨{ started := rfl, legal := by decide, memories := rfl, stub := by decide }, by decide⟩

end Sys2Proof.Machine
end

section
/-! PROOFS. Facts about single bus transactions, by the region of the address (20_memory R60 to R66, R87, R90): what lies behind an
address, what a read gives there, and what a write may change. -/

namespace Sys2Proof.Machine

open Sys2Proof

/-! RAM. -/

theorem place_of_ram {a : Word} (h : a ≤ 0x1FFF#16) (s : State) : s.place a = .ram (a &&& 0x07FF#16).toNat := by
  rw [State.place, if_pos ((le_1FFF_iff a).mp h), word_and_07FF]

theorem busRead_of_ram {a : Word} (h : a ≤ 0x1FFF#16) (ro : Bool) (s : State) :
    busRead a ro s = (s.ram.read (a &&& 0x07FF#16).toNat, s) := by
  rw [busRead, if_pos h]

/-- Flipping address bits 11 and 12 keeps an address in RAM. -/
theorem xor_le_1FFF {a k : Word} (ha : a ≤ 0x1FFF#16) (hk : k ≤ 0x1FFF#16) : a ^^^ k ≤ 0x1FFF#16 := by
  have bound : ∀ w : Word, w ≤ 0x1FFF#16 ↔ w.toNat < 2 ^ 13 := fun w => by rw [le_1FFF_iff, BitVec.lt_def]; rfl
  rw [bound] at *
  rw [BitVec.toNat_xor]
  exact Nat.xor_lt_two_pow ha hk

/-- Flipping address bits above bit 10 keeps the RAM offset. -/
theorem xor_and_07FF (a : Word) {k : Word} (hk : k &&& 0x07FF#16 = 0#16) : (a ^^^ k) &&& 0x07FF#16 = a &&& 0x07FF#16 := by
  apply BitVec.eq_of_toNat_eq
  rw [BitVec.toNat_and, BitVec.toNat_xor, Nat.and_xor_distrib_right, ← BitVec.toNat_and, ← BitVec.toNat_and, hk]
  exact Nat.xor_zero _

/-! The port window. -/

theorem word_and_0007 (a : Word) : (a &&& 0x0007#16).toNat = a.toNat % 8 := by
  rw [BitVec.toNat_and]
  exact Nat.and_two_pow_sub_one_eq_mod a.toNat 3

/-- The low three bits of an address, as the port number (20_memory R64). -/
theorem port_number (a : Word) : (a &&& 0x0007#16).setWidth 3 = BitVec.ofNat 3 (a.toNat % 8) := by
  apply BitVec.eq_of_toNat_eq
  rw [BitVec.toNat_setWidth, word_and_0007, BitVec.toNat_ofNat]

/-- Cutting an address to its low three bits loses nothing. -/
theorem port_eq_iff (a : Word) : (a &&& 0x0007#16).setWidth 3 = 2#3 ↔ a &&& 0x0007#16 = 0x0002#16 := by
  rw [← BitVec.toNat_inj, ← BitVec.toNat_inj, BitVec.toNat_setWidth, word_and_0007, Nat.mod_mod]
  rfl

theorem isPort_iff (a : Word) : isPort a = true ↔ 0x2000#16 ≤ a ∧ a ≤ 0x3FFF#16 := by
  rw [isPort, Bool.and_eq_true, decide_eq_true_eq, decide_eq_true_eq]

/-- A write in the port window is a port write (20_memory R64). -/
theorem busWrite_port {a : Word} (h : isPort a = true) (v : Byte) (s : State) :
    busWrite a v s = portWrite ((a &&& 0x0007#16).setWidth 3) v s := by
  simp [busWrite, isPort_true_cases h]

/-! Reads and writes by physical location. -/

/-- Everything a bus read changes beside its byte (60_exceptions R292). -/
theorem busRead_snd (a : Word) (ro : Bool) (s : State) :
    (busRead a ro s).2 =
      { s with
        vblank := if isPort a = true ∧ a &&& 0x0007#16 = 0x0002#16 ∧ ro = false then false else s.vblank
        draws := if isPort a = true ∧ ro = false then s.draws + 1 else s.draws } := by
  cases hp : isPort a with
  | false => simp [busRead_quiet (.inl hp)]
  | true =>
    rw [busRead_port hp, portRead_state]
    simp only [port_eq_iff]
    cases ro <;> simp

/-- A read that changes nothing gives the same byte again (20_memory R87). -/
theorem busRead_idempotent {a : Word} {ro : Bool} (h : isPort a = false ∨ ro = true) (s : State) :
    busRead a ro (busRead a ro s).2 = busRead a ro s := by
  rw [busRead_quiet h]

/-- A write is read back at every address of the same location that keeps it (20_memory R90). -/
theorem busRead_busWrite {s : State} (hwf : s.memoriesWf = true) {a b : Word} (hp : s.place b = s.place a)
    (hk : (s.place a).keeps = true) (v : Byte) (ro : Bool) : busRead b ro (busWrite a v s) = (v, busWrite a v s) :=
  busRead_of_byteAt (by rw [byteAt_busWrite hwf, if_pos ⟨hp, hk⟩]) ro

/-- A location that keeps nothing discards what is written there (20_memory R65, R90). -/
theorem busWrite_of_not_keeps {s : State} {a : Word} (h : (s.place a).keeps = false) (v : Byte) : busWrite a v s = s := by
  rw [busWrite_place]
  cases hp : s.place a with
  | port n => rfl
  | unmapped => rfl
  | ram o => rw [hp] at h; cases h
  | prg o => rw [hp] at h; cases h

/-- A write above RAM leaves RAM alone. -/
theorem busWrite_ram {a : Word} (h : 0x1FFF#16 < a) (v : Byte) (s : State) : (busWrite a v s).ram = s.ram := by
  rw [busWrite, if_neg (BitVec.not_le.mpr h)]
  split
  · rfl
  · split <;> rfl

/-- Below 0x8000 no address lies in program memory (20_memory R66). -/
theorem place_ne_prg {a : Word} (h : a < 0x8000#16) (s : State) (o : Nat) : s.place a ≠ .prg o := by
  simp only [State.place, if_pos h]
  split
  · exact nofun
  · split
    · exact nofun
    · split
      · exact nofun
      · exact nofun

/-- A write below 0x8000 leaves the cartridge alone. -/
theorem busWrite_cart {a : Word} (h : a < 0x8000#16) (v : Byte) (s : State) : (busWrite a v s).cart = s.cart := by
  rw [busWrite_place]
  cases hp : s.place a with
  | prg o => exact absurd hp (place_ne_prg h s o)
  | ram o => rfl
  | port n => rfl
  | unmapped => rfl

/-- Nothing answers from 0x4000 to 0x7FFF, nor above without a cartridge (20_memory R62, R65). -/
theorem place_unmapped {s : State} {a : Word} (h : 0x4000#16 ≤ a) (hu : a ≤ 0x7FFF#16 ∨ s.cart = none) :
    s.place a = .unmapped := by
  rcases place_high (s := s) (BitVec.not_lt.mpr h) with hp | ⟨c, o, hc, -, hp⟩
  · exact hp
  · rcases hu with ha | hn
    · exact absurd hp (place_ne_prg (Std.lt_of_le_of_lt ha (by decide)) s o)
    · rw [hn] at hc
      cases hc

end Sys2Proof.Machine
end

section
/-! PROOFS. Facts about the cartridge (20_memory R70, R71, R80 to R83): an access to one of its two memories, the construction from a
file, and when an action is refused. Both sides' accesses are one access to a memory of some size at an optional offset. -/

namespace Sys2Proof.Machine

open Sys2Proof

/-- The byte of a memory of `size` bytes at a mapped offset, 0 where nothing is mapped or beyond the size (20_memory R71). -/
def Memory.readAt (m : Memory) (size : Nat) : Option Nat → Byte
  | none => 0x00#8
  | some o => if size ≤ o then 0x00#8 else m.read o

/-- A memory of `size` bytes after a write at a mapped offset, discarded where nothing is mapped or beyond the size (20_memory R71). -/
def Memory.writeAt (m : Memory) (size : Nat) (v : Byte) : Option Nat → Memory
  | none => m
  | some o => if size ≤ o then m else m.write o v

theorem Memory.readAt_within {size o : Nat} (m : Memory) (ho : o < size) : m.readAt size (some o) = m.read o :=
  if_neg (Nat.not_le.mpr ho)

theorem Memory.readAt_beyond {size : Nat} {offset : Option Nat} (m : Memory) (h : ∀ o, offset = some o → size ≤ o) :
    m.readAt size offset = 0x00#8 := by
  cases offset with
  | none => rfl
  | some o => exact if_pos (h o rfl)

theorem Memory.writeAt_beyond {size : Nat} {offset : Option Nat} (m : Memory) (v : Byte) (h : ∀ o, offset = some o → size ≤ o) :
    m.writeAt size v offset = m := by
  cases offset with
  | none => rfl
  | some o => exact if_pos (h o rfl)

/-- A write within the size is read back at its offset and nowhere else. -/
theorem Memory.readAt_writeAt {size o : Nat} {m : Memory} (hwf : Memory.wf size m = true) (ho : o < size) (v : Byte)
    (offset : Option Nat) : (m.writeAt size v (some o)).readAt size offset = if offset = some o then v else m.readAt size offset := by
  rw [Memory.writeAt, if_neg (Nat.not_le.mpr ho)]
  cases offset with
  | none => rfl
  | some j =>
    have hread : (m.write o v).read j = _ := Memory.read_write (lo := 0) m o j v hwf
    by_cases hj : j = o
    · subst hj
      simp [Memory.readAt, Nat.not_le.mpr ho, hread]
    · simp [Memory.readAt, hread, hj]

theorem Cartridge.cpuRead_eq (c : Cartridge) (a : Word) : c.cpuRead a = c.prg.readAt c.prgSize (c.mapCpu a) := by
  unfold Cartridge.cpuRead
  cases c.mapCpu a <;> rfl

theorem Cartridge.cpuWrite_eq (c : Cartridge) (a : Word) (v : Byte) :
    c.cpuWrite a v = { c with prg := c.prg.writeAt c.prgSize v (c.mapCpu a) } := by
  unfold Cartridge.cpuWrite
  cases c.mapCpu a with
  | none => rfl
  | some o => by_cases ho : c.prgSize ≤ o <;> simp [Memory.writeAt, ho]

theorem Cartridge.ppuRead_eq (c : Cartridge) (a : Word) : c.ppuRead a = c.chr.readAt c.chrSize (c.mapPpu a) := by
  unfold Cartridge.ppuRead
  cases c.mapPpu a <;> rfl

theorem Cartridge.ppuWrite_eq (c : Cartridge) (a : Word) (v : Byte) :
    c.ppuWrite a v = { c with chr := c.chr.writeAt c.chrSize v (c.mapPpu a) } := by
  unfold Cartridge.ppuWrite
  cases c.mapPpu a with
  | none => rfl
  | some o => by_cases ho : c.chrSize ≤ o <;> simp [Memory.writeAt, ho]

/-- A processor-side read after a write within program memory (20_memory R71, R90). -/
theorem Cartridge.cpuRead_cpuWrite {c : Cartridge} (hwf : c.wf = true) {a : Word} {o : Nat} (ha : c.mapCpu a = some o)
    (ho : o < c.prgSize) (b : Word) (v : Byte) :
    (c.cpuWrite a v).cpuRead b = if c.mapCpu b = some o then v else c.cpuRead b := by
  rw [cpuWrite_eq, cpuRead_eq, cpuRead_eq, ha]
  exact Memory.readAt_writeAt (cartridge_wf_prg hwf) ho v (c.mapCpu b)

theorem cartridge_wf_chr {c : Cartridge} (h : c.wf = true) : Memory.wf c.chrSize c.chr = true := by
  simp only [Cartridge.wf, Bool.and_eq_true] at h
  exact h.2

/-- A picture-unit-side read after a write within pattern memory (20_memory R71, R90). -/
theorem Cartridge.ppuRead_ppuWrite {c : Cartridge} (hwf : c.wf = true) {a : Word} {o : Nat} (ha : c.mapPpu a = some o)
    (ho : o < c.chrSize) (b : Word) (v : Byte) :
    (c.ppuWrite a v).ppuRead b = if c.mapPpu b = some o then v else c.ppuRead b := by
  rw [ppuWrite_eq, ppuRead_eq, ppuRead_eq, ha]
  exact Memory.readAt_writeAt (cartridge_wf_chr hwf) ho v (c.mapPpu b)

/-! The parser. -/

/-- What the parser makes of header bytes 4 to 7 and a body that holds all they declare (20_memory R80, R81). -/
def Cartridge.ofBody (prgBanks chrBanks flags1 flags2 : Byte) (body : List Byte) : Cartridge :=
  { valid := true
    prgBanks := prgBanks
    chrBanks := chrBanks
    mapperId := (flags2 &&& 0xF0#8) ||| (flags1 >>> 4)
    mirroring := if flags1.getLsbD 0 then .vertical else .horizontal
    trainer := flags1.getLsbD 2
    prg := Memory.ofBytes (body.take (prgBanks.toNat * 16384))
    chr := Memory.ofBytes ((body.drop (prgBanks.toNat * 16384)).take (chrBanks.toNat * 8192)) }

/-- The length of the trainer that header byte 6 declares (20_memory R80). -/
def trainerLength (flags1 : Byte) : Nat := if flags1.getLsbD 2 then 512 else 0

/-- A file that holds a full header and all it declares is parsed, and any other is invalid (20_memory R80, decision D13). -/
theorem Cartridge.ofFile_some (f : List Byte) :
    Cartridge.ofFile (some f) =
      if 16 + trainerLength (f.getD 6 0) + (f.getD 4 0).toNat * 16384 + (f.getD 5 0).toNat * 8192 ≤ f.length then
        .ofBody (f.getD 4 0) (f.getD 5 0) (f.getD 6 0) (f.getD 7 0) (f.drop (16 + trainerLength (f.getD 6 0)))
      else .invalid := by
  by_cases hlen : f.length < 16
  · rw [Cartridge.ofFile, if_pos hlen, if_neg (by omega)]
  · have hbody : (if (f.getD 6 0).getLsbD 2 then (f.drop 16).drop 512 else f.drop 16) =
        f.drop (16 + trainerLength (f.getD 6 0)) := by
      unfold trainerLength
      split <;> simp
    rw [Cartridge.ofFile, if_neg hlen]
    simp only [Cartridge.ofHeader, List.length_drop, hbody]
    by_cases h : 16 + trainerLength (f.getD 6 0) + (f.getD 4 0).toNat * 16384 + (f.getD 5 0).toNat * 8192 ≤ f.length
    · rw [if_pos h, if_neg (by unfold trainerLength at h; omega)]
      rfl
    · rw [if_neg h, if_pos (by unfold trainerLength at h; omega)]

/-- A byte of a block of a file, counted from the block's start. -/
theorem getD_take_drop (f : List Byte) (start : Nat) {len o : Nat} (h : o < len) :
    ((f.drop start).take len).getD o Config.unlistedByte = f.getD (start + o) 0#8 := by
  rw [List.getD_eq_getElem?_getD, List.getElem?_take_of_lt h, List.getElem?_drop, List.getD_eq_getElem?_getD]
  rfl

/-! Refusals. -/

/-- A parameter is illegal exactly where an entry is out of the range the spec gives it (70_reset R311, R321; log 17). -/
theorem paramsLegal_eq_false_iff (params : Config.Params) :
    paramsLegal params = false ↔
      (∃ op, (op, 0) ∈ params.undefCycles) ∨ (∃ op n, (op, n) ∈ params.undefLen ∧ n ∉ [1, 2, 3]) ∨
      340 < params.ppuResetCycle ∨ params.ppuResetScanline < -1 ∨ 260 < params.ppuResetScanline := by
  have hcycles : params.undefCycles.all (fun e => decide (1 ≤ e.2)) = false ↔ ∃ op, (op, 0) ∈ params.undefCycles := by
    simp
  have hlen : params.undefLen.all (fun e => decide (1 ≤ e.2) && decide (e.2 ≤ 3)) = false ↔
      ∃ op n, (op, n) ∈ params.undefLen ∧ n ∉ [1, 2, 3] := by
    have range : ∀ n : Nat, (1 ≤ n → 3 < n) ↔ n ∉ [1, 2, 3] := fun n => by simp; omega
    simp [range]
  simp only [paramsLegal, Bool.and_eq_false_iff, decide_eq_false_iff_not, hcycles, hlen, Nat.not_le, Int.not_le, or_assoc]
  exact or_left_comm

/-- An action that needs a first bus reset is refused before it (70_reset R313; log 8). -/
theorem afterReset_refused {s : State} (h : s.hasReset = false) (o : Host.Outcome State Fault Refusal) :
    afterReset s o = .refused .beforeFirstReset := by
  simp [afterReset, h]

theorem step_refused {s : State} (h : s.hasReset = false) : step s = .refused .beforeFirstReset := by
  simp [step, h]

end Sys2Proof.Machine
end

section
/-! PROOFS. The statements about the bus, RAM, the ports and the cartridge (20_memory): from the physical location of an address, from
the two cartridge memories as memories at an optional offset, and from the parser as one test of the file's length. -/

namespace Sys2Proof.Machine

open Sys2Proof

/-- Settles O4: an address in RAM lies at the RAM offset of its low 11 bits, and a write is read back at every address of its
location. -/
theorem ramIsMirrored : Obligations.RamIsMirrored := by
  intro s a ro ha
  refine ⟨busRead_of_ram ha ro s, fun hwf v => ?_⟩
  have mirror : ∀ b, b ≤ 0x1FFF#16 → b &&& 0x07FF#16 = a &&& 0x07FF#16 → (busRead b ro (busWrite a v s)).1 = v := by
    intro b hb hab
    have hp : s.place b = s.place a := by rw [place_of_ram hb, place_of_ram ha, hab]
    rw [busRead_busWrite hwf hp (by rw [place_of_ram ha]; rfl)]
  have blocks : ∀ k ∈ [0x0000#16, 0x0800#16, 0x1000#16, 0x1800#16], k ≤ 0x1FFF#16 ∧ k &&& 0x07FF#16 = 0#16 := by simp
  exact ⟨mirror, fun k hk => mirror _ (xor_le_1FFF ha (blocks k hk).1) (xor_and_07FF a (blocks k hk).2)⟩

/-- Settles O6: a read by its region and, in the port window, by `portRead`; a write by its region. -/
theorem busSideEffects : Obligations.BusSideEffects := by
  intro s a
  refine ⟨fun ro => busRead_snd a ro s, fun ro h => ⟨busRead_quiet h s, busRead_idempotent h s⟩, fun v => ?_, fun v h => ?_⟩
  · exact ⟨busWrite_state a v s, (Kept.busWrite a v s).cart, fun h => busWrite_ram h v s, fun h => busWrite_cart h v s⟩
  · exact busWrite_port h v s

/-- Settles O7: storage after a write, and the locations that discard one. -/
theorem readGivesMostRecentWrite : Obligations.ReadGivesMostRecentWrite := by
  intro s a b v hwf
  refine ⟨fun hp hk => ?_, fun hp => ?_, fun hk => busWrite_of_not_keeps hk v, memoriesWf_busWrite hwf a v⟩
  · rw [memRead, busRead_busWrite hwf hp hk]
  · rw [byteAt_busWrite hwf, if_neg (fun h => hp h.1)]

/-- Settles O10: each side is its memory at its mapped offset. -/
theorem cartridgeAccesses : Obligations.CartridgeAccesses := by
  intro c a b v hwf
  refine ⟨fun o ha ho => ⟨?_, ?_, fun hb => ?_⟩, fun h => ⟨?_, ?_⟩, fun o ha ho => ⟨?_, ?_, fun hb => ?_⟩, fun h => ⟨?_, ?_⟩, ?_, ?_⟩
  · rw [c.cpuRead_eq, ha, Memory.readAt_within _ ho]
  · rw [Cartridge.cpuRead_cpuWrite hwf ha ho, if_pos ha]
  · rw [Cartridge.cpuRead_cpuWrite hwf ha ho, if_neg hb]
  · rw [c.cpuRead_eq, Memory.readAt_beyond _ h]
  · rw [c.cpuWrite_eq, Memory.writeAt_beyond _ v h]
  · rw [c.ppuRead_eq, ha, Memory.readAt_within _ ho]
  · rw [Cartridge.ppuRead_ppuWrite hwf ha ho, if_pos ha]
  · rw [Cartridge.ppuRead_ppuWrite hwf ha ho, if_neg hb]
  · rw [c.ppuRead_eq, Memory.readAt_beyond _ h]
  · rw [c.ppuWrite_eq, Memory.writeAt_beyond _ v h]
  · rw [c.cpuWrite_eq]
  · rw [c.ppuWrite_eq]

/-- Settles O11: a file is parsed by `Cartridge.ofBody` when it is long enough, and is invalid otherwise. -/
theorem cartridgeParser : Obligations.CartridgeParser := by
  refine ⟨rfl, fun f => ?_⟩
  intro trainerBytes prgBytes chrBytes c
  have hc : c = if 16 + trainerBytes + prgBytes + chrBytes ≤ f.length then
      .ofBody (f.getD 4 0) (f.getD 5 0) (f.getD 6 0) (f.getD 7 0) (f.drop (16 + trainerBytes)) else .invalid :=
    Cartridge.ofFile_some f
  by_cases hlen : 16 + trainerBytes + prgBytes + chrBytes ≤ f.length
  · rw [if_pos hlen] at hc
    rw [hc]
    refine ⟨iff_of_true rfl hlen, fun _ => ⟨rfl, rfl, rfl, ?_, rfl, fun o ho => ?_, fun o ho => ?_, ?_, ?_⟩⟩
    · simp [Cartridge.ofBody]
    · exact (Memory.read_ofBytes _ o).trans (getD_take_drop f _ ho)
    · refine (Memory.read_ofBytes _ o).trans ?_
      rw [List.drop_drop]
      exact getD_take_drop f _ ho
    · exact Memory.wf_ofBytes _ (List.length_take_le _ _)
    · exact Memory.wf_ofBytes _ (List.length_take_le _ _)
  · rw [if_neg hlen] at hc
    rw [hc]
    exact ⟨iff_of_false nofun hlen, nofun⟩

/-- Settles O5: the low three bits of an address are its port number. -/
theorem portWindowSelectsPort : Obligations.PortWindowSelectsPort := by
  have reads : ∀ (s : State) (a : Word) (ro : Bool), isPort a = true →
      busRead a ro s = portRead (BitVec.ofNat 3 (a.toNat % 8)) ro s := fun s a ro h => by
    rw [busRead_port h, port_number]
  refine ⟨fun s a ro v hlo hhi => ?_, fun a ha s ro => ?_⟩
  · have hp : isPort a = true := (isPort_iff a).mpr ⟨hlo, hhi⟩
    exact ⟨reads s a ro hp, by rw [busWrite_port hp, port_number]⟩
  · have mirrors : ∀ a ∈ [0x2002#16, 0x200A#16, 0x3FFA#16], isPort a = true ∧ BitVec.ofNat 3 (a.toNat % 8) = 2#3 := by simp [isPort]
    obtain ⟨hp, hn⟩ := mirrors a ha
    rw [reads s a ro hp, hn]

/-- Settles O8: nothing lies behind such an address. -/
theorem unmappedReadsZeroAndDiscards : Obligations.UnmappedReadsZeroAndDiscards := by
  intro s a v ro h hu
  have hp : s.place a = .unmapped := place_unmapped h hu
  exact ⟨busRead_of_byteAt (by simp [byteAt_place, hp]) ro, busWrite_of_not_keeps (by rw [hp]; rfl) v⟩

/-- Settles O9: the masks are remainders. -/
theorem baselineMapperOffsets : Obligations.BaselineMapperOffsets := by
  intro c a
  refine ⟨?_, ?_, fun n => ⟨rfl, rfl⟩⟩
  · have h : ¬ a < 0x8000#16 ↔ 0x8000 ≤ a.toNat := Nat.not_lt
    rw [c.mapCpu_eq, ← ite_not]
    simp only [h]
  · simp only [Cartridge.mapPpu, le_1FFF_iff]
    rfl

/-- Settles O12: each refusal by the test that guards its action. -/
theorem insertCartridgeAndRefusals : Obligations.InsertCartridgeAndRefusals := by
  refine ⟨fun c s => ⟨fun hv hm => ?_, fun hv => ?_, fun hv hm => ?_⟩, fun s h => ⟨step_refused h, fun act hact => ?_⟩, fun s => ?_⟩
  · simp [hostAction, insertCartridge, hv, hm, State.setCart]
  · simp [hostAction, insertCartridge, hv]
  · simp [hostAction, insertCartridge, hv, hm]
  · simp only [List.mem_cons, List.not_mem_nil, or_false] at hact
    rcases hact with rfl | rfl | rfl | rfl
    · exact step_refused h
    all_goals exact afterReset_refused h _
  · rw [← paramsLegal_eq_false_iff]
    cases hl : paramsLegal s.params <;> simp [hostAction, hl]

end Sys2Proof.Machine
end

section
/-! PROOFS. The statements about the encoding (30_encoding): what decodes agrees with the cell of its opcode byte, and the bytes of
each instruction lead to its own cell, one case per shape of its bytes. -/

namespace Sys2Proof

open Sys2Proof.Machine (joinBytes loByte_joinBytes hiByte_joinBytes)

/-- The opcode byte of an instruction without operand bytes decodes to it. -/
theorem decode_implied {op : Byte} {i : Instr} (h : formOf op = .implied i) (rest : List Byte) :
    decode (op :: rest) = .ok i := by
  simp only [decode, h]

/-- Each well-formed instruction's opcode byte has a cell that gives it back from its operand bytes (30_encoding R101, R104). -/
theorem decode_encode_append {i : Instr} (h : i.wf = true) (rest : List Byte) : decode (encode i ++ rest) = .ok i := by
  cases i with
  | undef op => exact decode_undefined (List.contains_iff_mem.mp h) rest
  | lda m | adc m | sbc m | and m | ora m | eor m | cmp m =>
    cases m with
    | imm b | zp0 b | zpx b | izx b | izy b => apply decode_byte; rfl
    | abs w | abx w | aby w => apply decode_word; rfl
  | sta m =>
    cases m with
    | zp0 b | zpx b | izx b | izy b => apply decode_byte; rfl
    | abs w | abx w | aby w => apply decode_word; rfl
  | ldx m =>
    cases m with
    | imm b | zp0 b | zpy b => apply decode_byte; rfl
    | abs w | aby w => apply decode_word; rfl
  | ldy m =>
    cases m with
    | imm b | zp0 b | zpx b => apply decode_byte; rfl
    | abs w | abx w => apply decode_word; rfl
  | stx m =>
    cases m with
    | zp0 b | zpy b => apply decode_byte; rfl
    | abs w => apply decode_word; rfl
  | sty m =>
    cases m with
    | zp0 b | zpx b => apply decode_byte; rfl
    | abs w => apply decode_word; rfl
  | cpx m | cpy m =>
    cases m with
    | imm b | zp0 b => apply decode_byte; rfl
    | abs w => apply decode_word; rfl
  | bit m =>
    cases m with
    | zp0 b => apply decode_byte; rfl
    | abs w => apply decode_word; rfl
  | inc m | dec m =>
    cases m with
    | zp0 b | zpx b => apply decode_byte; rfl
    | abs w | abx w => apply decode_word; rfl
  | asl m | lsr m | rol m | ror m =>
    cases m with
    | acc => exact decode_implied rfl rest
    | zp0 b | zpx b => apply decode_byte; rfl
    | abs w | abx w => apply decode_word; rfl
  | jmp m =>
    cases m with
    | abs w | ind w => apply decode_word; rfl
  | jsr w => apply decode_word; rfl
  | bpl d | bmi d | bvc d | bvs d | bcc d | bcs d | bne d | beq d => apply decode_byte; rfl
  | brk => exact decode_implied rfl (0x00 :: rest)
  | tax | tay | txa | tya | tsx | txs | inx | iny | dex | dey | rts | rti | pha | php | pla | plp | clc | sec | cli | sei | clv
  | cld | sed | nop => exact decode_implied rfl rest

/-- A decoded instruction is well formed and encoded with the opcode byte it was decoded from; but for BRK, whose padding byte is
not read, its operand bytes are those that follow (30_encoding R104, R108; log 13). -/
theorem encode_of_decode {op : Byte} {rest : List Byte} {i : Instr} (h : decode (op :: rest) = .ok i) :
    i.wf = true ∧ ∃ tail, encode i = op :: tail ∧ (i ≠ .brk → tail <+: rest) := by
  have hcell := formOf_agrees op
  rcases decode_cases h with hf | ⟨hf, rfl⟩ | ⟨f, b, tail, hf, rfl, rfl⟩ | ⟨f, l, hi, tail, hf, rfl, rfl⟩ <;>
    rw [hf] at hcell
  · obtain ⟨hwf, ⟨rfl, rfl⟩ | ⟨-, henc⟩⟩ := hcell
    · exact ⟨hwf, [0x00], rfl, fun hne => absurd rfl hne⟩
    · exact ⟨hwf, [], henc, fun _ => List.nil_prefix⟩
  · exact ⟨List.contains_iff_mem.mpr hcell, [], rfl, fun _ => List.nil_prefix⟩
  · obtain ⟨hwf, -, henc⟩ := hcell b
    exact ⟨hwf, [b], henc, fun _ => ⟨tail, rfl⟩⟩
  · obtain ⟨hwf, -, henc⟩ := hcell (joinBytes hi l)
    rw [wordForm, loByte_joinBytes, hiByte_joinBytes] at henc
    exact ⟨hwf, [l, hi], henc, fun _ => ⟨tail, rfl⟩⟩

/-- No opcode byte is followed by more than two operand bytes (30_encoding R101). -/
theorem operandBytes_le_two (op : Byte) : operandBytes op ≤ 2 := by
  unfold operandBytes
  split <;> decide

/-- No opcode byte is rejected: with two bytes after it, it decodes (30_encoding R104, R107). -/
theorem exists_decode_eq_ok (op b c : Byte) : ∃ i, decode [op, b, c] = .ok i := by
  cases hf : formOf op with
  | implied i => exact ⟨i, decode_implied hf [b, c]⟩
  | byte f => exact ⟨f b, decode_byte hf b [c]⟩
  | word f => exact ⟨f (joinBytes c b), by simp only [decode, hf]⟩
  | undefined => exact ⟨.undef op, by simp only [decode, hf]⟩

/-- Settles O2: the bytes of an instruction lead to its own cell of the opcode map. -/
theorem decodeOfEncodeIsIdentity : Obligations.DecodeOfEncodeIsIdentity :=
  fun _ rest h => decode_encode_append h rest

/-- Settles O3: every form of a cell decodes from two bytes, and every cell agrees with the encoder. -/
theorem decodeIsTotalAndExact : Obligations.DecodeIsTotalAndExact := by
  refine ⟨fun op b c => ⟨operandBytes_le_two op, exists_decode_eq_ok op b c⟩, fun op rest i h => ?_⟩
  obtain ⟨hwf, tail, henc, htail⟩ := encode_of_decode h
  rw [henc]
  exact ⟨hwf, rfl, fun hne => List.cons_prefix_cons.mpr ⟨rfl, htail hne⟩⟩

/-- Settles O1: the cell of each opcode byte, applied to the operand bytes after it. -/
theorem sampleWordsDecode : Obligations.SampleWordsDecode :=
  ⟨rfl, rfl, rfl, rfl, rfl, rfl, rfl, rfl, rfl⟩

end Sys2Proof
end

section
/-! PROOFS. The statements about addressing modes, operands and jumps (40_dispatch R136 to R149; 44_control R229): the address arithmetic of
the modes as numbers, one equation for an operand read and one for a jump. -/

namespace Sys2Proof.Machine

open Sys2Proof

/-- An index added to a zero-page operand wraps within page 0 (40_dispatch R140, R141). -/
theorem zext16_add (z index : Byte) : zext16 (z + index) = BitVec.ofNat 16 ((z.toNat + index.toNat) % 256) := by
  rw [zext16_eq, BitVec.toNat_add]

/-- Indexing as numbers: the page cross is that of the high bytes (40_dispatch R145, R146). -/
theorem indexed_eq (base : Word) (index : Byte) (s : State) :
    indexed base index s =
      (decide (hiByte base ≠ hiByte (BitVec.ofNat 16 (base.toNat + index.toNat))),
        { s with ea := BitVec.ofNat 16 (base.toNat + index.toNat) }) := by
  simp only [indexed, add_zext16, pageOf_bne, ne_comm (a := hiByte base)]
  rfl

/-- An operand that is neither the accumulator nor an immediate is one processor read at the effective address (40_dispatch R136). -/
theorem operandRead_eq_memRead {mode : Operand} (hacc : mode ≠ .acc) (himm : ∀ i, mode ≠ .imm i) (s : State) :
    operandRead mode s = memRead (operandAddr mode s) (resolve mode s).2 := by
  cases mode with
  | acc => exact absurd rfl hacc
  | imm i => exact absurd rfl (himm i)
  | _ => rfl

/-- Resolving a mode changes no storage. -/
theorem keepsMemory_resolve (mode : Operand) (s : State) : KeepsMemory s (resolve mode s).2 :=
  keepsMemory_same (resolve_ram mode s) (resolve_cart mode s)

/-- JMP goes to the effective address of its mode and changes nothing beside what the mode does (44_control R229). -/
theorem exec_jmp (m : JmpOperand) (s : State) :
    exec (.jmp m) s = .next { (resolve m.operand s).2 with pc := operandAddr m.operand s, cyc := m.cycles } := by
  simp only [exec, execJmp, runOp_eq, Bool.and_false]
  rfl

/-- The indirect mode where both bytes of the pointer are storage (40_dispatch R147). -/
theorem resolve_ind_of_byteAt {s : State} {ptr : Word} {l h : Byte} (hl : s.byteAt ptr = some l)
    (hh : s.byteAt (joinBytes (hiByte ptr) (loByte ptr + 1#8)) = some h) :
    resolve (.ind ptr) s = (false, s.setEa (joinBytes h l)) := by
  rw [← samePageNext_eq] at hh
  simp only [resolve, memReadPair_of_byteAt hl hh]

/-- Settles O13: each mode's arithmetic as numbers. -/
theorem directModeAddresses : Obligations.DirectModeAddresses := by
  intro s z d i w
  refine ⟨rfl, rfl, rfl, ?_, ?_, ?_, ?_, rfl, indexed_eq w s.x s, indexed_eq w s.y s⟩
  · rw [← zext16_eq]; rfl
  · rw [← zext16_add]; rfl
  · rw [← zext16_add]; rfl
  · rw [← add_sext16]; rfl

/-- Settles O14: both pointer bytes lie in page 0, at addresses taken modulo 256. -/
theorem zeroPagePointerModes : Obligations.ZeroPagePointerModes := by
  intro s z at0 px py
  have pointer : ∀ base : Byte, zeroPagePointer base s = (joinBytes (at0 (base.toNat + 1)) (at0 base.toNat), s) := fun base => by
    have hmod : base.toNat % 256 = base.toNat := Nat.mod_eq_of_lt base.isLt
    simp only [zeroPagePointer_eq, BitVec.toNat_add, at0, hmod]
    rfl
  have hx : zeroPagePointer (z + s.x) s = (px, s) := by
    rw [pointer, BitVec.toNat_add]
    simp only [at0, px, Nat.mod_add_mod, Nat.mod_mod]
  constructor
  · simp only [resolve, hx]
    rfl
  · simp only [resolve, pointer, indexed, pageOf_bne, ne_eq, pageOf_eq_iff]
    rfl

/-- Settles O15: no storage changes up to the read, so it gives the byte that stood at the address before. -/
theorem operandIsTheByteAtTheAddress : Obligations.OperandIsTheByteAtTheAddress := by
  intro s
  refine ⟨rfl, fun i => rfl, fun mode => ⟨?_, fun hacc himm => ?_⟩⟩
  · rw [operandRead_afterRead]
    exact keepsMemory_afterRead s mode
  · have hread := operandRead_eq_memRead hacc himm s
    refine ⟨hread, fun v hv => ?_⟩
    rw [← keepsMemory_resolve mode s] at hv
    rw [hread, memRead, busRead_of_byteAt hv]

/-- Settles O16: the jump's equation at each of its two modes, and for every pointer what a mode may change. -/
theorem jumpTargets : Obligations.JumpTargets := by
  refine ⟨fun s w => exec_jmp (.abs w) s, fun s ptr l h hl hh => ?_, fun s w => ?_⟩
  · simp only [exec_jmp, JmpOperand.operand, operandAddr, resolve_ind_of_byteAt hl hh]
    rfl
  · have hstate : EaPortOnly s (resolve (.ind w) s).2 := resolve_state (.ind w) s
    refine ⟨_, exec_jmp (.ind w) s, rfl, rfl, keepsMemory_same (resolve_ram _ s) (resolve_cart _ s), ?_⟩
    unfold EaPortOnly at hstate
    simp only [JmpOperand.operand]
    rw [hstate]

end Sys2Proof.Machine
end

section
/-! PROOFS. The statement about the countdown (40_dispatch R134, R135; 30_encoding R104; 70_reset R321): each instruction has a base count
and a bound on what it adds to it; an instruction's countdown lies between them, and they are those of the two tables. -/

namespace Sys2Proof

open Sys2Proof.Machine (baseCycleTable extraCycleTable defaultUndefCycles lookupParam undefCycles paramsLegal)

/-- The cycles a mode's page cross can add (40_dispatch R134). -/
def Operand.crossCycles : Operand → Nat
  | .abx _ | .aby _ | .izy _ => 1
  | .imp | .acc | .imm _ | .zp0 _ | .zpx _ | .zpy _ | .rel _ | .abs _ | .ind _ | .izx _ => 0

/-- The base count of an instruction (30_encoding R104). -/
def Instr.baseCycles (params : Config.Params) : Instr → Nat
  | .lda m | .adc m | .sbc m | .and m | .ora m | .eor m | .cmp m => m.cycles
  | .ldx m => m.cycles
  | .ldy m => m.cycles
  | .sta m => m.cycles
  | .stx m => m.cycles
  | .sty m => m.cycles
  | .bit m => m.cycles
  | .cpx m | .cpy m => m.cycles
  | .inc m | .dec m => m.cycles
  | .asl m | .lsr m | .rol m | .ror m => m.cycles
  | .jmp m => m.cycles
  | .undef op => undefCycles params op
  | .brk => 7
  | .jsr _ | .rts | .rti => 6
  | .pla | .plp => 4
  | .pha | .php => 3
  | .bpl _ | .bmi _ | .bvc _ | .bvs _ | .bcc _ | .bcs _ | .bne _ | .beq _ => 2
  | .tax | .tay | .txa | .tya | .tsx | .txs | .inx | .iny | .dex | .dey => 2
  | .clc | .sec | .cli | .sei | .clv | .cld | .sed | .nop => 2

/-- The most cycles an instruction can add to its base count: a page cross of a read, or a taken branch (40_dispatch R134, R135;
44_control R220). -/
def Instr.extraCycles : Instr → Nat
  | .lda m | .adc m | .sbc m | .and m | .ora m | .eor m | .cmp m => m.operand.crossCycles
  | .ldx m => m.operand.crossCycles
  | .ldy m => m.operand.crossCycles
  | .bpl _ | .bmi _ | .bvc _ | .bvs _ | .bcc _ | .bcs _ | .bne _ | .beq _ => 2
  | _ => 0

/-- The two tables at an undefined opcode: its default count, and nothing beyond it (30_encoding R104, R111). -/
theorem cycleTables_undefined {op : Byte} (h : op ∈ undefinedOpcodes) :
    baseCycleTable.getD op.toNat 0 = defaultUndefCycles op ∧ extraCycleTable.getD op.toNat 0 = 0 := by
  have hbase : (undefinedOpcodes.all fun o => baseCycleTable.getD o.toNat 0 == defaultUndefCycles o) = true := by decide
  have hextra : (undefinedOpcodes.all fun o => extraCycleTable.getD o.toNat 0 == 0) = true := by decide
  exact ⟨beq_iff_eq.mp (List.all_eq_true.mp hbase op h), beq_iff_eq.mp (List.all_eq_true.mp hextra op h)⟩

/-- The two tables at the opcode byte of a well-formed instruction are its base count, with default parameters, and the bound on what
it adds (30_encoding R104). -/
theorem cycleTables_encode {i : Instr} (h : i.wf = true) :
    baseCycleTable.getD ((encode i).headD 0).toNat 0 = i.baseCycles Config.defaultParams ∧
    extraCycleTable.getD ((encode i).headD 0).toNat 0 = i.extraCycles := by
  cases i with
  | undef op => exact cycleTables_undefined (List.contains_iff_mem.mp h)
  | lda m | adc m | sbc m | and m | ora m | eor m | cmp m => cases m <;> exact ⟨rfl, rfl⟩
  | ldx m => cases m <;> exact ⟨rfl, rfl⟩
  | ldy m => cases m <;> exact ⟨rfl, rfl⟩
  | sta m => cases m <;> exact ⟨rfl, rfl⟩
  | stx m => cases m <;> exact ⟨rfl, rfl⟩
  | sty m => cases m <;> exact ⟨rfl, rfl⟩
  | bit m => cases m <;> exact ⟨rfl, rfl⟩
  | cpx m | cpy m => cases m <;> exact ⟨rfl, rfl⟩
  | inc m | dec m => cases m <;> exact ⟨rfl, rfl⟩
  | asl m | lsr m | rol m | ror m => cases m <;> exact ⟨rfl, rfl⟩
  | jmp m => cases m <;> exact ⟨rfl, rfl⟩
  | _ => exact ⟨rfl, rfl⟩

/-- What holds of a parameter's default and of all its entries holds of its value. -/
theorem lookupParam_of_all {P : Nat → Prop} (op : Byte) {default : Nat} {entries : List (Byte × Nat)} (hdefault : P default)
    (hentries : ∀ e ∈ entries, P e.2) : P (lookupParam op default entries) := by
  induction entries with
  | nil => exact hdefault
  | cons e rest ih =>
    obtain ⟨he, hrest⟩ := List.forall_mem_cons.mp hentries
    rw [lookupParam]
    split
    · exact he
    · exact ih hrest

/-- Every default of UNDEF_CYCLES is at least 1 (30_encoding R111). -/
theorem one_le_defaultUndefCycles (op : Byte) : 1 ≤ defaultUndefCycles op := by
  unfold defaultUndefCycles
  repeat' split
  all_goals decide

/-- UNDEF_CYCLES is at least 1 where the parameters are legal (70_reset R321). -/
theorem one_le_undefCycles {params : Config.Params} (h : paramsLegal params = true) (op : Byte) : 1 ≤ undefCycles params op := by
  simp only [paramsLegal, Bool.and_eq_true, List.all_eq_true, decide_eq_true_eq] at h
  obtain ⟨⟨⟨⟨-, hcycles⟩, -⟩, -⟩, -⟩ := h
  exact lookupParam_of_all op (one_le_defaultUndefCycles op) hcycles

/-- Every base count is at least 1 where the parameters are legal (70_reset R321). -/
theorem one_le_baseCycles {params : Config.Params} (h : paramsLegal params = true) (i : Instr) : 1 ≤ i.baseCycles params := by
  cases i with
  | undef op => exact one_le_undefCycles h op
  | lda m | adc m | sbc m | and m | ora m | eor m | cmp m => cases m <;> exact Nat.succ_pos _
  | ldx m => cases m <;> exact Nat.succ_pos _
  | ldy m => cases m <;> exact Nat.succ_pos _
  | sta m => cases m <;> exact Nat.succ_pos _
  | stx m => cases m <;> exact Nat.succ_pos _
  | sty m => cases m <;> exact Nat.succ_pos _
  | bit m => cases m <;> exact Nat.succ_pos _
  | cpx m | cpy m => cases m <;> exact Nat.succ_pos _
  | inc m | dec m => cases m <;> exact Nat.succ_pos _
  | asl m | lsr m | rol m | ror m => cases m <;> exact Nat.succ_pos _
  | jmp m => cases m <;> exact Nat.succ_pos _
  | _ => exact Nat.succ_pos _

end Sys2Proof

namespace Sys2Proof.Machine

open Sys2Proof

/-- An instruction answers a next state whose countdown is between a base count and that count plus some extra cycles. -/
def CountsWithin (base extra : Nat) (o : Host.Outcome State Fault Refusal) : Prop :=
  ∃ t, o = .next t ∧ base ≤ t.cyc ∧ t.cyc ≤ base + extra

/-- Only the indexed modes that can leave their page signal a page cross (40_dispatch R137 to R149). -/
theorem pageCrossed_le (mode : Operand) (s : State) : (pageCrossed mode s).toNat ≤ mode.crossCycles := by
  cases mode with
  | abx w | aby w | izy z => exact Bool.toNat_le _
  | _ => exact Nat.le_refl 0

/-- An operation with the extra-cycle signal: the base count and at most the page-cross cycle of its mode (40_dispatch R134). -/
theorem runOp_counts_crossing (base : Nat) (mode : Operand) {effect : State → State} (h : ∀ t, (effect t).cyc = t.cyc) (s : State) :
    CountsWithin base mode.crossCycles (runOp base mode true effect s) := by
  obtain ⟨t, ht, hcyc⟩ := runOp_cyc base mode true h s
  have hcross := pageCrossed_le mode s
  rw [Bool.and_true] at hcyc
  exact ⟨t, ht, by omega, by omega⟩

/-- An operation without the extra-cycle signal: the base count (40_dispatch R134). -/
theorem runOp_counts_fixed (base : Nat) (mode : Operand) {effect : State → State} (h : ∀ t, (effect t).cyc = t.cyc) (s : State) :
    CountsWithin base 0 (runOp base mode false effect s) := by
  obtain ⟨t, ht, hcyc⟩ := runOp_cyc base mode false h s
  rw [Bool.and_false] at hcyc
  exact ⟨t, ht, Nat.le_of_eq hcyc.symm, Nat.le_of_eq hcyc⟩

/-- A branch: 2 cycles, and when taken 1 more, or 2 on a page cross (44_control R220). -/
theorem runOp_counts_branch (d : Byte) (cond : Byte → Bool) (s : State) :
    CountsWithin 2 2 (runOp 2 (.rel d) false (fun t => branchIf (cond t.p) t) s) := by
  rw [runOp_branch]
  refine ⟨_, rfl, ?_⟩
  cases cond s.p with
  | false => exact ⟨Nat.le_refl 2, Nat.le_add_right 2 2⟩
  | true =>
    have hcross := Bool.toNat_le (decide (hiByte (s.pc + sext16 d) ≠ hiByte s.pc))
    simp only [if_true, State.setCyc_cyc]
    omega

theorem enterTrap_cyc (returnAddr : Word) (pushedP newP : Byte) (vector : Word) (s : State) :
    (enterTrap returnAddr pushedP newP vector s).cyc = s.cyc := by
  simp [enterTrap]

/-- Every instruction takes its base count and at most the extra cycles it allows (40_dispatch R130, R134, R135). -/
theorem exec_counts (i : Instr) (s : State) : CountsWithin (i.baseCycles s.params) i.extraCycles (exec i s) := by
  cases i with
  | lda m | ldx m | ldy m | adc m | sbc m | and m | ora m | eor m | cmp m =>
    refine runOp_counts_crossing _ _ (withOperand_cyc _ ?_) s
    exact fun _ _ => rfl
  | bit m | cpx m | cpy m =>
    refine runOp_counts_fixed _ _ (withOperand_cyc _ ?_) s
    exact fun _ _ => rfl
  | inc m | dec m | asl m | lsr m | rol m | ror m => exact runOp_counts_fixed _ _ (modifyOperand_cyc _ _) s
  | sta m | stx m | sty m =>
    refine runOp_counts_fixed _ _ (fun t => ?_) s
    exact busWrite_cyc _ _ t
  | bpl d => exact runOp_counts_branch d (fun p => !getFlag .N p) s
  | bmi d => exact runOp_counts_branch d (getFlag .N) s
  | bvc d => exact runOp_counts_branch d (fun p => !getFlag .V p) s
  | bvs d => exact runOp_counts_branch d (getFlag .V) s
  | bcc d => exact runOp_counts_branch d (fun p => !getFlag .C p) s
  | bcs d => exact runOp_counts_branch d (getFlag .C) s
  | bne d => exact runOp_counts_branch d (fun p => !getFlag .Z p) s
  | beq d => exact runOp_counts_branch d (getFlag .Z) s
  | txs =>
    show CountsWithin 2 0 (execTxs s)
    refine runOp_counts_fixed _ _ ?_ s
    exact fun _ => rfl
  | jmp m =>
    show CountsWithin m.cycles 0 (execJmp m s)
    refine runOp_counts_fixed _ _ ?_ s
    exact fun _ => rfl
  | undef op =>
    show CountsWithin (undefCycles s.params op) 0 (execUndef op s)
    refine runOp_counts_fixed _ _ ?_ s
    exact fun _ => rfl
  | brk =>
    show CountsWithin 7 0 (execBrk s)
    refine runOp_counts_fixed _ _ (fun t => ?_) s
    exact enterTrap_cyc (t.pc + 1#16) _ _ irqVector t
  | jsr target =>
    show CountsWithin 6 0 (execJsr target s)
    refine runOp_counts_fixed _ _ (fun t => ?_) s
    simp only [State.setPc_cyc, pushWord_cyc]
  | rts =>
    show CountsWithin 6 0 (execRts s)
    refine runOp_counts_fixed _ _ (fun t => ?_) s
    simp only [State.setPc_cyc, pullWord_cyc]
  | rti =>
    show CountsWithin 6 0 (execRti s)
    refine runOp_counts_fixed _ _ (fun t => ?_) s
    rw [returnFromTrap_eq]
  | pha =>
    show CountsWithin 3 0 (execPha s)
    refine runOp_counts_fixed _ _ (fun t => ?_) s
    exact push_cyc _ t
  | php =>
    show CountsWithin 3 0 (execPhp s)
    refine runOp_counts_fixed _ _ (fun t => ?_) s
    exact push_cyc _ t
  | pla =>
    show CountsWithin 4 0 (execPla s)
    refine runOp_counts_fixed _ _ (fun t => ?_) s
    simp only [putZN, State.mapP, State.setP_cyc, State.setA_cyc, pull_cyc]
  | plp =>
    show CountsWithin 4 0 (execPlp s)
    refine runOp_counts_fixed _ _ (fun t => ?_) s
    simp only [State.setP_cyc, pull_cyc]
  | _ =>
    refine runOp_counts_fixed _ _ ?_ s
    exact fun _ => rfl

/-- Settles O41: the counts of the decoded instruction are those of the tables at its opcode byte, and at least 1. -/
theorem cycleCountsFollowTheOpcodeMap : Obligations.CycleCountsFollowTheOpcodeMap := by
  refine ⟨fun op b c i s hi hparams => ?_, fun i s hlegal => ?_⟩
  · obtain ⟨hwf, tail, henc, -⟩ := encode_of_decode hi
    obtain ⟨hbase, hextra⟩ := cycleTables_encode hwf
    rw [henc, List.headD_cons] at hbase hextra
    rw [hbase, hextra, ← hparams]
    exact exec_counts i s
  · obtain ⟨t, ht, hle, -⟩ := exec_counts i s
    exact ⟨t, ht, Nat.le_trans (one_le_baseCycles hlegal i) hle⟩

end Sys2Proof.Machine
end

section
/-! PROOFS. The statements about fetching and about a step with and without a fetch (40_dispatch R130, R133; 60_exceptions R280): a read
does not depend on `opcode` and `pc`, so each byte of an instruction is read on the state its reads before it leave. -/

namespace Sys2Proof.Machine

open Sys2Proof

/-- The opcode register and PC play no part in a bus read. -/
theorem busRead_setPc_setOpcode (addr : Word) (ro : Bool) (s : State) (pc : Word) (op : Byte) :
    busRead addr ro ((s.setPc pc).setOpcode op) =
      ((busRead addr ro s).1, ((busRead addr ro s).2.setPc pc).setOpcode op) := by
  cases h : isPort addr with
  | true =>
    rw [busRead_port h, busRead_port h]
    cases ro with
    | true => rfl
    | false =>
      simp only [portRead, Bool.false_eq_true, if_false]
      split <;> rfl
  | false =>
    obtain ⟨v, hv, hr⟩ := busRead_storage h ro s
    rw [hr]
    exact busRead_of_byteAt (s := (s.setPc pc).setOpcode op) hv ro

/-- A byte is fetched by a processor read at PC, which then advances (40_dispatch R133). -/
theorem fetchByte_eq (s : State) : fetchByte s = ((memRead s.pc s).1, (memRead s.pc s).2.setPc (s.pc + 1#16)) := by
  simp only [fetchByte, memRead_pc]

/-- A byte fetched on a state whose PC and opcode register have been written. -/
theorem fetchByte_setPc_setOpcode (s : State) (pc : Word) (op : Byte) :
    fetchByte ((s.setPc pc).setOpcode op) = ((memRead pc s).1, ((memRead pc s).2.setPc (pc + 1#16)).setOpcode op) := by
  simp only [fetchByte_eq, memRead, State.setOpcode_pc, State.setPc_pc, busRead_setPc_setOpcode]
  rfl

/-- Settles O43: one case per form of the cell of the opcode byte read at PC. -/
theorem fetchReadsThroughTheBus : Obligations.FetchReadsThroughTheBus := by
  intro s r0 r1 r2
  have hop : fetchByte s = (r0.1, r0.2.setPc (s.pc + 1#16)) := fetchByte_eq s
  have hlow : fetchByte ((r0.2.setPc (s.pc + 1#16)).setOpcode r0.1) = (r1.1, (r1.2.setPc (s.pc + 2#16)).setOpcode r0.1) := by
    rw [fetchByte_setPc_setOpcode, BitVec.add_assoc]
    rfl
  have hhigh : fetchByte ((r1.2.setPc (s.pc + 2#16)).setOpcode r0.1) = (r2.1, (r2.2.setPc (s.pc + 3#16)).setOpcode r0.1) := by
    rw [fetchByte_setPc_setOpcode, BitVec.add_assoc]
    rfl
  cases hf : formOf r0.1 with
  | implied i =>
    have hn : operandBytes r0.1 = 0 := by simp only [operandBytes, hf]
    have hfetch : fetch s = (i, (r0.2.setPc (s.pc + 1#16)).setOpcode r0.1) := by simp only [fetch, hop, hf]
    rw [hfetch, hn]
    exact ⟨decode_implied hf _, fun _ => rfl, nofun, nofun⟩
  | undefined =>
    have hn : operandBytes r0.1 = 0 := by simp only [operandBytes, hf]
    have hfetch : fetch s = (.undef r0.1, (r0.2.setPc (s.pc + 1#16)).setOpcode r0.1) := by simp only [fetch, hop, hf]
    rw [hfetch, hn]
    exact ⟨by simp only [decode, hf], fun _ => rfl, nofun, nofun⟩
  | byte f =>
    have hn : operandBytes r0.1 = 1 := by simp only [operandBytes, hf]
    have hfetch : fetch s = (f r1.1, (r1.2.setPc (s.pc + 2#16)).setOpcode r0.1) := by simp only [fetch, hop, hf, hlow]
    rw [hfetch, hn]
    exact ⟨decode_byte hf _ _, nofun, fun _ => rfl, nofun⟩
  | word f =>
    have hn : operandBytes r0.1 = 2 := by simp only [operandBytes, hf]
    have hfetch : fetch s = (f (joinBytes r2.1 r1.1), (r2.2.setPc (s.pc + 3#16)).setOpcode r0.1) := by
      simp only [fetch, hop, hf, hlow, hhigh]
    rw [hfetch, hn]
    exact ⟨by simp only [decode, hf], nofun, nofun, fun _ => rfl⟩

/-- Settles O42: the fetching case of a bus clock, whose fetch reads the bytes of storage at PC. -/
theorem stepRunsDecodedInstruction : Obligations.StepRunsDecodedInstruction := by
  intro s b0 b1 b2 i hreset hcyc hphase h0 h1 h2 hi
  have hbyte : ∀ addr, (ppuClock s).byteAt addr = s.byteAt addr := byteAt_same (ppuClock_ram s) (ppuClock_cart s)
  have hfetch : fetch (ppuClock s) =
      (i, { ppuClock s with opcode := b0, pc := s.pc + 1#16 + BitVec.ofNat 16 (operandBytes b0) }) := by
    rw [← ppuClock_pc s, ← hbyte] at h0 h1 h2
    rw [fetch_of_byteAt h0 h1 h2 hi, ppuClock_pc]
    rfl
  rcases busClock_cases s with ⟨hne, -⟩ | ⟨-, hne, -⟩ | ⟨-, -, t, ht, -, hb⟩
  · exact absurd hphase hne
  · exact absurd hcyc hne
  · rw [hfetch] at ht
    exact ⟨t, ht, (step_busClock hreset).trans hb⟩

/-- Settles O44: the two cases of a bus clock that fetch nothing. -/
theorem stepBetweenBoundaries : Obligations.StepBetweenBoundaries := by
  intro s hreset
  have hstep := step_busClock hreset
  refine ⟨fun hphase => ?_, fun hphase hcyc => ?_⟩
  · rcases busClock_cases s with ⟨-, hb⟩ | ⟨heq, -⟩ | ⟨heq, -⟩
    · rw [hstep, hb, ← ppuClock_busCtr s]
      rfl
    · exact absurd heq hphase
    · exact absurd heq hphase
  · rcases busClock_cases s with ⟨hne, -⟩ | ⟨-, -, hb⟩ | ⟨-, hzero, -⟩
    · exact absurd hphase hne
    · rw [hstep, hb, ← ppuClock_busCtr s, ← ppuClock_cyc s, ← ppuClock_clockCount s]
      rfl
    · exact absurd hzero (Nat.ne_of_gt hcyc)

end Sys2Proof.Machine
end

section
/-! PROOFS. The statements about loads, stores and transfers (41_load_store R160 to R172): a load is one operand read, a store one bus
write at the mode's address, and an implied operation its effect alone. -/

namespace Sys2Proof.Machine

open Sys2Proof

/-- An implied operation is its effect, with the countdown at its base count (40_dispatch R137). -/
theorem runOp_imp (base : Nat) (pageCross : Bool) (effect : State → State) (s : State) :
    runOp base .imp pageCross effect s = .next (effect (s.setCyc base)) := rfl

/-- `setZN` gives the status byte that a statement about Z and N asks for (00_scope R10). -/
theorem exists_status_setZN {v p : Byte} {result : Byte → Prop} (h : result (setZN v p)) :
    ∃ q, ZNOf v q ∧ FlagsKept [.Z, .N] p q ∧ result q :=
  ⟨setZN v p, setZN_zn v p, setZN_kept v p, h⟩

/-- A load puts the operand into its register and sets Z and N, after the operand read and nothing else (41_load_store R160). -/
theorem runOp_load (base : Nat) (mode : Operand) {put : State → Byte → State}
    (hput : ∀ t v n, put (t.setCyc n) v = (put t v).setCyc n) (s : State) :
    runOp base mode true (withOperand mode (putZN put)) s =
      .next ((putZN put (operandRead mode s).1 (s.afterRead mode)).setCyc (base + (pageCrossed mode s).toNat)) := by
  simp only [runOp_withOperand, putZN, hput, Bool.and_true]
  rfl

/-- A mode of STA writes `ea` and nothing else (40_dispatch R140 to R149). -/
theorem resolve_staOperand (m : StaOperand) (s : State) :
    (resolve m.operand s).2 = s.setEa (operandAddr m.operand s) := by
  have hind : ∀ ptr, m.operand ≠ .ind ptr := by cases m <;> exact nofun
  rcases resolve_ea_only m.operand s hind with himp | hacc | h
  · cases m <;> cases himp
  · cases m <;> cases hacc
  · exact h

/-- A mode of STX writes `ea` and nothing else; none of them reads a pointer. -/
theorem resolve_stxOperand (m : StxOperand) (s : State) :
    (resolve m.operand s).2 = s.setEa (operandAddr m.operand s) := by
  cases m <;> rfl

/-- A mode of STY writes `ea` and nothing else; none of them reads a pointer. -/
theorem resolve_styOperand (m : StyOperand) (s : State) :
    (resolve m.operand s).2 = s.setEa (operandAddr m.operand s) := by
  cases m <;> rfl

/-- A store leaves the state of one bus write, and the stored byte is the only change of storage (41_load_store R164 to R166). -/
theorem runOp_store_storesOnly (base : Nat) (mode : Operand) (reg : State → Byte) (s : State)
    (hmode : (resolve mode s).2 = s.setEa (operandAddr mode s))
    (hreg : reg ((s.setEa (operandAddr mode s)).setCyc base) = reg s) :
    ∃ t, runOp base mode false (fun t => busWrite t.ea (reg t) t) s = .next t ∧
      t = { busWrite (operandAddr mode s) (reg s) s with ea := operandAddr mode s, cyc := base } ∧
      StoresOnly (operandAddr mode s) (reg s) s t :=
  ⟨_, runOp_store base mode reg s hmode hreg, rfl, storesOnly_same rfl rfl⟩

/-- Settles O17: each load is `runOp_load` at its register, and the operand read changes no storage. -/
theorem loadsPutOperandInRegister : Obligations.LoadsPutOperandInRegister := by
  refine ⟨fun m s => exists_status_setZN ⟨keepsMemory_afterRead s m.operand, ?_⟩,
    fun m s => exists_status_setZN ⟨keepsMemory_afterRead s m.operand, ?_⟩,
    fun m s => exists_status_setZN ⟨keepsMemory_afterRead s m.operand, ?_⟩⟩
  · exact runOp_load m.cycles m.operand (put := State.setA) (fun _ _ _ => rfl) s
  · exact runOp_load m.cycles m.operand (put := State.setX) (fun _ _ _ => rfl) s
  · exact runOp_load m.cycles m.operand (put := State.setY) (fun _ _ _ => rfl) s

/-- Settles O18: each store is one bus write of its register at the address its mode gives. -/
theorem storesWriteRegister : Obligations.StoresWriteRegister :=
  ⟨fun m s => runOp_store_storesOnly m.cycles m.operand State.a s (resolve_staOperand m s) rfl,
    fun m s => runOp_store_storesOnly m.cycles m.operand State.x s (resolve_stxOperand m s) rfl,
    fun m s => runOp_store_storesOnly m.cycles m.operand State.y s (resolve_styOperand m s) rfl⟩

/-- Settles O19: each transfer is implied, and `putZN` of its source. -/
theorem transfersCopyAndSetZN : Obligations.TransfersCopyAndSetZN := by
  refine ⟨rfl, rfl, rfl, rfl, rfl, fun s => ⟨?tax, ?tay, ?txa, ?tya, ?tsx⟩⟩
  case tax => exact exists_status_setZN (runOp_imp 2 false (fun t => putZN State.setX t.a t) s)
  case tay => exact exists_status_setZN (runOp_imp 2 false (fun t => putZN State.setY t.a t) s)
  case txa => exact exists_status_setZN (runOp_imp 2 false (fun t => putZN State.setA t.x t) s)
  case tya => exact exists_status_setZN (runOp_imp 2 false (fun t => putZN State.setA t.y t) s)
  case tsx => exact exists_status_setZN (runOp_imp 2 false (fun t => putZN State.setX t.sp t) s)

/-- Settles O20: TXS is the implied copy of X to SP, NOP the implied operation without an effect. -/
theorem txsAndNopWriteNoFlag : Obligations.TxsAndNopWriteNoFlag :=
  fun s => ⟨runOp_imp 2 false (fun t => t.setSp t.x) s, runOp_imp 2 false id s⟩

end Sys2Proof.Machine
end

section
/-! PROOFS. The statements about arithmetic, logic, compares, increments and decrements (42_arith_logic R180 to R196): one operand read,
then an effect on registers and status; SBC is the adder's arithmetic on the one's complement. -/

namespace Sys2Proof.Machine

open Sys2Proof

/-! One operand read, then an effect that does not look at the countdown. -/

/-- An operation that takes the page-cross cycle (40_dispatch R134, R135). -/
theorem runOp_withOperand_crossing (base : Nat) (mode : Operand) {f : Byte → State → State}
    (hf : ∀ v t n, f v (t.setCyc n) = (f v t).setCyc n) (s : State) :
    runOp base mode true (withOperand mode f) s =
      .next ((f (operandRead mode s).1 (s.afterRead mode)).setCyc (base + (pageCrossed mode s).toNat)) := by
  simp only [runOp_withOperand, hf, Bool.and_true]
  rfl

/-- An operation that takes its base count whatever the mode signals (40_dispatch R134, R135). -/
theorem runOp_withOperand_fixed (base : Nat) (mode : Operand) {f : Byte → State → State}
    (hf : ∀ v t n, f v (t.setCyc n) = (f v t).setCyc n) (s : State) :
    runOp base mode false (withOperand mode f) s =
      .next ((f (operandRead mode s).1 (s.afterRead mode)).setCyc base) := by
  simp only [runOp_withOperand, hf, Bool.and_false]
  rfl

/-! The adder on the one's complement of the operand is a subtraction with borrow (42_arith_logic R182). -/

/-- The difference as a number. -/
theorem addWithCarry_complement_toNat (a m p : Byte) :
    ((addWithCarry a (m ^^^ 0xFF#8) p).1.toNat : Int) =
      ((a.toNat : Int) - m.toNat - (!getFlag .C p).toNat) % 256 := by
  have hm := m.isLt
  rw [addWithCarry_toNat, complement_toNat]
  cases getFlag .C p <;> simp only [Bool.not_true, Bool.not_false, Bool.toNat_true, Bool.toNat_false] <;> omega

/-- C says that no borrow occurred. -/
theorem addWithCarry_complement_C (a m p : Byte) :
    getFlag .C (addWithCarry a (m ^^^ 0xFF#8) p).2 = decide (m.toNat + (!getFlag .C p).toNat ≤ a.toNat) := by
  have hm := m.isLt
  rw [addWithCarry_C, complement_toNat, decide_eq_decide]
  cases getFlag .C p <;> simp only [Bool.not_true, Bool.not_false, Bool.toNat_true, Bool.toNat_false] <;> omega

/-- V says that the signed difference does not fit. -/
theorem addWithCarry_complement_V (a m p : Byte) :
    getFlag .V (addWithCarry a (m ^^^ 0xFF#8) p).2 =
      decide (a.toInt - m.toInt - (!getFlag .C p).toInt ≠ (addWithCarry a (m ^^^ 0xFF#8) p).1.toInt) := by
  rw [addWithCarry_V, complement_toInt, decide_eq_decide]
  cases getFlag .C p <;> simp only [Bool.not_true, Bool.not_false, Bool.toInt_true, Bool.toInt_false] <;> omega

/-! The status bytes and results the statements ask for. -/

/-- `compareFlags` gives the status byte that a statement about a compare asks for (42_arith_logic R187). -/
theorem exists_status_compareFlags {reg m p : Byte} {result : Byte → Prop} (h : result (compareFlags reg m p)) :
    ∃ q, getFlag .C q = decide (m.toNat ≤ reg.toNat) ∧ getFlag .Z q = decide (reg = m) ∧ getFlag .N q = (reg - m).msb ∧
      FlagsKept [.C, .Z, .N] p q ∧ result q :=
  have ⟨hC, hZ, hN⟩ := compareFlags_czn reg m p
  ⟨compareFlags reg m p, hC, hZ, hN, compareFlags_kept reg m p, h⟩

/-- `setZN` gives the status byte for a result named by its number. -/
theorem exists_result_setZN {r p : Byte} {n : Nat} {result : Byte → Byte → Prop} (hr : r.toNat = n)
    (h : result (setZN r p) r) :
    ∃ q r, r.toNat = n ∧ ZNOf r q ∧ FlagsKept [.Z, .N] p q ∧ result q r :=
  ⟨setZN r p, r, hr, setZN_zn r p, setZN_kept r p, h⟩

theorem byte_sub_one_toNat (b : Byte) : (b - 1#8).toNat = (b.toNat + 255) % 256 :=
  (BitVec.toNat_sub b 1#8).trans (congrArg (· % 256) (Nat.add_comm 255 b.toNat))

/-! Read-modify-write of memory. -/

/-- A read-modify-write that writes no flag but Z and N: one read, one store of the result, and nothing else (42_arith_logic R190). -/
theorem runOp_modify_setZN {mode : Operand} (hmode : mode ≠ .acc) (base : Nat) (g : Byte → Byte) (s : State) :
    let r := g (operandRead mode s).1
    let ea := operandAddr mode s
    ∃ q t, ZNOf r q ∧ FlagsKept [.Z, .N] s.p q ∧
      runOp base mode false (modifyOperand mode (fun v p => (g v, p))) s = .next t ∧
      t = { busWrite ea r (s.afterRead mode) with p := q, cyc := base } ∧ StoresOnly ea r s t :=
  ⟨_, _, setZN_zn _ _, setZN_kept _ _, runOp_modify hmode base (fun v p => (g v, p)) s, rfl,
    storesOnly_modify mode _ _ _ base s⟩

theorem incOperand_ne_acc (m : IncOperand) : m.operand ≠ .acc := by cases m <;> exact nofun

/-- Settles O21: ADC is the adder on the byte read, whose four flags the laws of `addWithCarry` give. -/
theorem adcAddsInBinary : Obligations.AdcAddsInBinary := fun m s =>
  ⟨_, _, addWithCarry_toNat s.a (operandRead m.operand s).1 s.p, addWithCarry_C _ _ _, addWithCarry_V _ _ _,
    addWithCarry_zn _ _ _, addWithCarry_kept _ _ _, keepsMemory_afterRead s m.operand,
    runOp_withOperand_crossing m.cycles m.operand (f := addToA) (fun _ _ _ => rfl) s⟩

/-- Settles O22: SBC is the adder on the one's complement of the byte read, which is the subtraction with borrow. -/
theorem sbcSubtractsInBinary : Obligations.SbcSubtractsInBinary := fun m s =>
  ⟨_, _, addWithCarry_complement_toNat s.a (operandRead m.operand s).1 s.p, addWithCarry_complement_C _ _ _,
    addWithCarry_complement_V _ _ _, addWithCarry_zn _ _ _, addWithCarry_kept _ _ _, keepsMemory_afterRead s m.operand,
    runOp_withOperand_crossing m.cycles m.operand (f := fun v => addToA (v ^^^ 0xFF#8)) (fun _ _ _ => rfl) s⟩

/-- Settles O23: each logical operation puts its result into A by `putZN`, after the operand read and nothing else. -/
theorem logicalOperations : Obligations.LogicalOperations := by
  refine fun m s => ⟨keepsMemory_afterRead s m.operand, exists_status_setZN ?and, exists_status_setZN ?ora,
    exists_status_setZN ?eor⟩
  case and =>
    exact runOp_withOperand_crossing m.cycles m.operand (f := fun v t => putZN State.setA (t.a &&& v) t) (fun _ _ _ => rfl) s
  case ora =>
    exact runOp_withOperand_crossing m.cycles m.operand (f := fun v t => putZN State.setA (t.a ||| v) t) (fun _ _ _ => rfl) s
  case eor =>
    exact runOp_withOperand_crossing m.cycles m.operand (f := fun v t => putZN State.setA (t.a ^^^ v) t) (fun _ _ _ => rfl) s

/-- Settles O24: BIT maps P through `bitFlags` after the operand read, and nothing else. -/
theorem bitTestsOperand : Obligations.BitTestsOperand := fun m s =>
  have ⟨hZ, hN, hV⟩ := bitFlags_znv s.a (operandRead m.operand s).1 s.p
  ⟨_, hZ, hN, hV, bitFlags_kept _ _ _, keepsMemory_afterRead s m.operand,
    runOp_withOperand_fixed m.cycles m.operand (f := fun v t => t.mapP (bitFlags t.a v)) (fun _ _ _ => rfl) s⟩

/-- Settles O25: each compare maps P through `compareFlags` of its register; CMP alone takes the page-cross cycle. -/
theorem comparesWriteCZN : Obligations.ComparesWriteCZN := by
  refine ⟨fun m s => exists_status_compareFlags ⟨keepsMemory_afterRead s m.operand, ?cmp⟩,
    fun m s => exists_status_compareFlags ⟨keepsMemory_afterRead s m.operand, ?cpx⟩,
    fun m s => exists_status_compareFlags ⟨keepsMemory_afterRead s m.operand, ?cpy⟩⟩
  case cmp =>
    exact runOp_withOperand_crossing m.cycles m.operand (f := fun v t => t.mapP (compareFlags t.a v)) (fun _ _ _ => rfl) s
  case cpx =>
    exact runOp_withOperand_fixed m.cycles m.operand (f := fun v t => t.mapP (compareFlags t.x v)) (fun _ _ _ => rfl) s
  case cpy =>
    exact runOp_withOperand_fixed m.cycles m.operand (f := fun v t => t.mapP (compareFlags t.y v)) (fun _ _ _ => rfl) s

/-- Settles O26: INC and DEC are the read-modify-write that adds or subtracts one. -/
theorem incDecModifyMemory : Obligations.IncDecModifyMemory := fun m s =>
  ⟨runOp_modify_setZN (incOperand_ne_acc m) m.cycles (· + 1#8) s, runOp_modify_setZN (incOperand_ne_acc m) m.cycles (· - 1#8) s⟩

/-- Settles O27: each is implied, and `putZN` of its index register plus or minus one. -/
theorem indexIncrementDecrement : Obligations.IndexIncrementDecrement := by
  refine ⟨rfl, rfl, rfl, rfl, fun s => ⟨exists_result_setZN (BitVec.toNat_add s.x 1#8) ?inx,
    exists_result_setZN (BitVec.toNat_add s.y 1#8) ?iny, exists_result_setZN (byte_sub_one_toNat s.x) ?dex,
    exists_result_setZN (byte_sub_one_toNat s.y) ?dey⟩⟩
  case inx => exact runOp_imp 2 false (fun t => putZN State.setX (t.x + 1#8) t) s
  case iny => exact runOp_imp 2 false (fun t => putZN State.setY (t.y + 1#8) t) s
  case dex => exact runOp_imp 2 false (fun t => putZN State.setX (t.x - 1#8) t) s
  case dey => exact runOp_imp 2 false (fun t => putZN State.setY (t.y - 1#8) t) s

end Sys2Proof.Machine
end

section
/-! PROOFS. The statements about shifts and rotates (43_shift_rotate R210 to R214): each is a read-modify-write whose operation gives the
result and a status with the bit shifted out in C; the accumulator forms use the bits of the result, the memory forms its arithmetic. -/

namespace Sys2Proof.Machine

open Sys2Proof

/-! The results, bit by bit. -/

theorem byte_shiftLeft_one_getLsbD (v : Byte) {i : Nat} (hi : i < 8) :
    (v <<< 1).getLsbD i = (decide (1 ≤ i) && v.getLsbD (i - 1)) := by
  rw [BitVec.getLsbD_shiftLeft, decide_eq_true hi, Bool.true_and, ← decide_not, decide_eq_decide.mpr Nat.not_lt]

theorem byte_ushiftRight_one_getLsbD (v : Byte) {i : Nat} (hi : i < 8) :
    (v >>> 1).getLsbD i = (decide (i < 7) && v.getLsbD (i + 1)) := by
  rw [BitVec.getLsbD_ushiftRight, Nat.add_comm]
  by_cases h : i < 7
  · rw [decide_eq_true h, Bool.true_and]
  · rw [decide_eq_false h, Bool.false_and, BitVec.getLsbD_of_ge v (i + 1) (by omega)]

/-- The byte that brings C into a rotate has at most the one bit C enters at, bit `k`. -/
theorem carryIn_getLsbD {k : Nat} (hk : k < 8) (c : Bool) (i : Nat) :
    (if c then BitVec.twoPow 8 k else 0#8).getLsbD i = (c && decide (i = k)) := by
  cases c
  · exact BitVec.getLsbD_zero
  · simp [hk, eq_comm]

/-- ROL: C enters bit 0 (43_shift_rotate R213). -/
theorem rolByte_getLsbD (v p : Byte) {i : Nat} (hi : i < 8) :
    (rolByte v p).1.getLsbD i = if i = 0 then getFlag .C p else v.getLsbD (i - 1) := by
  have hc : (if getFlag .C p then 0x01#8 else 0x00#8).getLsbD i = _ := carryIn_getLsbD (k := 0) (by decide) (getFlag .C p) i
  rw [rolByte, BitVec.getLsbD_or, byte_shiftLeft_one_getLsbD v hi, hc]
  by_cases h : i = 0
  · simp [h]
  · simp [h, Nat.one_le_iff_ne_zero]

/-- ROR: C enters bit 7 (43_shift_rotate R214). -/
theorem rorByte_getLsbD (v p : Byte) {i : Nat} (hi : i < 8) :
    (rorByte v p).1.getLsbD i = if i = 7 then getFlag .C p else v.getLsbD (i + 1) := by
  have hc : (if getFlag .C p then 0x80#8 else 0x00#8).getLsbD i = _ := carryIn_getLsbD (k := 7) (by decide) (getFlag .C p) i
  rw [rorByte, BitVec.getLsbD_or, byte_ushiftRight_one_getLsbD v hi, hc]
  by_cases h : i = 7
  · simp [h]
  · have hlt : i < 7 := by omega
    simp [h, hlt]

/-! The status: the bit shifted out in C (43_shift_rotate R210). -/

theorem aslByte_status (v p : Byte) : (aslByte v p).2 = putFlag .C (v.getLsbD 7) p :=
  congrArg (putFlag .C · p) (BitVec.msb_eq_getLsbD_last v)

theorem lsrByte_status (v p : Byte) : (lsrByte v p).2 = putFlag .C (v.getLsbD 0) p := rfl

theorem rolByte_status (v p : Byte) : (rolByte v p).2 = putFlag .C (v.getLsbD 7) p :=
  congrArg (putFlag .C · p) (BitVec.msb_eq_getLsbD_last v)

theorem rorByte_status (v p : Byte) : (rorByte v p).2 = putFlag .C (v.getLsbD 0) p := rfl

/-- The flags of a shift: C from the operation, then Z and N of the result. -/
theorem setZN_putFlag_C (r : Byte) (out : Bool) (p : Byte) :
    getFlag .C (setZN r (putFlag .C out p)) = out ∧ ZNOf r (setZN r (putFlag .C out p)) ∧
      FlagsKept [.C, .Z, .N] p (setZN r (putFlag .C out p)) :=
  ⟨(setZN_kept r _ .C (by decide)).trans (getFlag_putFlag_self .C out p), setZN_zn r _, setZN_of_kept (putFlag_kept .C out p)⟩

/-! The two forms of a shift, for any operation that writes C alone. -/

/-- On the accumulator: A, P and the countdown are all that changes. -/
theorem runOp_shift_acc (base : Nat) {f : Byte → Byte → Byte × Byte} {s : State} {out : Bool}
    (hstatus : (f s.a s.p).2 = putFlag .C out s.p) {result : Byte → Prop} (hresult : result (f s.a s.p).1) :
    ∃ q r, result r ∧ getFlag .C q = out ∧ ZNOf r q ∧ FlagsKept [.C, .Z, .N] s.p q ∧
      runOp base .acc false (modifyOperand .acc f) s = .next { s with a := r, p := q, cyc := base } := by
  obtain ⟨hC, hZN, hkept⟩ := setZN_putFlag_C (f s.a s.p).1 out s.p
  rw [← hstatus] at hC hZN hkept
  exact ⟨_, _, hresult, hC, hZN, hkept, rfl⟩

/-- On memory: one read, one store of the result at the mode's address, and nothing else. -/
theorem runOp_shift_mem {mode : Operand} (hmode : mode ≠ .acc) (base : Nat) {f : Byte → Byte → Byte × Byte} {s : State} {out : Bool}
    {r : Byte} (hstatus : (f (operandRead mode s).1 s.p).2 = putFlag .C out s.p) (hresult : (f (operandRead mode s).1 s.p).1 = r) :
    ∃ q t, getFlag .C q = out ∧ ZNOf r q ∧ FlagsKept [.C, .Z, .N] s.p q ∧
      runOp base mode false (modifyOperand mode f) s = .next t ∧
      t = { busWrite (operandAddr mode s) r (s.afterRead mode) with p := q, cyc := base } ∧
      StoresOnly (operandAddr mode s) r s t := by
  have ⟨hC, hZN, hkept⟩ := setZN_putFlag_C r out s.p
  have hrun := runOp_modify hmode base f s
  simp only [hstatus, hresult] at hrun
  exact ⟨_, _, hC, hZN, hkept, hrun, rfl, storesOnly_modify mode _ r _ base s⟩

theorem shiftOperand_ne_acc {m : ShiftOperand} (h : m ≠ .acc) : m.operand ≠ .acc := by
  cases m with
  | acc => exact absurd rfl h
  | zp0 z | zpx z | abs w | abx w => exact nofun

/-- Settles O28: each is the accumulator's read-modify-write, with its result bit by bit. -/
theorem shiftsOfTheAccumulator : Obligations.ShiftsOfTheAccumulator := fun s =>
  ⟨runOp_shift_acc 2 (aslByte_status s.a s.p) fun _ => byte_shiftLeft_one_getLsbD s.a,
    runOp_shift_acc 2 (lsrByte_status s.a s.p) fun _ => byte_ushiftRight_one_getLsbD s.a,
    runOp_shift_acc 2 (rolByte_status s.a s.p) fun _ => rolByte_getLsbD s.a s.p,
    runOp_shift_acc 2 (rorByte_status s.a s.p) fun _ => rorByte_getLsbD s.a s.p⟩

/-- Settles O29: each is memory's read-modify-write, with the rotates' results as sums. -/
theorem shiftsOfMemory : Obligations.ShiftsOfMemory := by
  intro m s hm v ea c
  have hmode := shiftOperand_ne_acc hm
  obtain ⟨q, t, hrol⟩ := runOp_shift_mem hmode m.cycles (rolByte_status v s.p) (rolByte_eq v s.p)
  obtain ⟨q', t', hror⟩ := runOp_shift_mem hmode m.cycles (rorByte_status v s.p) (rorByte_eq v s.p)
  exact ⟨runOp_shift_mem hmode m.cycles (aslByte_status v s.p) rfl, runOp_shift_mem hmode m.cycles (lsrByte_status v s.p) rfl,
    ⟨q, _, t, rfl, hrol⟩, ⟨q', _, t', rfl, hror⟩⟩

end Sys2Proof.Machine
end

section
/-! PROOFS. The statements about branches, subroutines, BRK and RTI (44_control R220 to R233): one lemma for the eight branches, one
equation each for JSR, RTS, BRK and RTI, and what the stack gives back. -/

namespace Sys2Proof.Machine

open Sys2Proof

/-- A branch whose condition is that a flag has a value: both of its outcomes (44_control R220, decision D4). -/
theorem runOp_branch_flag (d : Byte) {cond : Byte → Bool} {f : Flag} {b : Bool} {s : State}
    (hcond : cond s.p = true ↔ getFlag f s.p = b) :
    let target := BitVec.ofInt 16 (s.pc.toNat + d.toInt)
    (getFlag f s.p = b → runOp 2 (.rel d) false (fun t => branchIf (cond t.p) t) s =
      .next { s with pc := target, ea := target, cyc := if hiByte target = hiByte s.pc then 3 else 4 }) ∧
    (getFlag f s.p ≠ b → runOp 2 (.rel d) false (fun t => branchIf (cond t.p) t) s = .next { s with ea := target, cyc := 2 }) := by
  intro target
  simp only [runOp_branch, add_sext16]
  refine ⟨fun h => ?taken, fun h => ?notTaken⟩
  case taken =>
    have hcyc : 3 + (decide (hiByte target ≠ hiByte s.pc)).toNat = if hiByte target = hiByte s.pc then 3 else 4 := by
      by_cases hpage : hiByte target = hiByte s.pc <;> simp [hpage]
    rw [if_pos (hcond.mpr h), hcyc]
    rfl
  case notTaken =>
    rw [if_neg (mt hcond.mp h)]
    rfl

/-! The equations of the four instructions that use the stack. -/

/-- JSR pushes the address before PC, which is that of its last byte, and jumps (44_control R231). -/
theorem exec_jsr (target : Word) (s : State) :
    exec (.jsr target) s =
      .next { s with
              ram := (s.ram.write (stackOffset s.sp) (hiByte (s.pc - 1#16))).write (stackOffset (s.sp - 1#8)) (loByte (s.pc - 1#16))
              sp := s.sp - 2#8, pc := target, ea := target, cyc := 6 } := by
  simp only [exec, execJsr, runOp_eq, pushWord_eq, sub_two, Bool.and_false]
  rfl

/-- RTS goes to the address after the word it pulls (44_control R232). -/
theorem exec_rts (s : State) :
    exec .rts s =
      .next { s with
              pc := joinBytes (s.ram.read (stackOffset (s.sp + 2#8))) (s.ram.read (stackOffset (s.sp + 1#8))) + 1#16
              sp := s.sp + 2#8, cyc := 6 } := by
  simp only [exec, execRts, runOp_imp, pullWord_eq, State.setCyc_sp, add_two]
  rfl

/-- BRK takes the trap through the IRQ/BRK vector, which lies outside RAM (44_control R230, decision D6). -/
theorem exec_brk {s : State} {l h : Byte} (hl : s.byteAt 0xFFFE#16 = some l) (hh : s.byteAt 0xFFFF#16 = some h) :
    exec .brk s =
      .next { s with
              ram := ((s.ram.write (stackOffset s.sp) (hiByte (s.pc + 1#16))).write (stackOffset (s.sp - 1#8))
                (loByte (s.pc + 1#16))).write (stackOffset (s.sp - 2#8)) (pushedStatus s.p)
              sp := s.sp - 3#8, p := putFlag .I true s.p, pc := joinBytes h l, cyc := 7 } := by
  have htrap := enterTrap_eq (s := s.setCyc 7) (vector := irqVector) (s.pc + 1#16) (pushedStatus s.p) (putFlag .I true s.p)
    (by decide) (by decide) hl hh
  simp only [exec, execBrk, runOp_imp]
  exact congrArg Host.Outcome.next htrap

/-- RTI is the return from a trap (44_control R233). -/
theorem exec_rti (s : State) :
    exec .rti s =
      .next { s with
              p := pulledStatus (s.ram.read (stackOffset (s.sp + 1#8)))
              pc := joinBytes (s.ram.read (stackOffset (s.sp + 3#8))) (s.ram.read (stackOffset (s.sp + 2#8)))
              sp := s.sp + 3#8, cyc := 6 } :=
  (runOp_imp 6 false _ s).trans (congrArg _ (returnFromTrap_eq (s.setCyc 6)))

/-! The two bytes of a pushed word. -/

theorem stackOffset_pred_ne (sp : Byte) : stackOffset sp ≠ stackOffset (sp - 1#8) := fun h => by
  have hone : sp - 1#8 = sp - 0#8 := (stackOffset_inj h).symm.trans (BitVec.sub_zero sp).symm
  exact absurd ((BitVec.sub_right_inj sp).mp hone) (by decide)

/-- Two writes into RAM keep every other byte. -/
theorem read_write_two {m : Memory} (hwf : Memory.wf 2048 m = true) {a b o : Nat} (u v : Byte) (ha : a < 2048) (ho : o ∉ [a, b]) :
    ((m.write a u).write b v).read o = m.read o := by
  simp only [List.mem_cons, List.not_mem_nil, or_false, not_or] at ho
  obtain ⟨hoa, hob⟩ := ho
  rw [Memory.read_write (lo := 0) _ _ _ _ (Memory.wf_write m a u hwf ha), if_neg hob, Memory.read_write (lo := 0) _ _ _ _ hwf,
    if_neg hoa]

/-- The two bytes a call pushed, read back from below (44_control R231, R232). -/
theorem read_pushed_two {s : State} (hwf : s.memoriesWf = true) (u v : Byte) :
    let m := (s.ram.write (stackOffset s.sp) u).write (stackOffset (s.sp - 1#8)) v
    m.read (stackOffset (s.sp - 2#8 + 1#8)) = v ∧ m.read (stackOffset (s.sp - 2#8 + 2#8)) = u := by
  have hram := memoriesWf_ram hwf
  have hupper := fun j => Memory.read_write (lo := 0) s.ram (stackOffset s.sp) j u hram
  have hlower := fun j => Memory.read_write (lo := 0) _ (stackOffset (s.sp - 1#8)) j v
    (Memory.wf_write s.ram _ u hram (stackOffset_lt s.sp))
  have hsp : s.sp - 2#8 + 1#8 = s.sp - 1#8 := by rw [← sub_two, BitVec.sub_add_cancel]
  rw [hsp, BitVec.sub_add_cancel]
  exact ⟨by rw [hlower, if_pos rfl], by rw [hlower, if_neg (stackOffset_pred_ne s.sp), hupper, if_pos rfl]⟩

/-- Pulling the status that BRK pushed gives every flag back but B and U (44_control R233, decision D2). -/
theorem pulledStatus_pushedStatus (p : Byte) : FlagsKept [.B, .U] p (pulledStatus (pushedStatus p)) := by
  intro f hf
  simp only [List.mem_cons, List.not_mem_nil, or_false, not_or] at hf
  obtain ⟨hB, hU⟩ := hf
  simp [getFlag_pulledStatus, getFlag_pushedStatus, hB, hU]

/-- Settles O30: `runOp_branch_flag` at each branch's flag, which the branch asks to be set or clear. -/
theorem branchesFollowTheirFlag : Obligations.BranchesFollowTheirFlag := by
  have hclear : ∀ {b : Bool}, (!b) = true ↔ b = false := Bool.not_eq_true' _ |>.to_iff
  intro d s target
  simp only [List.forall_mem_cons, List.not_mem_nil, false_imp_iff, implies_true, and_true]
  refine ⟨?bpl, ?bmi, ?bvc, ?bvs, ?bcc, ?bcs, ?bne, ?beq⟩
  case bpl => exact runOp_branch_flag d (cond := fun p => !getFlag .N p) hclear
  case bmi => exact runOp_branch_flag d (cond := getFlag .N) Iff.rfl
  case bvc => exact runOp_branch_flag d (cond := fun p => !getFlag .V p) hclear
  case bvs => exact runOp_branch_flag d (cond := getFlag .V) Iff.rfl
  case bcc => exact runOp_branch_flag d (cond := fun p => !getFlag .C p) hclear
  case bcs => exact runOp_branch_flag d (cond := getFlag .C) Iff.rfl
  case bne => exact runOp_branch_flag d (cond := fun p => !getFlag .Z p) hclear
  case beq => exact runOp_branch_flag d (cond := getFlag .Z) Iff.rfl

/-- Settles O31: the equations of JSR and RTS, and the frame of JSR's two pushes. -/
theorem subroutineCallAndReturn : Obligations.SubroutineCallAndReturn := fun s target =>
  ⟨⟨_, exec_jsr target s, rfl, keepsMemoryBut_ram rfl fun hwf _ ho =>
    read_write_two (memoriesWf_ram hwf) _ _ (stackOffset_lt s.sp) ho⟩, exec_rts s⟩

/-- Settles O32: RTS reads the two bytes JSR pushed, and the address after their word is JSR's PC. -/
theorem returnUndoesCall : Obligations.ReturnUndoesCall := by
  intro s t u target hwf hjsr hrts
  obtain rfl := Host.Outcome.next.inj ((exec_jsr target s).symm.trans hjsr)
  obtain rfl := Host.Outcome.next.inj ((exec_rts _).symm.trans hrts)
  obtain ⟨hlow, hhigh⟩ := read_pushed_two hwf (hiByte (s.pc - 1#16)) (loByte (s.pc - 1#16))
  simp only [hlow, hhigh, joinBytes_hi_lo, and_true]
  exact ⟨BitVec.sub_add_cancel .., BitVec.sub_add_cancel ..⟩

/-- Settles O33: the equation of BRK, and the frame of its three pushes. -/
theorem brkTakesTheTrap : Obligations.BrkTakesTheTrap := fun s _ _ hl hh =>
  ⟨_, _, getFlag_putFlag_self .I true s.p, putFlag_kept .I true s.p, exec_brk hl hh, rfl, keepsMemoryBut_ram rfl fun hwf _ ho =>
    read_write_three (memoriesWf_ram hwf) _ _ _ (stackOffset_lt s.sp) (stackOffset_lt _) ho⟩

/-- Settles O34: the equation of RTI, with the pulled status flag by flag. -/
theorem rtiRestoresStatusAndPc : Obligations.RtiRestoresStatusAndPc := fun s =>
  ⟨_, fun f => getFlag_pulledStatus f _, exec_rti s⟩

/-- Settles O35: RTI reads the three bytes BRK pushed; the vector is always storage, so BRK's equation applies. -/
theorem rtiUndoesBrk : Obligations.RtiUndoesBrk := by
  intro s t u hwf hbrk hrti
  obtain ⟨l, hl⟩ := byteAt_storage (addr := 0xFFFE#16) (by decide) s
  obtain ⟨h, hh⟩ := byteAt_storage (addr := 0xFFFF#16) (by decide) s
  obtain rfl := Host.Outcome.next.inj ((exec_brk hl hh).symm.trans hbrk)
  obtain rfl := Host.Outcome.next.inj ((exec_rti _).symm.trans hrti)
  obtain ⟨hstatus, hlow, hhigh⟩ := read_pushed_three hwf (hiByte (s.pc + 1#16)) (loByte (s.pc + 1#16)) (pushedStatus s.p)
  simp only [hstatus, hlow, hhigh, joinBytes_hi_lo, true_and]
  exact ⟨BitVec.sub_add_cancel .., pulledStatus_pushedStatus s.p, getFlag_pulledStatus .B _, getFlag_pulledStatus .U _⟩

end Sys2Proof.Machine
end

section
/-! PROOFS. The statements about the stack, the flag instructions and the undefined opcodes (45_stack_flag_misc R240 to R253): a stack
access is one to RAM in page 1, a push and a pull each have one equation, and every other instruction is its effect alone. -/

namespace Sys2Proof.Machine

open Sys2Proof

/-! Stack accesses: the stack lies in page 1 of RAM (00_scope R11, 20_memory R68). -/

theorem busWrite_stackAddr (sp v : Byte) (s : State) :
    busWrite (stackAddr sp) v s = s.setRam (s.ram.write (stackOffset sp) v) := by
  rw [busWrite_place, place_stackAddr]
  rfl

theorem memRead_stackAddr (sp : Byte) (s : State) : memRead (stackAddr sp) s = (s.ram.read (stackOffset sp), s) := by
  refine busRead_of_byteAt ?_ false
  rw [byteAt_place, place_stackAddr]
  rfl

theorem push_eq_busWrite (v : Byte) (s : State) : push v s = { busWrite (stackAddr s.sp) v s with sp := s.sp - 1#8 } := by
  rw [push_eq, busWrite_stackAddr]
  rfl

theorem pull_eq_memRead (s : State) :
    pull s = ((memRead (stackAddr (s.sp + 1#8)) s).1, { s with sp := s.sp + 1#8 }) := by
  rw [pull_eq, memRead_stackAddr]
  rfl

/-- Three pushes write from the stack address of SP downwards, modulo 256 (45_stack_flag_misc R252). -/
theorem push_push_push_eq_busWrite (u v w : Byte) (s : State) :
    push w (push v (push u s)) =
      { busWrite (stackAddr (s.sp - 1#8 - 1#8)) w (busWrite (stackAddr (s.sp - 1#8)) v (busWrite (stackAddr s.sp) u s)) with
        sp := s.sp - 1#8 - 1#8 - 1#8 } := by
  simp only [push_eq, busWrite_stackAddr]
  rfl

theorem stackAddr_mem_pageOne (sp : Byte) : 0x0100#16 ≤ stackAddr sp ∧ stackAddr sp ≤ 0x01FF#16 := by
  have hlt := sp.isLt
  simp only [BitVec.le_def, stackAddr_toNat, BitVec.toNat_ofNat]
  omega

/-! The instructions, as equations. -/

/-- An implied push: the byte in RAM at the stack offset, SP one less, and every other byte of storage as before
(45_stack_flag_misc R240, R241). -/
theorem runOp_push (base : Nat) {value : State → Byte} {s : State} (hvalue : value (s.setCyc base) = value s) :
    ∃ t, runOp base .imp false (fun t => push (value t) t) s = .next t ∧
      t = { s with ram := s.ram.write (stackOffset s.sp) (value s), sp := s.sp - 1#8, cyc := base } ∧
      KeepsMemoryBut [stackOffset s.sp] s t := by
  refine ⟨_, ?run, rfl, keepsMemoryBut_ram rfl fun hwf o ho => ?frame⟩
  case run =>
    rw [runOp_imp, hvalue, push_eq]
    rfl
  case frame =>
    rw [Memory.read_write (lo := 0) _ _ _ _ (memoriesWf_ram hwf), if_neg (mt List.mem_singleton.mpr ho)]

/-- PLA loads A as a load does (45_stack_flag_misc R242). -/
theorem exec_pla (s : State) :
    let v := s.ram.read (stackOffset (s.sp + 1#8))
    exec .pla s = .next { s with a := v, p := setZN v s.p, sp := s.sp + 1#8, cyc := 4 } := by
  simp only [exec, execPla, runOp_imp, pull_eq]
  rfl

/-- PLP loads P as RTI does (45_stack_flag_misc R243, decision D2). -/
theorem exec_plp (s : State) :
    exec .plp s =
      .next { s with p := pulledStatus (s.ram.read (stackOffset (s.sp + 1#8))), sp := s.sp + 1#8, cyc := 4 } := by
  simp only [exec, execPlp, runOp_imp, pull_eq]
  rfl

/-- A flag instruction (45_stack_flag_misc R244 to R250). -/
theorem runOp_putFlag (base : Nat) (f : Flag) (b : Bool) (s : State) :
    ∃ q, getFlag f q = b ∧ FlagsKept [f] s.p q ∧
      runOp base .imp false (State.mapP (putFlag f b)) s = .next { s with p := q, cyc := base } :=
  ⟨_, getFlag_putFlag_self f b s.p, putFlag_kept f b s.p, runOp_imp base false _ s⟩

/-- The placeholder of an undefined opcode (45_stack_flag_misc R253, decision D5). -/
theorem exec_undef (op : Byte) (s : State) :
    exec (.undef op) s =
      .next { s with pc := s.pc + BitVec.ofNat 16 (undefLen s.params op - 1), cyc := undefCycles s.params op } :=
  runOp_imp (undefCycles s.params op) false (fun t => t.setPc (t.pc + BitVec.ofNat 16 (undefLen t.params op - 1))) s

/-- With default parameters an undefined opcode takes its default count and skips no byte (30_encoding R107, R111). -/
theorem exec_undef_default {s : State} (h : s.params = Config.defaultParams) (op : Byte) :
    exec (.undef op) s = .next { s with cyc := defaultUndefCycles op } := by
  have hlen : undefLen s.params op = 1 := by rw [h]; rfl
  have hcyc : undefCycles s.params op = defaultUndefCycles op := by rw [h]; rfl
  rw [exec_undef, hlen, hcyc, Nat.sub_self, BitVec.add_zero]

/-- Settles O36: PHA is the push of A, PLA the equation of its pull. -/
theorem accumulatorPushAndPull : Obligations.AccumulatorPushAndPull :=
  ⟨rfl, rfl, fun s => ⟨runOp_push 3 (value := State.a) rfl, exists_status_setZN (exec_pla s)⟩⟩

/-- Settles O37: PHP is the push of the status byte with B and U set, PLP the equation of its pull. -/
theorem statusPushAndPull : Obligations.StatusPushAndPull := by
  intro s
  obtain ⟨t, hrun, hstate, hframe⟩ := runOp_push 3 (value := fun t => pushedStatus t.p) (s := s) rfl
  exact ⟨⟨t, _, hrun, fun f => getFlag_pushedStatus f s.p, hstate, hframe⟩,
    ⟨_, fun f => getFlag_pulledStatus f _, exec_plp s⟩⟩

/-- Settles O39: the equation of the placeholder, and the cycle table at an undefined opcode. -/
theorem undefinedOpcodesAreNoOps : Obligations.UndefinedOpcodesAreNoOps := by
  refine fun op s hop => ⟨exec_undef op s, fun hparams => ?_⟩
  rw [exec_undef_default hparams, (cycleTables_undefined hop).1]

/-- Settles O40: pushes and pulls at each stack pointer, whose arithmetic wraps. -/
theorem stackWrapsInPageOne : Obligations.StackWrapsInPageOne := by
  refine ⟨fun s v hsp => ?push, fun s hsp => ?pull, fun s u v w hsp => ?three, stackAddr_mem_pageOne⟩
  case push =>
    rw [push_eq_busWrite, hsp]
    rfl
  case pull =>
    rw [pull_eq_memRead, hsp]
    rfl
  case three =>
    rw [push_push_push_eq_busWrite, hsp]
    rfl

/-- Settles O38: `runOp_putFlag` at each instruction's flag and value. -/
theorem flagInstructionsWriteOneFlag : Obligations.FlagInstructionsWriteOneFlag := by
  intro s
  simp only [List.forall_mem_cons, List.not_mem_nil, false_imp_iff, implies_true, and_true]
  exact ⟨runOp_putFlag 2 .C false s, runOp_putFlag 2 .C true s, runOp_putFlag 2 .I false s, runOp_putFlag 2 .I true s,
    runOp_putFlag 2 .V false s, runOp_putFlag 2 .D false s, runOp_putFlag 2 .D true s⟩

end Sys2Proof.Machine
end

section
/-! PROOFS. The statements about the two clocks (60_exceptions R270, R280 to R294, R303): a step always goes on, what it makes of the
clock count and the stub, and the stub's frame as a count of ticks. -/

namespace Sys2Proof.Machine

open Sys2Proof

/-! A run never stops. -/

/-- Progress and its preservation: after the first bus reset a step answers a state that is again one after it (60_exceptions R303). -/
theorem step_progress {s : State} (h : s.hasReset = true) : ∃ t, step s = .next t ∧ t.hasReset = true := by
  obtain ⟨t, ht⟩ := step_answers h
  obtain ⟨-, -, -, -, -, hreset, -, -, -⟩ := step_kept ht
  exact ⟨t, ht, hreset.trans h⟩

theorem run_answers (k : Nat) {s : State} (h : s.hasReset = true) : ∃ t, Host.Core.run Sys2Proof.core k s = .next t := by
  induction k generalizing s with
  | zero => exact ⟨s, rfl⟩
  | succ k ih =>
    obtain ⟨u, hu, hreset⟩ := step_progress h
    rw [run_next hu]
    exact ih hreset

/-- Settles O55: every instruction answers, every step makes progress, and a run is steps, by induction on their number. -/
theorem neverStopsTicking : Obligations.NeverStopsTicking :=
  ⟨fun i s => (exec_kept i s).imp fun _ => And.left, fun _ => step_progress, fun k _ => run_answers k⟩

/-! What a step makes of the clock count and of the stub. -/

/-- A step ticks the processor when the ratio counter is at CPU_PHASE, and not otherwise (60_exceptions R280). -/
theorem step_clockCount {s t : State} (h : step s = .next t) :
    t.clockCount = s.clockCount + if s.busCtr = s.params.cpuPhase then 1 else 0 := by
  obtain ⟨-, hb⟩ := step_next h
  rw [← ppuClock_clockCount s]
  rcases busClock_cases s with ⟨hne, he⟩ | ⟨heq, -, he⟩ | ⟨heq, -, u, -, hk, he⟩
  · obtain rfl := Host.Outcome.next.inj (he.symm.trans hb)
    rw [if_neg hne]
    rfl
  · obtain rfl := Host.Outcome.next.inj (he.symm.trans hb)
    rw [if_pos heq]
    rfl
  · obtain rfl := Host.Outcome.next.inj (he.symm.trans hb)
    rw [if_pos heq]
    exact congrArg (· + 1) (hk.clockCount.trans (fetch_kept (ppuClock s)).clockCount)

/-- Two states whose stubs have the same counters and frame flag. -/
def SameStub (s t : State) : Prop :=
  t.ppuCycle = s.ppuCycle ∧ t.ppuScanline = s.ppuScanline ∧ t.frameComplete = s.frameComplete

theorem SameStub.trans {s t u : State} : SameStub s t → SameStub t u → SameStub s u
  | ⟨hcycle, hscanline, hframe⟩, ⟨kcycle, kscanline, kframe⟩ =>
    ⟨kcycle.trans hcycle, kscanline.trans hscanline, kframe.trans hframe⟩

theorem SameStub.ppuClock {s t : State} : SameStub s t → SameStub (ppuClock s) (ppuClock t)
  | ⟨hcycle, hscanline, hframe⟩ => ppuClock_counters hcycle hscanline hframe

/-- Whatever a step runs, it ticks the stub once (60_exceptions R280). -/
theorem step_sameStub {s t : State} (h : step s = .next t) : SameStub (ppuClock s) t := by
  obtain ⟨hcycle, hscanline, hframe, -⟩ := step_kept h
  exact ⟨hcycle, hscanline, hframe⟩

/-- Of three values of the ratio counter in a row, one is CPU_PHASE (60_exceptions R283). -/
theorem phase_once : ∀ c phase : Fin 3,
    ((if c = phase then 1 else 0) + if c + 1 = phase then 1 else 0) + (if c + 1 + 1 = phase then 1 else 0) = 1 ∧ c + 1 + 1 + 1 = c := by
  decide

/-- Settles O46: each step ticks the stub, and the ratio counter takes its three values. -/
theorem threeBusClocksTickOnce : Obligations.ThreeBusClocksTickOnce := by
  intro s hs
  obtain ⟨t₁, h₁, hs₁⟩ := step_progress hs
  obtain ⟨t₂, h₂, hs₂⟩ := step_progress hs₁
  obtain ⟨t₃, h₃, -⟩ := step_progress hs₂
  obtain ⟨-, -, -, hctr₁, hparams₁, -⟩ := step_kept h₁
  obtain ⟨-, -, -, hctr₂, hparams₂, -⟩ := step_kept h₂
  obtain ⟨-, -, -, hctr₃, -⟩ := step_kept h₃
  obtain ⟨honce, hround⟩ := phase_once s.busCtr s.params.cpuPhase
  have hrun : Host.Core.run Sys2Proof.core 3 s = .next t₃ := by rw [run_next h₁, run_next h₂, run_next h₃]; rfl
  have hclock : t₃.clockCount = s.clockCount + 1 := by
    rw [step_clockCount h₃, step_clockCount h₂, step_clockCount h₁, hparams₂, hparams₁, hctr₂, hctr₁]
    simpa only [Nat.add_assoc] using congrArg (s.clockCount + ·) honce
  have hstub : SameStub (ppuClock (ppuClock (ppuClock s))) t₃ :=
    (((step_sameStub h₁).ppuClock.trans (step_sameStub h₂)).ppuClock).trans (step_sameStub h₃)
  exact ⟨t₃, hrun, hclock, by rw [hctr₃, hctr₂, hctr₁, hround], hstub⟩

/-! The stub, tick by tick (60_exceptions R290). -/

theorem ppuClock_withinLine {s : State} (h : s.ppuCycle < 340) : ppuClock s = { s with ppuCycle := s.ppuCycle + 1 } :=
  if_neg (by omega)

theorem ppuClock_nextLine {s : State} (hc : s.ppuCycle = 340) (hl : s.ppuScanline < 260) :
    ppuClock s = { s with ppuCycle := 0, ppuScanline := s.ppuScanline + 1 } :=
  (if_pos (by omega)).trans (if_neg (by omega))

theorem ppuClock_nextFrame {s : State} (hc : s.ppuCycle = 340) (hl : s.ppuScanline = 260) :
    ppuClock s = { s with ppuCycle := 0, ppuScanline := -1, frameComplete := true } :=
  (if_pos (by omega)).trans (if_pos (by omega))

/-- Settles O47: the stub's three cases, and the two flags across the tick and the clock of a step. -/
theorem pictureUnitTick : Obligations.PictureUnitTick := by
  refine ⟨fun s => ⟨ppuClock_withinLine, ppuClock_nextLine, ppuClock_nextFrame⟩, fun s t h => ?flags⟩
  obtain ⟨-, -, hframe, -, -, -, -, hvblank, -⟩ := step_kept h
  exact ⟨fun hf => hframe.trans (ppuClock_frame hf), hvblank⟩

/-- `s` with its stub `m` ticks after the start of a frame, which is at scanline -1 and cycle 0: 341 ticks to a scanline, 262 scanlines
to a frame, and the frame flag raised once the first of them is over. -/
def State.stubAt (s : State) (m : Nat) : State :=
  { s with
    ppuCycle := m % 341, ppuScanline := ((m / 341 % 262 : Nat) : Int) - 1
    frameComplete := s.frameComplete || decide (341 * 262 ≤ m) }

/-- How many ticks after the start of a frame a stub in range is. -/
def State.stubTicks (s : State) : Nat := (s.ppuScanline + 1).toNat * 341 + s.ppuCycle

/-- A tick of the stub is a tick more, at the end of a frame, at the end of another scanline and within one. -/
theorem ppuClock_stubAt (s : State) (m : Nat) : ppuClock (s.stubAt m) = s.stubAt (m + 1) := by
  by_cases hc : m % 341 = 340
  · by_cases hl : m / 341 % 262 = 261
    · have hframe : 341 * 262 ≤ m + 1 := by omega
      have hcycle : (m + 1) % 341 = 0 := by omega
      have hline : (m + 1) / 341 % 262 = 0 := by omega
      rw [ppuClock_nextFrame hc (by simp [State.stubAt, hl]), State.stubAt, State.stubAt, hcycle, hline, decide_eq_true hframe,
        Bool.or_true]
      rfl
    · have hframe : 341 * 262 ≤ m + 1 ↔ 341 * 262 ≤ m := by omega
      have hcycle : (m + 1) % 341 = 0 := by omega
      have hline : (m + 1) / 341 % 262 = m / 341 % 262 + 1 := by omega
      rw [ppuClock_nextLine hc (by simp [State.stubAt]; omega)]
      simp [State.stubAt, hframe, hcycle, hline]
  · have hframe : 341 * 262 ≤ m + 1 ↔ 341 * 262 ≤ m := by omega
    have hcycle : (m + 1) % 341 = m % 341 + 1 := by omega
    have hline : (m + 1) / 341 = m / 341 := by omega
    rw [ppuClock_withinLine (by simp [State.stubAt]; omega)]
    simp [State.stubAt, hframe, hcycle, hline]

/-- A frame's ticks bring the counters back and raise the frame flag (60_exceptions R291). -/
theorem stubAt_period (s : State) (m : Nat) : s.stubAt (m + 341 * 262) = { s.stubAt m with frameComplete := true } := by
  have hcycle : (m + 341 * 262) % 341 = m % 341 := by omega
  have hline : (m + 341 * 262) / 341 % 262 = m / 341 % 262 := by omega
  rw [State.stubAt, State.stubAt, hcycle, hline, decide_eq_true (Nat.le_add_left ..), Bool.or_true]

/-- A stub in range is some number of ticks into its frame (10_state R42). -/
theorem stubAt_stubTicks {s : State} (h : s.stubInRange = true) : s.stubAt s.stubTicks = s := by
  simp only [State.stubInRange, Bool.and_eq_true, decide_eq_true_eq] at h
  obtain ⟨⟨hcycle, hlow⟩, hhigh⟩ := h
  have hc : s.stubTicks % 341 = s.ppuCycle := by unfold State.stubTicks; omega
  have hl : ((s.stubTicks / 341 % 262 : Nat) : Int) - 1 = s.ppuScanline := by unfold State.stubTicks; omega
  have hf : decide (341 * 262 ≤ s.stubTicks) = false := decide_eq_false (by unfold State.stubTicks; omega)
  rw [State.stubAt, hc, hl, hf, Bool.or_false]

theorem repeat_ppuClock {s : State} (h : s.stubInRange = true) (n : Nat) :
    Nat.repeat ppuClock n s = s.stubAt (s.stubTicks + n) := by
  induction n with
  | zero => rw [Nat.add_zero, stubAt_stubTicks h]; rfl
  | succ n ih => rw [Nat.repeat, ih, ppuClock_stubAt, Nat.add_assoc]

/-- Settles O48: after a frame's ticks the remainders are the same, and from (0, 0) the frame is over after 89001 ticks. -/
theorem framePeriod : Obligations.FramePeriod := by
  refine ⟨fun s h => ?period, fun s hc hl hf => ?first⟩
  case period =>
    rw [repeat_ppuClock h, stubAt_period, stubAt_stubTicks h]
    exact ⟨rfl, rfl, rfl⟩
  case first =>
    have hrange : s.stubInRange = true := by simp [State.stubInRange, hc, hl]
    have hticks : s.stubTicks = 341 := by simp [State.stubTicks, hc, hl]
    refine ⟨fun n hn => ?before, ?raised⟩
    case before =>
      have hbefore : ¬ 341 * 262 ≤ 341 + n := by omega
      simp [repeat_ppuClock hrange, hticks, State.stubAt, hf, hbefore]
    case raised =>
      rw [repeat_ppuClock hrange, hticks]
      simp [State.stubAt]

/-! The order of a bus clock. -/

/-- Settles O45: a due processor runs on the state the stub's tick left, which keeps all that a port read sees beside the stub. -/
theorem pictureUnitAdvancesFirst : Obligations.PictureUnitAdvancesFirst := by
  intro s t hreset hphase hclock
  have hbus : busClock s = onNext advanceBusCtr (cpuClock (ppuClock s)) := by simp [busClock, hphase]
  refine ⟨by rw [step_busClock hreset, hbus, hclock]; rfl, fun port => ⟨?_, ?_⟩⟩
  · rw [← ppuClock_draws s, ← ppuClock_vblank s]
    rfl
  · rw [← ppuClock_draws s, ← ppuClock_vblank s, ← ppuClock_clockCount s]
    rfl

end Sys2Proof.Machine
end

section
/-! PROOFS. The statements about interrupts (60_exceptions R271 to R278): what an entry leaves on the stack and in the registers, whatever
its vector, and what RTI makes of it. -/

namespace Sys2Proof.Machine

open Sys2Proof

/-! The calls of the host. -/

theorem afterReset_of_hasReset {s : State} (h : s.hasReset = true) (o : Host.Outcome State Fault Refusal) : afterReset s o = o :=
  if_pos h

theorem irqRequest_masked {s : State} (h : getFlag .I s.p = true) : irqRequest s = s := if_pos h

theorem irqRequest_taken {s : State} (h : getFlag .I s.p = false) : irqRequest s = interruptEntry irqVector 7 s :=
  if_neg (Bool.eq_false_iff.mp h)

theorem hostAction_irq {s : State} (h : s.hasReset = true) : hostAction .irq s = .next (irqRequest s) := afterReset_of_hasReset h _

theorem hostAction_nmi {s : State} (h : s.hasReset = true) : hostAction .nmi s = .next (nmiRequest s) := afterReset_of_hasReset h _

theorem runActions_cons {action : HostAction} {s t : State} (h : hostAction action s = .next t) (rest : List HostAction) :
    runActions (action :: rest) s = runActions rest t := by
  simp only [runActions, h]

theorem runActions_singleton (action : HostAction) (s : State) : runActions [action] s = hostAction action s := by
  unfold runActions
  cases hostAction action s <;> rfl

/-! An interrupt entry, whatever its vector. -/

@[simp] theorem interruptEntry_sp (vector : Word) (n : Nat) (s : State) : (interruptEntry vector n s).sp = s.sp - 3#8 := by
  simp [interruptEntry, enterTrap, push_pushWord]

@[simp] theorem interruptEntry_p (vector : Word) (n : Nat) (s : State) : (interruptEntry vector n s).p = interruptStatus s.p := by
  simp [interruptEntry, enterTrap]

@[simp] theorem interruptEntry_cyc (vector : Word) (n : Nat) (s : State) : (interruptEntry vector n s).cyc = n := rfl

theorem interruptEntry_ram (vector : Word) (n : Nat) (s : State) :
    (interruptEntry vector n s).ram =
      ((s.ram.write (stackOffset s.sp) (hiByte s.pc)).write (stackOffset (s.sp - 1#8)) (loByte s.pc)).write
        (stackOffset (s.sp - 2#8)) (interruptStatus s.p) := by
  simp [interruptEntry, enterTrap, push_pushWord]

/-- The status an interrupt entry makes keeps every flag but B, U and I (60_exceptions R272). -/
theorem interruptStatus_kept (p : Byte) : FlagsKept [.B, .U, .I] p (interruptStatus p) := by
  intro f hf
  simp only [List.mem_cons, List.not_mem_nil, or_false, not_or] at hf
  obtain ⟨hB, hU, hI⟩ := hf
  simp [getFlag_interruptStatus, hB, hU, hI]

/-- The bytes of storage outside an entry's three pushes (60_exceptions R272). -/
theorem read_interruptFrame {s : State} (hwf : s.memoriesWf = true) {o : Nat}
    (ho : o ∉ [stackOffset s.sp, stackOffset (s.sp - 1#8), stackOffset (s.sp - 2#8)]) (u v w : Byte) :
    (((s.ram.write (stackOffset s.sp) u).write (stackOffset (s.sp - 1#8)) v).write (stackOffset (s.sp - 2#8)) w).read o =
      s.ram.read o :=
  read_write_three (memoriesWf_ram hwf) u v w (stackOffset_lt s.sp) (stackOffset_lt _) ho

/-- Settles O49: the masked call changes nothing, the taken one is the entry through its vector, with the frame of its pushes. -/
theorem irqEntry : Obligations.IrqEntry := by
  intro s l h hreset hl hh
  refine ⟨fun hI => ?masked, fun hI => ⟨_, _, getFlag_interruptStatus .B s.p, getFlag_interruptStatus .U s.p,
    getFlag_interruptStatus .I s.p, interruptStatus_kept s.p, ?taken, rfl,
    keepsMemoryBut_ram rfl fun hwf _ ho => read_interruptFrame hwf ho _ _ _⟩⟩
  case masked => rw [hostAction_irq hreset, irqRequest_masked hI]
  case taken =>
    have hentry := (irqRequest_taken hI).trans (interruptEntry_eq 7 (by decide) (by decide) hl hh)
    exact (hostAction_irq hreset).trans (congrArg _ hentry)

/-- Settles O50: the entry through the NMI vector, with the frame of its pushes. -/
theorem nmiEntry : Obligations.NmiEntry := fun s l h hreset hl hh =>
  ⟨_, _, getFlag_interruptStatus .B s.p, getFlag_interruptStatus .U s.p, getFlag_interruptStatus .I s.p, interruptStatus_kept s.p,
    (hostAction_nmi hreset).trans (congrArg _ (interruptEntry_eq 8 (by decide) (by decide) hl hh)), rfl,
    keepsMemoryBut_ram rfl fun hwf _ ho => read_interruptFrame hwf ho _ _ _⟩

/-- RTI right after an interrupt entry undoes it but for the status (60_exceptions R278). -/
theorem exec_rti_interruptEntry (vector : Word) (n : Nat) {s : State} (hwf : s.memoriesWf = true) :
    exec .rti (interruptEntry vector n s) =
      .next { interruptEntry vector n s with p := pulledStatus (interruptStatus s.p), pc := s.pc, sp := s.sp, cyc := 6 } := by
  obtain ⟨hstatus, hlow, hhigh⟩ := read_pushed_three hwf (hiByte s.pc) (loByte s.pc) (interruptStatus s.p)
  simp only [← interruptEntry_ram vector n] at hstatus hlow hhigh
  rw [exec_rti, interruptEntry_sp, hstatus, hlow, hhigh, joinBytes_hi_lo, BitVec.sub_add_cancel]

/-- Pulling the status an interrupt entry pushed leaves I set and gives the flags back (60_exceptions R278). -/
theorem pulledStatus_interruptStatus (p : Byte) :
    getFlag .I (pulledStatus (interruptStatus p)) = true ∧ FlagsKept [.B, .U, .I] p (pulledStatus (interruptStatus p)) := by
  refine ⟨by simp [getFlag_pulledStatus, getFlag_interruptStatus], fun f hf => ?kept⟩
  have hentry := interruptStatus_kept p f hf
  simp only [List.mem_cons, List.not_mem_nil, or_false, not_or] at hf
  obtain ⟨hB, hU, -⟩ := hf
  simp [getFlag_pulledStatus, hB, hU, hentry]

/-- Settles O51: either call is an entry, and RTI reads back the three bytes it pushed. -/
theorem rtiAfterInterruptLeavesMasked : Obligations.RtiAfterInterruptLeavesMasked := by
  intro s u hwf hcall
  have hentry : ∃ vector n, exec .rti (interruptEntry vector n s) = .next u := by
    rcases hcall with hnmi | ⟨hI, hirq⟩
    · exact ⟨nmiVector, 8, hnmi⟩
    · exact ⟨irqVector, 7, irqRequest_taken hI ▸ hirq⟩
  obtain ⟨vector, n, hrti⟩ := hentry
  obtain rfl := Host.Outcome.next.inj ((exec_rti_interruptEntry vector n hwf).symm.trans hrti)
  exact ⟨rfl, rfl, pulledStatus_interruptStatus s.p⟩

/-- Settles O52: an entry sets I, which masks an IRQ and no NMI; the second frame holds the PC of the first handler. -/
theorem interruptCallsInOneGap : Obligations.InterruptCallsInOneGap := by
  intro s hreset
  refine ⟨?nmiFirst, fun hwf hI => ⟨nmiRequest (irqRequest s), ?irqFirst, ?sp, interruptEntry_cyc .., _,
    exec_rti_interruptEntry nmiVector 8 ((Kept.irqRequest s).memories hwf), rfl⟩⟩
  case nmiFirst =>
    have hmasked : getFlag .I (nmiRequest s).p = true := by simp [nmiRequest, getFlag_interruptStatus]
    rw [runActions_cons (hostAction_nmi hreset), runActions_singleton, hostAction_irq ((Kept.nmiRequest s).hasReset.trans hreset),
      irqRequest_masked hmasked, hostAction_nmi hreset]
  case irqFirst =>
    rw [runActions_cons (hostAction_irq hreset), runActions_singleton, hostAction_nmi ((Kept.irqRequest s).hasReset.trans hreset)]
  case sp =>
    rw [irqRequest_taken hI, nmiRequest, interruptEntry_sp, interruptEntry_sp, BitVec.sub_sub]
    rfl

end Sys2Proof.Machine
end

section
/-! PROOFS. The statement about the actions of the host (60_exceptions R300): most keep all that no instruction touches, and the resets
and the inserted cartridge write only what the invariant of a run allows. -/

namespace Sys2Proof.Machine

open Sys2Proof

/-- What no instruction touches includes the invariant of a run. -/
theorem Kept.inv {s t : State} (k : Kept s t) (h : s.Inv) : t.Inv where
  started := k.hasReset.trans h.started
  legal := k.params ▸ h.legal
  memories := k.memories h.memories
  stub := (stubInRange_congr k.ppuCycle k.ppuScanline).trans h.stub

theorem insertCartridge_next {c : Cartridge} {s t : State} (h : insertCartridge c s = .next t) : t = s.setCart (some c) := by
  unfold insertCartridge at h
  split at h
  · cases h
  · split at h
    · cases h
    · exact (Host.Outcome.next.inj h).symm

theorem insertCartridge_inv {c : Cartridge} {s t : State} (hi : s.Inv) (hc : c.wf = true) (h : insertCartridge c s = .next t) :
    t.Inv := by
  rw [insertCartridge_next h]
  have hmemories : (s.setCart (some c)).memoriesWf = true := by simp [State.memoriesWf, memoriesWf_ram hi.memories, hc]
  exact ⟨hi.started, hi.legal, hmemories, hi.stub⟩

/-- The processor's reset writes its registers and reads the vector (70_reset R310). -/
theorem cpuReset_inv {s : State} (hi : s.Inv) : (cpuReset s).Inv := by
  obtain ⟨hstarted, hlegal, hmemories, hstub⟩ := (Kept.memReadPair resetVector (resetVector + 1#16) s).inv hi
  exact ⟨hstarted, hlegal, hmemories, hstub⟩

/-- Legal parameters put the stub's reset counters in range (70_reset R311). -/
theorem ppuReset_stubInRange {s : State} (h : paramsLegal s.params = true) : (ppuReset s).stubInRange = true := by
  simp only [paramsLegal, Bool.and_eq_true] at h
  obtain ⟨⟨⟨-, hcycle⟩, hlow⟩, hhigh⟩ := h
  simp only [State.stubInRange, Bool.and_eq_true]
  exact ⟨⟨hcycle, hlow⟩, hhigh⟩

theorem busReset_inv {s : State} (hi : s.Inv) : (busReset s).Inv := by
  obtain ⟨-, hlegal, hmemories, -⟩ := cpuReset_inv hi
  exact ⟨rfl, hlegal, hmemories, ppuReset_stubInRange hlegal⟩

theorem fetch_inv {s : State} (hi : s.Inv) : (fetch s).2.Inv := by
  obtain ⟨hstarted, hlegal, hmemories, hstub⟩ := (fetch_kept s).inv hi
  exact ⟨hstarted, hlegal, hmemories, hstub⟩

theorem countDown_inv {s : State} (hi : s.Inv) : (countDown s).Inv := ⟨hi.started, hi.legal, hi.memories, hi.stub⟩

theorem cpuClock_inv {s t : State} (hi : s.Inv) (h : cpuClock s = .next t) : t.Inv := by
  rcases cpuClock_cases s with ⟨-, he⟩ | ⟨-, u, -, hk, he⟩
  · obtain rfl := Host.Outcome.next.inj (he.symm.trans h)
    exact countDown_inv hi
  · obtain rfl := Host.Outcome.next.inj (he.symm.trans h)
    exact countDown_inv (hk.inv (fetch_inv hi))

/-- Settles O59: each action keeps what no instruction touches, or writes only what the invariant allows. -/
theorem hostActionsKeepTheInvariant : Obligations.HostActionsKeepTheInvariant := by
  intro act s t hi hcart h
  cases act with
  | insertCartridge c => exact insertCartridge_inv hi (hcart c rfl) h
  | busReset =>
    obtain rfl := Host.Outcome.next.inj ((if_pos hi.legal).symm.trans h)
    exact busReset_inv hi
  | busClock => exact step_inv hi h
  | irq =>
    obtain rfl := Host.Outcome.next.inj (afterReset_next h)
    exact (Kept.irqRequest s).inv hi
  | nmi =>
    obtain rfl := Host.Outcome.next.inj (afterReset_next h)
    exact (Kept.nmiRequest s).inv hi
  | busRead addr ro =>
    obtain rfl := Host.Outcome.next.inj h
    exact (Kept.busRead addr ro s).inv hi
  | busWrite addr v =>
    obtain rfl := Host.Outcome.next.inj h
    exact (Kept.busWrite addr v s).inv hi
  | clearFrameComplete =>
    obtain rfl := Host.Outcome.next.inj h
    exact ⟨hi.started, hi.legal, hi.memories, hi.stub⟩
  | cpuReset =>
    obtain rfl := Host.Outcome.next.inj h
    exact cpuReset_inv hi
  | cpuClock => exact cpuClock_inv hi (afterReset_next h)

end Sys2Proof.Machine
end

section
/-! PROOFS. The statements about the bus reset (70_reset R310 to R315): what it leaves, given the reset vector's bytes, and the bus clocks
after it that only count down. -/

namespace Sys2Proof.Machine

open Sys2Proof

/-! What a bus reset leaves. -/

/-- The bus reset of a state whose reset vector holds the bytes `l` and `h` (70_reset R310 to R312). -/
theorem busReset_eq {s : State} {l h : Byte} (hl : s.byteAt 0xFFFC#16 = some l) (hh : s.byteAt 0xFFFD#16 = some h) :
    busReset s =
      { s with
        a := 0x00#8, x := 0x00#8, y := 0x00#8, sp := 0xFD#8, pc := joinBytes h l, p := s.params.pReset, cyc := 8
        opcode := 0x00#8, ea := 0x0000#16, clockCount := 0, busCtr := 0
        ppuCycle := s.params.ppuResetCycle, ppuScanline := s.params.ppuResetScanline, frameComplete := false
        vblank := Config.vblankInit s.draws, draws := s.draws + 1, hasReset := true } := by
  have hvector : memRead16 resetVector s = (joinBytes h l, s) := memReadPair_of_byteAt hl hh
  simp only [busReset, cpuReset, hvector]
  rfl

theorem hostAction_busReset {s : State} (h : paramsLegal s.params = true) : hostAction .busReset s = .next (busReset s) := if_pos h

/-- With an empty slot every address of cartridge space holds 0 (20_memory R65). -/
theorem byteAt_emptySlot {s : State} (hcart : s.cart = none) {addr : Word} (hram : ¬ addr ≤ 0x1FFF#16) (hport : ¬ addr ≤ 0x3FFF#16) :
    s.byteAt addr = some 0x00#8 := by
  simp only [State.byteAt, if_neg hram, if_neg hport, hcart]

/-- The model's state after reset is the bus reset of a state that lists no byte, has an empty slot and has drawn nothing. -/
theorem busReset_eq_reset {s : State} (hcart : s.cart = none) (hram : s.ram = []) (hparams : s.params = Config.defaultParams)
    (hdraws : s.draws = 0) : busReset s = State.reset := by
  rw [busReset_eq (byteAt_emptySlot hcart (by decide) (by decide)) (byteAt_emptySlot hcart (by decide) (by decide)), hcart, hram, hparams,
    hdraws]
  rfl

/-- Settles O53: the equation of the bus reset, and the same at an empty slot. -/
theorem busResetValues : Obligations.BusResetValues := by
  refine ⟨fun s l h hlegal hl hh => ?values, fun s hcart hram hparams hdraws => ?reset⟩
  case values => rw [hostAction_busReset hlegal, busReset_eq hl hh]
  case reset =>
    have hlegal : paramsLegal s.params = true := by rw [hparams]; decide
    rw [hostAction_busReset hlegal, busReset_eq_reset hcart hram hparams hdraws]

/-! The countdown after a bus reset. -/

/-- `t` is `s` after `k` bus clocks from a zero ratio counter that only counted: with CPU_PHASE 0 the clocks 0, 3, 6, ... tick the
processor, so that `(k + 2) / 3` of the first `k` do. The stub's counters and frame flag are left open. -/
def CountedTo (k : Nat) (s t : State) : Prop :=
  t = { s with
        cyc := s.cyc - (k + 2) / 3, clockCount := s.clockCount + (k + 2) / 3, busCtr := Fin.ofNat 3 k, ppuCycle := t.ppuCycle
        ppuScanline := t.ppuScanline, frameComplete := t.frameComplete }

theorem CountedTo.zero {s : State} (hctr : s.busCtr = 0) : CountedTo 0 s s := congrArg s.setBusCtr hctr

theorem CountedTo.pc {k : Nat} {s t : State} (h : CountedTo k s t) : t.pc = s.pc := (congrArg State.pc h).trans rfl

/-- A tick of the stub changes nothing that `CountedTo` fixes. -/
theorem CountedTo.ppuClock {k : Nat} {s t : State} (h : CountedTo k s t) : CountedTo k s (ppuClock t) := by
  unfold CountedTo
  rw [ppuClock_state t, h]

/-- While the countdown lasts a step is one bus clock more, with a processor tick in every third (40_dispatch R130, 60_exceptions R280). -/
theorem step_countedTo {k : Nat} {s t : State} (hreset : s.hasReset = true) (hphase : s.params.cpuPhase = 0) (hk : k < 3 * s.cyc)
    (h : CountedTo k s t) : ∃ u, step t = .next u ∧ CountedTo (k + 1) s u := by
  have hcyc : t.cyc = s.cyc - (k + 2) / 3 := congrArg State.cyc h
  have hcount : t.clockCount = s.clockCount + (k + 2) / 3 := congrArg State.clockCount h
  have hctr : t.busCtr = Fin.ofNat 3 k := congrArg State.busCtr h
  have hphase' : t.params.cpuPhase = 0 := (congrArg (·.params.cpuPhase) h).trans hphase
  have hdue : t.busCtr = t.params.cpuPhase ↔ k % 3 = 0 := by
    rw [hctr, hphase']
    exact Fin.ext_iff
  have hnext : t.busCtr + 1 = Fin.ofNat 3 (k + 1) := (congrArg (· + 1) hctr).trans (Fin.ofNat_add k 1)
  obtain ⟨hquiet, htick⟩ := stepBetweenBoundaries t ((congrArg State.hasReset h).trans hreset)
  have hclock := h.ppuClock
  by_cases hk3 : k % 3 = 0
  · have hticks : (k + 1 + 2) / 3 = (k + 2) / 3 + 1 := by omega
    refine ⟨_, htick (hdue.mpr hk3) (by omega), ?_⟩
    rw [CountedTo, hnext, hcyc, hcount, hticks, hclock]
    rfl
  · have hticks : (k + 1 + 2) / 3 = (k + 2) / 3 := by omega
    refine ⟨_, hquiet (mt hdue.mp hk3), ?_⟩
    rw [CountedTo, hnext, hticks, hclock]

/-- A run from a zero ratio counter only counts while the countdown lasts, by induction on the bus clocks. -/
theorem run_countedTo {s : State} (hreset : s.hasReset = true) (hphase : s.params.cpuPhase = 0) (hctr : s.busCtr = 0) (k : Nat)
    (hk : k ≤ 3 * s.cyc) : ∃ t, Host.Core.run Sys2Proof.core k s = .next t ∧ CountedTo k s t := by
  induction k with
  | zero => exact ⟨s, rfl, CountedTo.zero hctr⟩
  | succ k ih =>
    obtain ⟨t, hrun, ht⟩ := ih (by omega)
    obtain ⟨u, hstep, hu⟩ := step_countedTo hreset hphase (by omega) ht
    exact ⟨u, (run_add 1 hrun).trans (run_next hstep), hu⟩

theorem busReset_params (s : State) : (busReset s).params = s.params :=
  (congrArg State.params (memRead16_state resetVector s)).trans rfl

/-- Settles O54: the reset's countdown of 8 lasts 24 bus clocks, of which none touches PC. -/
theorem firstFetchIsInTheNinthClock : Obligations.FirstFetchIsInTheNinthClock := by
  intro s hphase
  have hcounted := run_countedTo (s := busReset s) rfl ((congrArg _ (busReset_params s)).trans hphase) rfl
  obtain ⟨t, hrun, ht⟩ := hcounted 24 (Nat.le_refl 24)
  refine ⟨t, hrun, ht, fun k hk => ?_⟩
  obtain ⟨u, hrun, hu⟩ := hcounted k (Nat.le_of_lt hk)
  exact ⟨u, hrun, hu.pc⟩

end Sys2Proof.Machine
end
